-- ==== Sys2Proof/Word.lean ====
section
/-! DEFINITION. Word.lean: the word types of the pi4i2c protocol block (spec 00_scope.md rule R5) and the names of its
two units (rule R1). -/

namespace Sys2Proof

/-- A byte: 8 bits, bit 7 the most significant (R5). -/
abbrev Byte := BitVec 8

/-- A word: 16 bits, bit 15 the most significant (R5). -/
abbrev Word := BitVec 16

/-- The two independent units of the block (R1, R124). -/
inductive UnitId where
  /-- the Motion Sensor Decoder -/
  | msd
  /-- the Character Display Sequencer -/
  | cds
deriving DecidableEq, Repr

end Sys2Proof
end

