-- ==== Sys2Proof/Config.lean ====
section
/-! DEFINITION. Config.lean: the implementation parameters of spec 00_scope.md rule R4. They are plain data that each
unit holds (its binding registers, R22, and the parameters its rules use), so that a statement over every state is a
statement over every choice of the parameters. -/

namespace Sys2Proof

/-- `TEMP_DIV` (R4, R87): the temperature division in integers, rounding toward zero, or in rationals. -/
inductive TempDiv where
  | trunc
  | real
deriving DecidableEq, Repr

/-- `FLOAT_FMT` (R4, R83): how a scaled result is represented. -/
inductive FloatFmt where
  | exact
  | binary32
  | binary64
deriving DecidableEq, Repr

/-- The positive rationals, the type of `DELAY_MS` (R4). -/
abbrev PosRat := { q : Rat // 0 < q }

/-- The parameters of the MSD (R4); `bus` and `addr` are its binding registers (R22). -/
structure MsdParams where
  /-- `BUS` -/
  bus : Nat
  /-- `MSD_ADDR` -/
  addr : Nat
  /-- `AUTO_WAKE` -/
  autoWake : Bool
  /-- `TEMP_DIV` -/
  tempDiv : TempDiv
  /-- `FLOAT_FMT` -/
  floatFmt : FloatFmt
deriving DecidableEq, Repr

/-- The parameters of the CDS (R4); `bus` and `addr` are its binding registers (R22). -/
structure CdsParams where
  /-- `BUS` -/
  bus : Nat
  /-- `CDS_ADDR` -/
  addr : Nat
  /-- `LINE1_ADDR` -/
  line1Addr : Byte
  /-- `DELAY_MS`, a positive rational number of milliseconds -/
  delayMs : PosRat
  /-- `MAX_TEXT` -/
  maxText : Nat
deriving DecidableEq, Repr

/-- `BUS` is OPEN: the spec gives it no default (R4, D29). No proof can see its value (log entry 8). -/
opaque Config.openBus : Nat

/-- `CDS_ADDR` is OPEN: the spec gives it no default (R4, D29). No proof can see its value (log entry 8). -/
opaque Config.openCdsAddr : Nat

/-- The default `MAX_TEXT` of R4. -/
def Config.defaultMaxText : Nat := 255

/-- The MSD's parameters at the defaults of R4. -/
def Config.msdDefaults : MsdParams :=
  { bus := Config.openBus, addr := 0x68, autoWake := true, tempDiv := .trunc, floatFmt := .exact }

/-- The CDS's parameters at the defaults of R4. -/
def Config.cdsDefaults : CdsParams :=
  { bus := Config.openBus, addr := Config.openCdsAddr, line1Addr := 0x08, delayMs := ⟨1, by decide⟩,
    maxText := Config.defaultMaxText }

end Sys2Proof
end

