-- ==== Sys2Proof/Syntax.lean ====
section
/-! DEFINITION. Syntax.lean: the sixteen commands of spec 30_encoding.md rule R52, one constructor per row of
spec/opcode_table.json. Every operand is one unsigned byte taken verbatim (R53); WRITE_STRING also carries its text (R55). -/

namespace Sys2Proof

/-- One command of the block (R52). -/
inductive Instr where
  /-- `WAKE` (R72) -/
  | wake
  /-- `READ_WORD a`, `a` the number of the register that holds the high byte (R73) -/
  | readWord (a : Byte)
  /-- `READ_TEMP` (R91) -/
  | readTemp
  /-- `SET_ACCEL_RANGE a`, `a` the byte to write, not validated (R76) -/
  | setAccelRange (a : Byte)
  /-- `SET_GYRO_RANGE a`, `a` the byte to write, not validated (R77) -/
  | setGyroRange (a : Byte)
  /-- `READ_RAW_ACCEL_RANGE` (R74) -/
  | readRawAccelRange
  /-- `READ_RAW_GYRO_RANGE` (R75) -/
  | readRawGyroRange
  /-- `DECODE_ACCEL_RANGE a`, `a` a raw range byte (R89) -/
  | decodeAccelRange (a : Byte)
  /-- `DECODE_GYRO_RANGE a`, `a` a raw range byte (R90) -/
  | decodeGyroRange (a : Byte)
  /-- `GET_ACCEL_DATA a`, `a` the flags byte: bit 0 is `inGravityUnits`, bits 7:1 are reserved (R54, R92) -/
  | getAccelData (a : Byte)
  /-- `GET_GYRO_DATA` (R93) -/
  | getGyroData
  /-- `STROBE a`, `a` the nibbleByte (R97) -/
  | strobe (a : Byte)
  /-- `WRITE4BITS a`, `a` the nibbleByte (R98) -/
  | write4Bits (a : Byte)
  /-- `SEND_BYTE a, b`, `a` the LCD byte, `b` the mode (R99) -/
  | sendByte (a b : Byte)
  /-- `WRITE_STRING text, line` (R100); the packet's `n` is the length of the text (R55) -/
  | writeString (line : Byte) (text : List Byte)
  /-- `CLEAR` (R102) -/
  | clear
deriving DecidableEq, Repr

/-- The sixteen mnemonics of R52. -/
inductive Mnemonic where
  | wake | readWord | readTemp | setAccelRange | setGyroRange | readRawAccelRange | readRawGyroRange
  | decodeAccelRange | decodeGyroRange | getAccelData | getGyroData
  | strobe | write4Bits | sendByte | writeString | clear
deriving DecidableEq, Repr

/-- The four packet formats of R51. -/
inductive Format where
  | p0 | p1 | p2 | ps
deriving DecidableEq, Repr

/-- The mnemonic of a command. -/
def Instr.mnemonic : Instr → Mnemonic
  | .wake => .wake
  | .readWord _ => .readWord
  | .readTemp => .readTemp
  | .setAccelRange _ => .setAccelRange
  | .setGyroRange _ => .setGyroRange
  | .readRawAccelRange => .readRawAccelRange
  | .readRawGyroRange => .readRawGyroRange
  | .decodeAccelRange _ => .decodeAccelRange
  | .decodeGyroRange _ => .decodeGyroRange
  | .getAccelData _ => .getAccelData
  | .getGyroData => .getGyroData
  | .strobe _ => .strobe
  | .write4Bits _ => .write4Bits
  | .sendByte _ _ => .sendByte
  | .writeString _ _ => .writeString
  | .clear => .clear

/-- Every mnemonic, in the order of the opcode map (R52). -/
def Mnemonic.all : List Mnemonic :=
  [.wake, .readWord, .readTemp, .setAccelRange, .setGyroRange, .readRawAccelRange, .readRawGyroRange,
   .decodeAccelRange, .decodeGyroRange, .getAccelData, .getGyroData,
   .strobe, .write4Bits, .sendByte, .writeString, .clear]

/-- The unit that executes a command (R2, R52): eleven of the MSD, five of the CDS. -/
def Mnemonic.unit : Mnemonic → UnitId
  | .wake | .readWord | .readTemp | .setAccelRange | .setGyroRange | .readRawAccelRange | .readRawGyroRange
  | .decodeAccelRange | .decodeGyroRange | .getAccelData | .getGyroData => .msd
  | .strobe | .write4Bits | .sendByte | .writeString | .clear => .cds

/-- The unit that executes a command. -/
def Instr.unit (i : Instr) : UnitId := i.mnemonic.unit

end Sys2Proof
end

