-- ==== Sys2Proof/WellFormed.lean ====
section
/-! DEFINITION. WellFormed.lean: which commands have a legal packet (spec 30_encoding.md rule R62). The checks are on the
operands; everything else R62 calls legal is accepted. -/

namespace Sys2Proof

/-- The operand checks of R62 under `MAX_TEXT = maxText`: (b) the text is at most `MAX_TEXT` bytes and its length fits the
byte `n` (R55); (c) bits 7:1 of the flags are 0; (d) the register number is not 0xFF. -/
def Instr.wf (maxText : Nat) : Instr → Bool
  | .wake => true
  | .readWord a => a != 0xFF
  | .readTemp => true
  | .setAccelRange _ => true
  | .setGyroRange _ => true
  | .readRawAccelRange => true
  | .readRawGyroRange => true
  | .decodeAccelRange _ => true
  | .decodeGyroRange _ => true
  | .getAccelData a => a &&& 0xFE == 0x00
  | .getGyroData => true
  | .strobe _ => true
  | .write4Bits _ => true
  | .sendByte _ _ => true
  | .writeString _ text => text.length ≤ maxText && text.length ≤ 255
  | .clear => true

end Sys2Proof
end

