-- ==== Sys2Proof/Decode.lean ====
section
/-! DEFINITION. Decode.lean: the host-side command encoding of spec 30_encoding.md: the decoder of a packet (rules R50 to
R55, R61, R62, R67), total on any list of bytes and refusing by name, and after it the encoder. -/

namespace Sys2Proof

/-- Why a packet is illegal. Every reason has the same effect, IllegalCommand (R113); the names are the model's own. -/
inductive DecodeError where
  /-- an empty packet (R61) -/
  | emptyPacket
  /-- an opcode of neither unit (R61) -/
  | unknownOpcode
  /-- the other unit's opcode (R50, R61) -/
  | wrongUnit
  /-- the length is not the one the format asks for (R62 (a), R67) -/
  | wrongLength
  /-- `WRITE_STRING.n > MAX_TEXT` (R62 (b)) -/
  | textTooLong
  /-- `GET_ACCEL_DATA.a[7:1] != 0` (R62 (c)) -/
  | reservedFlags
  /-- `READ_WORD.a = 0xFF` (R62 (d)) -/
  | registerFF
deriving DecidableEq, Repr

/-- The opcode byte of a command (R52). -/
def Mnemonic.code : Mnemonic → Byte
  | .wake => 0x10
  | .readWord => 0x11
  | .readTemp => 0x12
  | .setAccelRange => 0x13
  | .setGyroRange => 0x14
  | .readRawAccelRange => 0x15
  | .readRawGyroRange => 0x16
  | .decodeAccelRange => 0x17
  | .decodeGyroRange => 0x18
  | .getAccelData => 0x19
  | .getGyroData => 0x1A
  | .strobe => 0x20
  | .write4Bits => 0x21
  | .sendByte => 0x22
  | .writeString => 0x23
  | .clear => 0x24

/-- The packet format of a command (R51, R52). -/
def Mnemonic.format : Mnemonic → Format
  | .wake | .readTemp | .readRawAccelRange | .readRawGyroRange | .getGyroData | .clear => .p0
  | .readWord | .setAccelRange | .setGyroRange | .decodeAccelRange | .decodeGyroRange | .getAccelData
  | .strobe | .write4Bits => .p1
  | .sendByte => .p2
  | .writeString => .ps

/-- The command an opcode byte names, on either unit. -/
def mnemonicOf? (b : Byte) : Option Mnemonic :=
  Mnemonic.all.find? fun m => m.code == b

/-- The expected length of a packet (R67): a function of byte 0, and for WRITE_STRING `3 + byte 2`. A WRITE_STRING packet
with no byte 2 is shorter than 3, the least length it may have (R62 (a)). -/
def expectedLength? : List Byte → Option Nat
  | [] => none
  | op :: rest =>
    match mnemonicOf? op with
    | none => none
    | some m =>
      match m.format with
      | .p0 => some 1
      | .p1 => some 2
      | .p2 => some 3
      | .ps =>
        match rest with
        | _ :: n :: _ => some (3 + n.toNat)
        | _ => some 3

/-- The command of a packet of the right length: its operand bytes in the order the format gives, and the operand checks
of R62 (b), (c), (d). -/
def readOperands (maxText : Nat) : Mnemonic → List Byte → Except DecodeError Instr
  | .wake, [] => .ok .wake
  | .readWord, [a] => if a = 0xFF then .error .registerFF else .ok (.readWord a)
  | .readTemp, [] => .ok .readTemp
  | .setAccelRange, [a] => .ok (.setAccelRange a)
  | .setGyroRange, [a] => .ok (.setGyroRange a)
  | .readRawAccelRange, [] => .ok .readRawAccelRange
  | .readRawGyroRange, [] => .ok .readRawGyroRange
  | .decodeAccelRange, [a] => .ok (.decodeAccelRange a)
  | .decodeGyroRange, [a] => .ok (.decodeGyroRange a)
  | .getAccelData, [a] => if a &&& 0xFE = 0x00 then .ok (.getAccelData a) else .error .reservedFlags
  | .getGyroData, [] => .ok .getGyroData
  | .strobe, [a] => .ok (.strobe a)
  | .write4Bits, [a] => .ok (.write4Bits a)
  | .sendByte, [a, b] => .ok (.sendByte a b)
  | .writeString, line :: n :: text =>
    if maxText < n.toNat then .error .textTooLong else .ok (.writeString line text)
  | .clear, [] => .ok .clear
  | _, _ => .error .wrongLength

/-- The decoder of the command port of unit `u` under `MAX_TEXT = maxText`: the command, or the name of what makes the
packet illegal (R61, R62). -/
def decode (u : UnitId) (maxText : Nat) (packet : List Byte) : Except DecodeError Instr :=
  match packet with
  | [] => .error .emptyPacket
  | op :: rest =>
    match mnemonicOf? op with
    | none => .error .unknownOpcode
    | some m =>
      if m.unit ≠ u then .error .wrongUnit
      else if expectedLength? (op :: rest) ≠ some (op :: rest).length then .error .wrongLength
      else readOperands maxText m rest

/-- The operand bytes of a command in its packet (R51, R55). -/
def Instr.operandBytes : Instr → List Byte
  | .wake => []
  | .readWord a => [a]
  | .readTemp => []
  | .setAccelRange a => [a]
  | .setGyroRange a => [a]
  | .readRawAccelRange => []
  | .readRawGyroRange => []
  | .decodeAccelRange a => [a]
  | .decodeGyroRange a => [a]
  | .getAccelData a => [a]
  | .getGyroData => []
  | .strobe a => [a]
  | .write4Bits a => [a]
  | .sendByte a b => [a, b]
  | .writeString line text => line :: BitVec.ofNat 8 text.length :: text
  | .clear => []

/-- The packet of a command (R51, R52, R55). -/
def encode (i : Instr) : List Byte := i.mnemonic.code :: i.operandBytes

/-- The bytes of a table word: spec/opcode_table.json reads a packet's fixed bytes as one number with byte 0 the most
significant (R52), so byte `k` of `n` bytes is bits `8 (n-1-k) + 7` down to `8 (n-1-k)` of `w` (log entry 12). -/
def tableBytes : Nat → Nat → List Byte
  | 0, _ => []
  | n + 1, w => BitVec.ofNat 8 (w >>> (8 * n)) :: tableBytes n w

/-- The whole packet of a table word: the operand bytes the table gives no bits are zero (the text of WRITE_STRING). -/
def tablePacket (nbits w : Nat) : List Byte :=
  let fixed := tableBytes ((nbits + 7) / 8) w
  fixed ++ List.replicate ((expectedLength? fixed).getD 0 - fixed.length) 0x00

/-- The unit a packet is meant for: bits 7:4 of the opcode name it, 0x1 for the MSD and 0x2 for the CDS (R50). -/
def packetUnit : List Byte → UnitId
  | [] => .msd
  | op :: _ => if op &&& 0xF0 = 0x20 then .cds else .msd

/-- The command the decoder reads from a table word (log entry 12). -/
def decodeTableWord (nbits w : Nat) : Option Instr :=
  (decode (packetUnit (tablePacket nbits w)) Config.defaultMaxText (tablePacket nbits w)).toOption

end Sys2Proof
end

