-- ==== Sys2Proof/Machine/State.lean ====
section
/-! DEFINITION. Machine/State.lean: the state of the block and of its environment, as plain data (spec 10_state.md). The
block holds no memory (20_memory.md rule R30): its state is the two units, and the environment (R10: host, transports,
delay primitive) is held as the answers it has ready and the moves it will make. -/

namespace Sys2Proof.Machine

/-- One answer of the MSD's transport (R11, R47): `ok` with a byte, or `error`. A write does not look at the byte. -/
inductive Reply where
  | ok (b : Byte)
  | error
deriving DecidableEq, Repr

/-- One answer of the CDS's transport to a `writeRaw` (R11, R32). -/
inductive Ack where
  | ok
  | error
deriving DecidableEq, Repr

/-- One event of a unit's event trace (R8). -/
inductive Event where
  /-- `RD(reg) -> b` -/
  | rd (reg b : Byte)
  /-- `RD(reg) -> ERR` -/
  | rdErr (reg : Byte)
  /-- `WR(reg, v)` -/
  | wr (reg v : Byte)
  /-- `WR(reg, v) -> ERR` -/
  | wrErr (reg v : Byte)
  /-- `RAW(v)` -/
  | raw (v : Byte)
  /-- `RAW(v) -> ERR` -/
  | rawErr (v : Byte)
  /-- `DLY` -/
  | dly
deriving DecidableEq, Repr

/-- A `num` in a response (R56): the rational itself, or the bytes of its IEEE 754 encoding, high byte first. -/
inductive NumValue where
  | exact (q : Rat)
  | image (bytes : List Byte)
deriving DecidableEq, Repr

/-- The payload of a response (R56); no payload is `bytes []`. -/
inductive Payload where
  | bytes (bs : List Byte)
  | nums (ns : List NumValue)
deriving DecidableEq, Repr

/-- A response packet (R56): the completion byte and the payload. -/
structure Response where
  completion : Byte
  payload : Payload
deriving DecidableEq, Repr

/-- A unit's phase (R12): IDLE, or BUSY with what is in progress: the MSD's boot action, whose write is issued and not
answered (R135, R140, log entry 6), or a command. -/
inductive Phase where
  | idle
  | booting
  | busy (i : Instr)
deriving DecidableEq, Repr

/-- The four sticky flags of `STATUS` (R18); `Ctl.status` is the register as the host reads it. -/
structure Flags where
  terr : Bool
  unk : Bool
  badline : Bool
  ill : Bool
deriving DecidableEq, Repr

/-- The warning bits raised so far for the response of the command in progress (R7 `warn`, R56). -/
structure Warn where
  unkCfg : Bool
  badLine : Bool
deriving DecidableEq, Repr

/-- What both units have (R11, R12, R16, R18): the phase, the micro-sequence counter, the sticky flags, the warnings of
the command in progress, the event trace and the responses delivered (oldest first), and the packets the host has
presented on the command port, the next one first. -/
structure Ctl where
  phase : Phase
  upc : Nat
  flags : Flags
  warn : Warn
  trace : List Event
  responses : List Response
  port : List (List Byte)
deriving DecidableEq, Repr

/-- The eight working registers of the MSD (R13). -/
structure MsdRegs where
  opa : Byte
  hi : Byte
  lo : Byte
  w : Word
  v0 : Int
  v1 : Int
  v2 : Int
  rng : Byte
deriving DecidableEq, Repr

/-- The MSD (R13, R22): parameters and binding registers, whether the boot action is still to be issued, control part, working registers, and the answers
its transport has ready, the next one first. -/
structure Msd where
  params : MsdParams
  bootDue : Bool
  ctl : Ctl
  regs : MsdRegs
  replies : List Reply
deriving DecidableEq, Repr

/-- The working registers of the CDS (R14); `txt` is `TXT[0]` to `TXT[MAX_TEXT-1]`. -/
structure CdsRegs where
  cmd : Byte
  mode : Byte
  nib : Byte
  half : BitVec 1
  line : Byte
  len : Byte
  idx : Nat
  txt : List Byte
deriving DecidableEq, Repr

/-- The CDS (R14, R22): parameters and binding registers, control part, working registers, and the answers its transport
and its delay primitive have ready. -/
structure Cds where
  params : CdsParams
  ctl : Ctl
  regs : CdsRegs
  acks : List Ack
  delays : Nat
deriving DecidableEq, Repr

/-- One move of the block or of its environment (R10, R44). -/
inductive Turn where
  /-- the unit takes its next turn: its boot action, its next command, or the rest of the command in progress -/
  | run (u : UnitId)
  /-- the host presents a packet on the unit's command port -/
  | present (u : UnitId) (packet : List Byte)
  /-- the MSD's transport answers -/
  | reply (r : Reply)
  /-- the CDS's transport answers -/
  | ack (a : Ack)
  /-- the CDS's delay primitive answers -/
  | delayDone
  /-- the unit is reset (R130) -/
  | reset (u : UnitId)
deriving DecidableEq, Repr

/-- The whole machine: both units, and the moves to come, the next one first. -/
structure State where
  msd : Msd
  cds : Cds
  schedule : List Turn
deriving DecidableEq, Repr

/-- The block has no fault: a transport error ends the command with a response and the unit goes on (R116, R118), an
illegal packet is answered (R113), a stalled transaction is no fault (R140), and the block never halts (R133). So no
constructor, and no step ends in a fault. -/
inductive Fault where
deriving DecidableEq, Repr

/-- Why a step can have no meaning. -/
inductive Refusal where
  /-- raised by exec's arm of an instruction that has no meaning yet; safe -/
  | notModelled (mnemonic : String)
  /-- raised by a unit's turn when the two units share a bus and the host has not serialised them: the spec gives such a
  run no meaning (R137, U9); safe -/
  | busNotSerialised
deriving DecidableEq, Repr

/-- No flag set (R26). -/
def Flags.none : Flags := { terr := false, unk := false, badline := false, ill := false }

/-- No warning raised. -/
def Warn.none : Warn := { unkCfg := false, badLine := false }

/-- The control part right after reset (R26), with the packets that stand on the port. -/
def Ctl.reset (port : List (List Byte)) : Ctl :=
  { phase := .idle, upc := 0, flags := Flags.none, warn := Warn.none, trace := [], responses := [], port := port }

/-- DESIGN CHOICE: the MSD's working registers, to which the spec gives no reset value (R26), are zero at reset (log entry
2, unsafe). -/
def MsdRegs.reset : MsdRegs := { opa := 0, hi := 0, lo := 0, w := 0, v0 := 0, v1 := 0, v2 := 0, rng := 0 }

/-- DESIGN CHOICE: the CDS's working registers, to which the spec gives no reset value (R26), are zero at reset (log entry
2, unsafe). -/
def CdsRegs.reset (maxText : Nat) : CdsRegs :=
  { cmd := 0, mode := 0, nib := 0, half := 0, line := 0, len := 0, idx := 0, txt := List.replicate maxText 0 }

/-- The MSD right after reset (R26, R135): the boot action is due if `AUTO_WAKE`. -/
def Msd.reset (params : MsdParams) (port : List (List Byte)) (replies : List Reply) : Msd :=
  { params := params, bootDue := params.autoWake, ctl := Ctl.reset port, regs := MsdRegs.reset
    replies := replies }

/-- The CDS right after reset (R26); it has no boot action (R135). -/
def Cds.reset (params : CdsParams) (port : List (List Byte)) (acks : List Ack) (delays : Nat) : Cds :=
  { params := params, ctl := Ctl.reset port, regs := CdsRegs.reset params.maxText, acks := acks, delays := delays }

/-- The machine right after the reset of both units, at the default parameters (R4, R26), with nothing presented, nothing
answered and no move scheduled. -/
def State.reset : State :=
  { msd := Msd.reset Config.msdDefaults [] []
    cds := Cds.reset Config.cdsDefaults [] [] 0
    schedule := [] }

end Sys2Proof.Machine
end

