-- ==== Sys2Proof/Machine/Tables.lean ====
section
/-! DEFINITION. Machine/Tables.lean: the bit-exact constants (spec 20_memory.md rules R40, R41; 30_encoding.md rules R57,
R58, R66) and the constant tables of the units (R24; 41_msd_decode_scale.md rules R84 to R88; 42_cds_sequencer.md rule
R101). -/

namespace Sys2Proof.Machine

/-! Register numbers (R40). Each word register is the high byte of a pair with the next number. -/

def gyroConfig : Byte := 0x1B
def accelConfig : Byte := 0x1C
def accelXout : Byte := 0x3B
def accelYout : Byte := 0x3D
def accelZout : Byte := 0x3F
def tempOut : Byte := 0x41
def gyroXout : Byte := 0x43
def gyroYout : Byte := 0x45
def gyroZout : Byte := 0x47
def pwrMgmt1 : Byte := 0x6B

/-! Range codes (R41). -/

def accelRange2G : Byte := 0x00
def accelRange4G : Byte := 0x08
def accelRange8G : Byte := 0x10
def accelRange16G : Byte := 0x18
def gyroRange250 : Byte := 0x00
def gyroRange500 : Byte := 0x08
def gyroRange1000 : Byte := 0x10
def gyroRange2000 : Byte := 0x18

/-! Expander bit masks (R57) and mode bytes (R66). -/

def registerSelect : Byte := 0x01
def readWrite : Byte := 0x02
def enable : Byte := 0x04
def backlight : Byte := 0x08
def modeCommand : Byte := 0x00
def modeData : Byte := 0x01

/-! LCD command bytes (R58). -/

def clearDisplay : Byte := 0x01
def returnHome : Byte := 0x02
def entryModeSet : Byte := 0x04
def displayControl : Byte := 0x08
def cursorShift : Byte := 0x10
def functionSet : Byte := 0x20
def setCgramAddr : Byte := 0x40
def setDdramAddr : Byte := 0x80

/-- `accelRange` (R84): the whole byte is compared; -1 is the unknown sentinel. -/
def accelRange (raw : Byte) : Int :=
  if raw = accelRange2G then 2
  else if raw = accelRange4G then 4
  else if raw = accelRange8G then 8
  else if raw = accelRange16G then 16
  else -1

/-- `gyroRange` (R84). -/
def gyroRange (raw : Byte) : Int :=
  if raw = gyroRange250 then 250
  else if raw = gyroRange500 then 500
  else if raw = gyroRange1000 then 1000
  else if raw = gyroRange2000 then 2000
  else -1

/-- `accelScale` (R85): the modifier in counts per g, and whether the fallback was taken. -/
def accelScale (raw : Byte) : Rat × Bool :=
  if raw = accelRange2G then (16384, false)
  else if raw = accelRange4G then (8192, false)
  else if raw = accelRange8G then (4096, false)
  else if raw = accelRange16G then (2048, false)
  else (16384, true)

/-- `gyroScale` (R86): the modifier in counts per degree per second, and whether the fallback was taken. -/
def gyroScale (raw : Byte) : Rat × Bool :=
  if raw = gyroRange250 then (131, false)
  else if raw = gyroRange500 then (131 / 2, false)
  else if raw = gyroRange1000 then (164 / 5, false)
  else if raw = gyroRange2000 then (82 / 5, false)
  else (131, true)

/-- Standard gravity, 9.80665 m/s² per g (R88). -/
def standardGravity : Rat := 196133 / 20000

/-- The temperature offset, 36.53 degrees Celsius (R87). -/
def tempOffset : Rat := 3653 / 100

/-- The temperature divisor (R87). -/
def tempDivisor : Int := 340

/-- `lineAddr` (R101), with `LINE1_ADDR = line1`: the address byte, sent as it stands, and whether the fallback was
taken. -/
def lineAddr (line1 line : Byte) : Byte × Bool :=
  if line = 1 then (line1, false)
  else if line = 2 then (0xC0, false)
  else if line = 3 then (0x94, false)
  else if line = 4 then (0xD4, false)
  else (line1, true)

end Sys2Proof.Machine
end

