-- ==== Sys2Proof/Machine/Num.lean ====
section
/-! DEFINITION. Machine/Num.lean: the numeric domain of the MSD (spec 41_msd_decode_scale.md rules R83, R87, R92, R93):
the rounding of an exact rational to a binary format, its IEEE 754 bits, and the scaling formulas. -/

namespace Sys2Proof.Machine

/-- A binary floating-point format: bits of precision and of exponent. -/
structure BinFmt where
  prec : Nat
  ebits : Nat
deriving DecidableEq, Repr

def binary32 : BinFmt := { prec := 24, ebits := 8 }
def binary64 : BinFmt := { prec := 53, ebits := 11 }

/-- The exponent bias. -/
def BinFmt.bias (f : BinFmt) : Nat := 2 ^ (f.ebits - 1) - 1

/-- The least exponent of a normal number. -/
def BinFmt.emin (f : BinFmt) : Int := 1 - (f.bias : Int)

/-- `2 ^ e ≤ n / d`, without fractions. -/
def pow2Le (e : Int) (n d : Nat) : Bool :=
  if 0 ≤ e then d * 2 ^ e.toNat ≤ n else d ≤ n * 2 ^ (-e).toNat

/-- The greatest `e` with `2 ^ e ≤ n / d`, for positive `n` and `d`. -/
def floorLog2 (n d : Nat) : Int :=
  let e : Int := (Nat.log2 n : Int) - (Nat.log2 d : Int)
  if pow2Le e n d then e else e - 1

/-- The exponent of the last place of `n / d` in format `f`. -/
def BinFmt.quantum (f : BinFmt) (n d : Nat) : Int :=
  max (floorLog2 n d) f.emin - ((f.prec : Int) - 1)

/-- `n / d` rounded to the nearest natural number, ties to even. -/
def divNearestEven (n d : Nat) : Nat :=
  let q := n / d
  let r := n % d
  if 2 * r < d then q
  else if d < 2 * r then q + 1
  else q + q % 2

/-- The significand of `n / d` in format `f`, as a multiple of the last place. -/
def BinFmt.significand (f : BinFmt) (n d : Nat) : Nat :=
  let e := f.quantum n d
  if 0 ≤ e then divNearestEven n (d * 2 ^ e.toNat) else divNearestEven (n * 2 ^ (-e).toNat) d

/-- The non-negative rational `m * 2 ^ e`. -/
def scaleByPow2 (m : Nat) (e : Int) : Rat :=
  if 0 ≤ e then ((m * 2 ^ e.toNat : Nat) : Rat) else mkRat m (2 ^ (-e).toNat)

/-- `q` rounded to format `f`, to nearest, ties to even (R83). -/
def BinFmt.round (f : BinFmt) (q : Rat) : Rat :=
  let n := q.num.natAbs
  if n = 0 then 0
  else
    let r := scaleByPow2 (f.significand n q.den) (f.quantum n q.den)
    if q.num < 0 then -r else r

/-- The IEEE 754 bits of `q` rounded to format `f`; zero is the positive zero. A significand that rounds up to the next
power of two carries into the exponent field by itself. -/
def BinFmt.bits (f : BinFmt) (q : Rat) : Nat :=
  let n := q.num.natAbs
  if n = 0 then 0
  else
    let e := f.quantum n q.den
    let field := (e + ((f.prec : Int) - 1) - f.emin).toNat
    let sign := if q.num < 0 then 2 ^ (f.ebits + f.prec - 1) else 0
    sign + field * 2 ^ (f.prec - 1) + f.significand n q.den

/-- The low `k` bytes of `n`, the most significant first. -/
def bytesOfNat : Nat → Nat → List Byte
  | 0, _ => []
  | k + 1, n => BitVec.ofNat 8 (n >>> (8 * k)) :: bytesOfNat k n

/-- One rounding under `FLOAT_FMT` (R83): none with `exact`. -/
def roundTo (fmt : FloatFmt) (q : Rat) : Rat :=
  match fmt with
  | .exact => q
  | .binary32 => binary32.round q
  | .binary64 => binary64.round q

/-- A `num` as the response carries it under `FLOAT_FMT` (R56). -/
def NumValue.ofRat (fmt : FloatFmt) (q : Rat) : NumValue :=
  match fmt with
  | .exact => .exact q
  | .binary32 => .image (bytesOfNat 4 (binary32.bits q))
  | .binary64 => .image (bytesOfNat 8 (binary64.bits q))

/-- `temp(raw)` (R87): with `trunc` an integer division rounded toward zero and one rounded addition, with `real` a
rounded division and a rounded addition; the constant is rounded first (R83). -/
def temperature (div : TempDiv) (fmt : FloatFmt) (raw : Int) : Rat :=
  match div with
  | .trunc => roundTo fmt ((Int.tdiv raw tempDivisor : Int) + roundTo fmt tempOffset)
  | .real => roundTo fmt (roundTo fmt ((raw : Rat) / roundTo fmt (tempDivisor : Int)) + roundTo fmt tempOffset)

/-- One axis divided by a modifier (R92, R93): `x[V_i] / m`. -/
def divideAxis (fmt : FloatFmt) (modifier : Rat) (raw : Int) : Rat :=
  roundTo fmt ((raw : Rat) / roundTo fmt modifier)

/-- One accelerometer axis (R92): in multiples of g, or multiplied by standard gravity (R88) when the flag `g` is 0. -/
def accelAxis (fmt : FloatFmt) (inG : Bool) (modifier : Rat) (raw : Int) : Rat :=
  if inG then divideAxis fmt modifier raw
  else roundTo fmt (divideAxis fmt modifier raw * roundTo fmt standardGravity)

end Sys2Proof.Machine
end

