-- ==== Sys2Proof/Machine/Flags.lean ====
section
/-! DEFINITION. Machine/Flags.lean: the STATUS register (spec 10_state.md rule R18), the hardwired CTRL register (R21) and
the completion byte of a response (30_encoding.md rule R56). -/

namespace Sys2Proof.Machine

/-- The completion codes (R56). -/
inductive Code where
  | ok
  | transportError
  | illegalCommand
deriving DecidableEq, Repr

/-- The field `CODE` (R56). -/
def Code.bits : Code → Byte
  | .ok => 0
  | .transportError => 1
  | .illegalCommand => 2

/-- `mask` if the bit is set, else zero. -/
def flagBit (b : Bool) (mask : Byte) : Byte := if b then mask else 0x00

/-- The completion byte (R56): `CODE` in bits 3:0, `UNK_CFG` bit 4, `BAD_LINE` bit 5, bits 7:6 zero. -/
def completionByte (code : Code) (warn : Warn) : Byte :=
  code.bits ||| flagBit warn.unkCfg 0x10 ||| flagBit warn.badLine 0x20

/-- BUSY: a command or the boot action is in progress (R12, R140). -/
def Ctl.isBusy (c : Ctl) : Bool :=
  match c.phase with
  | .idle => false
  | .booting => true
  | .busy _ => true

/-- `STATUS` as the host reads it (R18): bit 0 `BUSY`, 1 `TERR`, 2 `UNK`, 3 `BADLINE`, 4 `ILL`, bits 7:5 zero. -/
def Ctl.status (c : Ctl) : Byte :=
  flagBit c.isBusy 0x01 ||| flagBit c.flags.terr 0x02 ||| flagBit c.flags.unk 0x04 |||
    flagBit c.flags.badline 0x08 ||| flagBit c.flags.ill 0x10

/-- The status port of a unit (R11): always readable, no side effect. -/
def State.status (s : State) : UnitId → Byte
  | .msd => s.msd.ctl.status
  | .cds => s.cds.ctl.status

/-- `CTRL` (R21): `BL`, bit 3, is hardwired 1, every other bit 0. -/
def Cds.ctrl (_c : Cds) : Byte := 0x08

/-- Bit `k` of a completion byte or a status register. -/
def bitOf (b : Byte) (k : Nat) : Bool := b.getLsbD k

end Sys2Proof.Machine
end

