-- ==== Sys2Proof/Machine/Operands.lean ====
section
/-! DEFINITION. Machine/Operands.lean: the operand functions of both units: word assembly and sign (spec
41_msd_decode_scale.md rules R80, R81), the bytes of a 16-bit payload (R56), the nibble split (R59) and the three
written forms of a nibbleByte (R96). -/

namespace Sys2Proof.Machine

/-- `asm16(hi, lo)` (R80): `(hi << 8) | lo` in 16 bits. -/
def asm16 (hi lo : Byte) : Word := (hi.setWidth 16 <<< 8) ||| lo.setWidth 16

/-- `s16(v)` (R81): the two's-complement reinterpretation. -/
def s16 (v : Word) : Int := if v.toNat < 32768 then (v.toNat : Int) else (v.toNat : Int) - 65536

/-- A 16-bit value as two bytes, the high byte first (R35, R56). -/
def bytesOfWord (w : Word) : List Byte := [w.extractLsb' 8 8, w.extractLsb' 0 8]

/-- An `s16` as two bytes, two's complement, the high byte first (R56). -/
def bytesOfS16 (v : Int) : List Byte := bytesOfWord (BitVec.ofInt 16 v)

/-- A `u16` as two bytes, the high byte first (R56). -/
def bytesOfU16 (n : Nat) : List Byte := bytesOfWord (BitVec.ofNat 16 n)

/-- The high nibbleByte of `cmd` (R59). -/
def highNibble (cmd mode : Byte) : Byte := (cmd &&& 0xF0) ||| mode

/-- The low nibbleByte of `cmd` (R59). -/
def lowNibble (cmd mode : Byte) : Byte := ((cmd <<< 4) &&& 0xF0) ||| mode

/-- The three forms in which a nibbleByte is written (R96). -/
inductive Form where
  | settle
  | high
  | low
deriving DecidableEq, Repr

/-- The byte a form writes for the nibbleByte `n` (R96): `n | BACKLIGHT`, `n | ENABLE | BACKLIGHT`,
`(n & ~ENABLE) | BACKLIGHT`. -/
def Form.byte (n : Byte) : Form → Byte
  | .settle => n ||| backlight
  | .high => n ||| enable ||| backlight
  | .low => (n &&& ~~~enable) ||| backlight

/-- The three decoded axis registers (R13). -/
inductive Axis where
  | v0
  | v1
  | v2
deriving DecidableEq, Repr

/-- Write of a decoded axis register. -/
def MsdRegs.setAxis (r : MsdRegs) (d : Axis) (v : Int) : MsdRegs :=
  match d with
  | .v0 => { r with v0 := v }
  | .v1 => { r with v1 := v }
  | .v2 => { r with v2 := v }

/-- The flag `g = x[OPA][0]`, `inGravityUnits` (R54, R92). -/
def MsdRegs.inGravityUnits (r : MsdRegs) : Bool := r.opa.getLsbD 0

/-- What a write transaction sends: a constant, or `x[OPA]`. -/
inductive MsdSource where
  | const (v : Byte)
  | opa
deriving DecidableEq, Repr

/-- The byte of a source. -/
def MsdRegs.source (r : MsdRegs) : MsdSource → Byte
  | .const v => v
  | .opa => r.opa

/-- The register transfers of the CDS between its micro-operations (R99, R100). -/
inductive CdsLoad where
  /-- `x[CMD] <- cmd ; x[MODE] <- mode` -/
  | byte (cmd mode : Byte)
  /-- `x[CMD] <- lineAddr(x[LINE]) ; x[MODE] <- 0x00` -/
  | lineAddress
  /-- `x[IDX] <- k ; x[CMD] <- x[TXT][x[IDX]] ; x[MODE] <- 0x01` -/
  | textByte (k : Nat)
  /-- `x[HALF] <- 0 ; x[NIB] <- ` the high nibbleByte -/
  | highHalf
  /-- `x[HALF] <- 1 ; x[NIB] <- ` the low nibbleByte -/
  | lowHalf
deriving DecidableEq, Repr

/-- One register transfer, with `LINE1_ADDR = line1`. -/
def CdsRegs.load (line1 : Byte) (r : CdsRegs) (l : CdsLoad) : CdsRegs :=
  match l with
  | .byte cmd mode => { r with cmd := cmd, mode := mode }
  | .lineAddress => { r with cmd := (lineAddr line1 r.line).1, mode := modeCommand }
  | .textByte k => { r with idx := k, cmd := r.txt.getD k 0x00, mode := modeData }
  | .highHalf => { r with half := 0, nib := highNibble r.cmd r.mode }
  | .lowHalf => { r with half := 1, nib := lowNibble r.cmd r.mode }

/-- Register transfers in order. -/
def CdsRegs.loads (line1 : Byte) (r : CdsRegs) (ls : List CdsLoad) : CdsRegs := ls.foldl (CdsRegs.load line1) r

end Sys2Proof.Machine
end

