-- ==== Sys2Proof/Machine/Ops.lean ====
section
/-! DEFINITION. Machine/Ops.lean: the shared operations of both sequencers: accepting a command, logging an event,
responding, the abort on a transport error and the refusal of an illegal packet (spec 60_exceptions.md rules R111 to
R118, the block's exceptions), one micro-operation of each unit (00_scope.md rule R7), and running a list of them. -/

namespace Sys2Proof.Machine

/-! ## The control part -/

/-- Accepting a command (R12, R16): the unit is BUSY, `upc` is 0 and no warning is raised. -/
def Ctl.accept (c : Ctl) (i : Instr) : Ctl := { c with phase := .busy i, upc := 0, warn := Warn.none }

/-- One more event at the end of the trace (R8). -/
def Ctl.log (c : Ctl) (e : Event) : Ctl := { c with trace := c.trace ++ [e] }

/-- A micro-operation completed without error: `upc` is one more (R7, R16). -/
def Ctl.advance (c : Ctl) : Ctl := { c with upc := c.upc + 1 }

/-- `respond(code, payload)` (R7, R56): the response is delivered with the warnings raised, and the unit is IDLE with
`upc` 0 (R12, R16). -/
def Ctl.respond (c : Ctl) (code : Code) (payload : Payload) : Ctl :=
  { c with
    phase := .idle, upc := 0, warn := Warn.none
    responses := c.responses ++ [{ completion := completionByte code c.warn, payload := payload }] }

/-- `raise TransportError(upc)` (R116): `TERR` is set and the failing index is the payload. -/
def Ctl.abort (c : Ctl) : Ctl :=
  { c with flags := { c.flags with terr := true } }.respond .transportError (.bytes (bytesOfU16 c.upc))

/-- `raise IllegalCommand` (R113): `ILL` is set, no payload; nothing else happens. The packet raised no warning. -/
def Ctl.illegal (c : Ctl) : Ctl :=
  { c with warn := Warn.none, flags := { c.flags with ill := true } }.respond .illegalCommand (.bytes [])

/-- `warn UNK_CFG` (R111): the response bit and the sticky flag. -/
def Ctl.warnUnkCfg (c : Ctl) : Ctl :=
  { c with warn := { c.warn with unkCfg := true }, flags := { c.flags with unk := true } }

/-- `warn BAD_LINE` (R112): the response bit and the sticky flag. -/
def Ctl.warnBadLine (c : Ctl) : Ctl :=
  { c with warn := { c.warn with badLine := true }, flags := { c.flags with badline := true } }

/-- What became of a micro-operation that was issued. -/
inductive Verdict where
  /-- no answer yet: the unit waits (R140) -/
  | waiting
  /-- the transport answered `error` -/
  | failed
  /-- it completed -/
  | done
deriving DecidableEq, Repr

/-! ## The MSD -/

/-- The micro-operations of the MSD, each with what becomes of the byte read (R71, R74, R76). -/
inductive MsdMicro where
  /-- `x[HI] <- MemRead(reg, 1)` -/
  | readHi (reg : Byte)
  /-- `x[LO] <- MemRead(reg, 1)`, then `x[W] <- asm16` and `x[dst] <- s16(x[W])` -/
  | readLo (reg : Byte) (dst : Axis)
  /-- `x[RNG] <- MemRead(reg, 1)` -/
  | readRng (reg : Byte)
  /-- `MemWrite(reg, 1, src)` -/
  | write (reg : Byte) (src : MsdSource)
deriving DecidableEq, Repr

/-- The event of a micro-operation answered `ok b`. -/
def MsdRegs.okEvent (r : MsdRegs) (op : MsdMicro) (b : Byte) : Event :=
  match op with
  | .readHi reg => .rd reg b
  | .readLo reg _ => .rd reg b
  | .readRng reg => .rd reg b
  | .write reg src => .wr reg (r.source src)

/-- The event of a micro-operation answered `error`. -/
def MsdRegs.errEvent (r : MsdRegs) (op : MsdMicro) : Event :=
  match op with
  | .readHi reg => .rdErr reg
  | .readLo reg _ => .rdErr reg
  | .readRng reg => .rdErr reg
  | .write reg src => .wrErr reg (r.source src)

/-- The working registers after the byte `b` was read (R71): a write changes none. -/
def MsdRegs.latch (r : MsdRegs) (op : MsdMicro) (b : Byte) : MsdRegs :=
  match op with
  | .readHi _ => { r with hi := b }
  | .readLo _ dst => { r with lo := b, w := asm16 r.hi b }.setAxis dst (s16 (asm16 r.hi b))
  | .readRng _ => { r with rng := b }
  | .write _ _ => r

/-- One micro-operation of the MSD is issued and takes the next answer of the transport (R43, R47). -/
def Msd.issue (m : Msd) (op : MsdMicro) : Verdict × Msd :=
  match m.replies with
  | [] => (.waiting, m)
  | .error :: rs => (.failed, { m with replies := rs, ctl := m.ctl.log (m.regs.errEvent op) })
  | .ok b :: rs =>
    (.done, { m with replies := rs, ctl := m.ctl.log (m.regs.okEvent op b), regs := m.regs.latch op b })

/-- What an MSD command is: the capture of its operand at acceptance (R46), its micro-operations in list order (R17), and
what it answers after the last one, from the parameters and the registers: whether UNK_CFG is raised (R111), and the
payload. -/
structure MsdCommand where
  capture : MsdRegs → MsdRegs
  ops : List MsdMicro
  answer : MsdParams → MsdRegs → Bool × Payload

/-- After the last micro-operation the command responds OK, with its warning (R70 (e), R111). -/
def Msd.finish (m : Msd) (answer : Bool × Payload) : Msd :=
  { m with ctl := (if answer.1 then m.ctl.warnUnkCfg else m.ctl).respond .ok answer.2 }

/-- The command in progress aborts at `upc` (R116). -/
def Msd.abort (m : Msd) : Msd := { m with ctl := m.ctl.abort }

/-- A packet is refused (R113). -/
def Msd.illegal (m : Msd) : Msd := { m with ctl := m.ctl.illegal }

/-- `upc` is one more. -/
def Msd.advance (m : Msd) : Msd := { m with ctl := m.ctl.advance }

/-- The micro-operations `ops` are issued in order, each after the answer to the one before (R17, R43): the run ends with
the response OK, at the first `error` with the abort (R116), or, when an answer is missing, with the unit still BUSY
(R140). -/
def Msd.run (answer : MsdParams → MsdRegs → Bool × Payload) : List MsdMicro → Msd → Msd
  | [], m => m.finish (answer m.params m.regs)
  | op :: ops, m =>
    match m.issue op with
    | (.waiting, m') => m'
    | (.failed, m') => m'.abort
    | (.done, m') => Msd.run answer ops m'.advance

/-- A command is accepted, its operand captured (R46), and it is run as far as the answers go. -/
def Msd.start (m : Msd) (i : Instr) (c : MsdCommand) : Msd :=
  Msd.run c.answer c.ops { m with ctl := m.ctl.accept i, regs := c.capture m.regs }

/-- The command in progress goes on from `upc` as far as the answers go. -/
def Msd.resume (m : Msd) (c : MsdCommand) : Msd := Msd.run c.answer (c.ops.drop m.ctl.upc) m

/-! ## The CDS -/

/-- What a micro-operation of the CDS asks for: a `RawWrite` of a form of `x[NIB]`, or a `Delay()`. -/
inductive CdsOut where
  | raw (f : Form)
  | delay
deriving DecidableEq, Repr

/-- A micro-operation of the CDS with the register transfers that come before it. -/
structure CdsMicro where
  loads : List CdsLoad
  out : CdsOut
deriving DecidableEq, Repr

/-- The register transfers that come before a micro-operation. -/
def Cds.prepare (c : Cds) (op : CdsMicro) : Cds := { c with regs := c.regs.loads c.params.line1Addr op.loads }

/-- One micro-operation of the CDS, its register transfers made, is issued and takes the next answer of the transport
(R32, R47) or of the delay primitive, which cannot fail (R120). -/
def Cds.issue (c : Cds) (op : CdsMicro) : Verdict × Cds :=
  match op.out with
  | .raw f =>
    match c.acks with
    | [] => (.waiting, c)
    | .error :: as => (.failed, { c with acks := as, ctl := c.ctl.log (.rawErr (f.byte c.regs.nib)) })
    | .ok :: as => (.done, { c with acks := as, ctl := c.ctl.log (.raw (f.byte c.regs.nib)) })
  | .delay =>
    match c.delays with
    | 0 => (.waiting, c)
    | n + 1 => (.done, { c with delays := n, ctl := c.ctl.log .dly })

/-- The CDS responds OK, with no payload (R95 (f)). -/
def Cds.finish (c : Cds) : Cds := { c with ctl := c.ctl.respond .ok (.bytes []) }

/-- The command in progress aborts at `upc` (R116). -/
def Cds.abort (c : Cds) : Cds := { c with ctl := c.ctl.abort }

/-- A packet is refused (R113). -/
def Cds.illegal (c : Cds) : Cds := { c with ctl := c.ctl.illegal }

/-- `upc` is one more. -/
def Cds.advance (c : Cds) : Cds := { c with ctl := c.ctl.advance }

/-- What a CDS command is: the capture of its operands at acceptance (R46), whether it warns of an invalid line then
(R112), and its micro-operations in list order (R17). Every CDS command ends with the bare response OK (R95 (f)). -/
structure CdsCommand where
  capture : CdsRegs → CdsRegs
  badLine : Bool
  ops : List CdsMicro

/-- The micro-operations `ops` are made ready and issued in order, as `Msd.run` does. -/
def Cds.run : List CdsMicro → Cds → Cds
  | [], c => c.finish
  | op :: ops, c =>
    match (c.prepare op).issue op with
    | (.waiting, c') => c'
    | (.failed, c') => c'.abort
    | (.done, c') => Cds.run ops c'.advance

/-- A command is accepted, its operands captured (R46) and an invalid line reported (R112, R115), and it is run as far as
the answers go. -/
def Cds.start (c : Cds) (i : Instr) (k : CdsCommand) : Cds :=
  Cds.run k.ops
    { c with
      ctl := if k.badLine then (c.ctl.accept i).warnBadLine else c.ctl.accept i
      regs := k.capture c.regs }

/-- The command in progress goes on from `upc` as far as the answers go. -/
def Cds.resume (c : Cds) (k : CdsCommand) : Cds := Cds.run (k.ops.drop c.ctl.upc) c

/-! ## The whole machine -/

/-- An MSD command is accepted and run. -/
def State.startMsd (s : State) (i : Instr) (c : MsdCommand) : State := { s with msd := s.msd.start i c }

/-- A CDS command is accepted and run. -/
def State.startCds (s : State) (i : Instr) (k : CdsCommand) : State := { s with cds := s.cds.start i k }

/-- A packet is refused on a unit's port (R113). -/
def State.illegal (s : State) : UnitId → State
  | .msd => { s with msd := s.msd.illegal }
  | .cds => { s with cds := s.cds.illegal }

end Sys2Proof.Machine
end

