-- ==== Sys2Proof/Machine/RegisterAccess.lean ====
section
/-! DEFINITION. Machine/RegisterAccess.lean: the MSD register-access commands (spec 40_msd_register_access.md rules R70
to R77). -/

namespace Sys2Proof.Machine

/-- `readWord(reg)` into an axis register (R71): the high byte at `reg`, then the low byte at `reg + 1`. -/
def readWordOps (reg : Byte) (dst : Axis) : List MsdMicro := [.readHi reg, .readLo (reg + 1) dst]

/-- The two-step write of a config register (R76, R77): zero, then the requested byte; always both (R138). -/
def setRangeOps (reg : Byte) : List MsdMicro := [.write reg (.const 0x00), .write reg .opa]

/-- The capture of a one-byte operand. -/
def captureOpa (a : Byte) (r : MsdRegs) : MsdRegs := { r with opa := a }

/-- The bare answer OK: no warning, no payload. -/
def noPayload : MsdParams → MsdRegs → Bool × Payload := fun _ _ => (false, .bytes [])

/-- The write of zero to power-management-1, also the boot action (R72, R135). -/
def wakeWrite : MsdMicro := .write pwrMgmt1 (.const 0x00)

/-- `WAKE` (R72): one micro-operation. -/
def wakeCommand : MsdCommand :=
  { capture := id
    ops := [wakeWrite]
    answer := noPayload }

/-- `READ_WORD a` (R73). -/
def readWordCommand (a : Byte) : MsdCommand :=
  { capture := captureOpa a
    ops := readWordOps a .v0
    answer := fun _ r => (false, .bytes (bytesOfS16 r.v0)) }

/-- `READ_RAW_ACCEL_RANGE` (R74): the byte is returned as read. -/
def readRawAccelRangeCommand : MsdCommand :=
  { capture := id
    ops := [.readRng accelConfig]
    answer := fun _ r => (false, .bytes [r.rng]) }

/-- `READ_RAW_GYRO_RANGE` (R75): the byte is returned as read. -/
def readRawGyroRangeCommand : MsdCommand :=
  { capture := id
    ops := [.readRng gyroConfig]
    answer := fun _ r => (false, .bytes [r.rng]) }

/-- `SET_ACCEL_RANGE a` (R76). -/
def setAccelRangeCommand (a : Byte) : MsdCommand :=
  { capture := captureOpa a
    ops := setRangeOps accelConfig
    answer := noPayload }

/-- `SET_GYRO_RANGE a` (R77). -/
def setGyroRangeCommand (a : Byte) : MsdCommand :=
  { capture := captureOpa a
    ops := setRangeOps gyroConfig
    answer := noPayload }

/-- The meaning of `WAKE` (R72). -/
def execWake (s : State) : Host.Outcome State Fault Refusal :=
  .next (s.startMsd .wake wakeCommand)

/-- The meaning of `READ_WORD a` (R73): `a = 0xFF` raises IllegalCommand. -/
def execReadWord (a : Byte) (s : State) : Host.Outcome State Fault Refusal :=
  if a = 0xFF then .next (s.illegal .msd)
  else .next (s.startMsd (.readWord a) (readWordCommand a))

/-- The meaning of `READ_RAW_ACCEL_RANGE` (R74). -/
def execReadRawAccelRange (s : State) : Host.Outcome State Fault Refusal :=
  .next (s.startMsd .readRawAccelRange readRawAccelRangeCommand)

/-- The meaning of `READ_RAW_GYRO_RANGE` (R75). -/
def execReadRawGyroRange (s : State) : Host.Outcome State Fault Refusal :=
  .next (s.startMsd .readRawGyroRange readRawGyroRangeCommand)

/-- The meaning of `SET_ACCEL_RANGE a` (R76). -/
def execSetAccelRange (a : Byte) (s : State) : Host.Outcome State Fault Refusal :=
  .next (s.startMsd (.setAccelRange a) (setAccelRangeCommand a))

/-- The meaning of `SET_GYRO_RANGE a` (R77). -/
def execSetGyroRange (a : Byte) (s : State) : Host.Outcome State Fault Refusal :=
  .next (s.startMsd (.setGyroRange a) (setGyroRangeCommand a))

end Sys2Proof.Machine
end

