-- ==== Sys2Proof/Machine/DecodeScale.lean ====
section
/-! DEFINITION. Machine/DecodeScale.lean: the MSD decode and scale commands (spec 41_msd_decode_scale.md rules R89 to
R93). -/

namespace Sys2Proof.Machine

/-- The three axis words X, Y, Z and then the range byte (R92, R93). -/
def dataFetchOps (x y z config : Byte) : List MsdMicro :=
  readWordOps x .v0 ++ readWordOps y .v1 ++ readWordOps z .v2 ++ [.readRng config]

/-- The answer of a data fetch (R92, R93): UNK_CFG if the fallback was taken (R111), and `x, y, z`, each scaled by
`axis`. -/
def axesAnswer (fallback : Bool) (axis : Int → Rat) (p : MsdParams) (r : MsdRegs) : Bool × Payload :=
  (fallback, .nums ([axis r.v0, axis r.v1, axis r.v2].map (NumValue.ofRat p.floatFmt)))

/-- `READ_TEMP` (R91). -/
def readTempCommand : MsdCommand :=
  { capture := id
    ops := readWordOps tempOut .v0
    answer := fun p r =>
      (false, .nums [NumValue.ofRat p.floatFmt (temperature p.tempDiv p.floatFmt r.v0)]) }

/-- `DECODE_ACCEL_RANGE a` (R89): no micro-operation and no warning. -/
def decodeAccelRangeCommand (a : Byte) : MsdCommand :=
  { capture := captureOpa a
    ops := []
    answer := fun _ r => (false, .bytes (bytesOfS16 (accelRange r.opa))) }

/-- `DECODE_GYRO_RANGE a` (R90): no micro-operation and no warning. -/
def decodeGyroRangeCommand (a : Byte) : MsdCommand :=
  { capture := captureOpa a
    ops := []
    answer := fun _ r => (false, .bytes (bytesOfS16 (gyroRange r.opa))) }

/-- `GET_ACCEL_DATA a` (R92): the range used is the byte this command read into `x[RNG]` (R23). -/
def getAccelDataCommand (a : Byte) : MsdCommand :=
  { capture := captureOpa a
    ops := dataFetchOps accelXout accelYout accelZout accelConfig
    answer := fun p r =>
      axesAnswer (accelScale r.rng).2 (accelAxis p.floatFmt r.inGravityUnits (accelScale r.rng).1) p r }

/-- `GET_GYRO_DATA` (R93). -/
def getGyroDataCommand : MsdCommand :=
  { capture := id
    ops := dataFetchOps gyroXout gyroYout gyroZout gyroConfig
    answer := fun p r => axesAnswer (gyroScale r.rng).2 (divideAxis p.floatFmt (gyroScale r.rng).1) p r }

/-- The meaning of `READ_TEMP` (R91). -/
def execReadTemp (s : State) : Host.Outcome State Fault Refusal :=
  .next (s.startMsd .readTemp readTempCommand)

/-- The meaning of `DECODE_ACCEL_RANGE a` (R89). -/
def execDecodeAccelRange (a : Byte) (s : State) : Host.Outcome State Fault Refusal :=
  .next (s.startMsd (.decodeAccelRange a) (decodeAccelRangeCommand a))

/-- The meaning of `DECODE_GYRO_RANGE a` (R90). -/
def execDecodeGyroRange (a : Byte) (s : State) : Host.Outcome State Fault Refusal :=
  .next (s.startMsd (.decodeGyroRange a) (decodeGyroRangeCommand a))

/-- The meaning of `GET_ACCEL_DATA a` (R92): a reserved flag bit raises IllegalCommand. -/
def execGetAccelData (a : Byte) (s : State) : Host.Outcome State Fault Refusal :=
  if a &&& 0xFE = 0x00 then .next (s.startMsd (.getAccelData a) (getAccelDataCommand a))
  else .next (s.illegal .msd)

/-- The meaning of `GET_GYRO_DATA` (R93). -/
def execGetGyroData (s : State) : Host.Outcome State Fault Refusal :=
  .next (s.startMsd .getGyroData getGyroDataCommand)

end Sys2Proof.Machine
end

