-- ==== Sys2Proof/Machine/Sequencer.lean ====
section
/-! DEFINITION. Machine/Sequencer.lean: the CDS strobe-sequencer commands (spec 42_cds_sequencer.md rules R95 to
R102). -/

namespace Sys2Proof.Machine

/-- A `RawWrite` of a form of `x[NIB]` and the `Delay()` after it. -/
def writeForm (loads : List CdsLoad) (f : Form) : List CdsMicro :=
  [{ loads := loads, out := .raw f }, { loads := [], out := .delay }]

/-- `strobe(x[NIB])` (R97). -/
def strobeOps : List CdsMicro := writeForm [] .high ++ writeForm [] .low

/-- `write4Bits(x[NIB])` (R98), after the register transfers `loads`. -/
def write4BitsOps (loads : List CdsLoad) : List CdsMicro := writeForm loads .settle ++ strobeOps

/-- `sendByte(cmd, mode)` (R99), after the transfer `src` that sets `x[CMD]` and `x[MODE]`: the high half, then the low
half. -/
def sendByteOps (src : CdsLoad) : List CdsMicro :=
  write4BitsOps [src, .highHalf] ++ write4BitsOps [.lowHalf]

/-- `x[NIB] <- a`. -/
def captureNib (a : Byte) (r : CdsRegs) : CdsRegs := { r with nib := a }

/-- `STROBE a` (R97). -/
def strobeCommand (a : Byte) : CdsCommand := { capture := captureNib a, badLine := false, ops := strobeOps }

/-- `WRITE4BITS a` (R98). -/
def write4BitsCommand (a : Byte) : CdsCommand :=
  { capture := captureNib a, badLine := false, ops := write4BitsOps [] }

/-- `SEND_BYTE a, b` (R99). -/
def sendByteCommand (a b : Byte) : CdsCommand :=
  { capture := fun r => { r with cmd := a, mode := b }, badLine := false, ops := sendByteOps (.byte a b) }

/-- The capture of `WRITE_STRING` (R46, R100): `LINE`, `LEN` and the first `n` bytes of `TXT`; `IDX` starts at 0 (log entry
19). -/
def captureString (line : Byte) (text : List Byte) (r : CdsRegs) : CdsRegs :=
  { r with line := line, len := BitVec.ofNat 8 text.length, idx := 0, txt := text ++ r.txt.drop text.length }

/-- `WRITE_STRING text, line` (R100, R112): the address byte as a command, then every text byte as data, in ascending
order; whether the line falls back does not depend on `LINE1_ADDR` (R101). -/
def writeStringCommand (line : Byte) (text : List Byte) : CdsCommand :=
  { capture := captureString line text
    badLine := (lineAddr 0x00 line).2
    ops := sendByteOps .lineAddress ++ (List.range text.length).flatMap fun k => sendByteOps (.textByte k) }

/-- `CLEAR` (R102): CLEARDISPLAY, then RETURNHOME, both as commands. -/
def clearCommand : CdsCommand :=
  { capture := id
    badLine := false
    ops := sendByteOps (.byte clearDisplay modeCommand) ++ sendByteOps (.byte returnHome modeCommand) }

/-- The meaning of `STROBE a` (R97). -/
def execStrobe (a : Byte) (s : State) : Host.Outcome State Fault Refusal :=
  .next (s.startCds (.strobe a) (strobeCommand a))

/-- The meaning of `WRITE4BITS a` (R98). -/
def execWrite4Bits (a : Byte) (s : State) : Host.Outcome State Fault Refusal :=
  .next (s.startCds (.write4Bits a) (write4BitsCommand a))

/-- The meaning of `SEND_BYTE a, b` (R99). -/
def execSendByte (a b : Byte) (s : State) : Host.Outcome State Fault Refusal :=
  .next (s.startCds (.sendByte a b) (sendByteCommand a b))

/-- The meaning of `WRITE_STRING text, line` (R100): a text longer than `MAX_TEXT`, or than the byte `n` can say, raises
IllegalCommand (R62). -/
def execWriteString (line : Byte) (text : List Byte) (s : State) : Host.Outcome State Fault Refusal :=
  if text.length ≤ s.cds.params.maxText ∧ text.length ≤ 255 then
    .next (s.startCds (.writeString line text) (writeStringCommand line text))
  else .next (s.illegal .cds)

/-- The meaning of `CLEAR` (R102). -/
def execClear (s : State) : Host.Outcome State Fault Refusal :=
  .next (s.startCds .clear clearCommand)

end Sys2Proof.Machine
end

