-- ==== Sys2Proof/Machine/Dispatch.lean ====
section
/-! DEFINITION. Machine/Dispatch.lean: exec, one arm per command of spec 30_encoding.md rule R52. -/

namespace Sys2Proof.Machine

/-- The meaning of a command that a unit has accepted. -/
def exec (i : Instr) (s : State) : Host.Outcome State Fault Refusal :=
  match i with
  -- MSD register access
  | .wake => Sys2Proof.Machine.execWake s
  | .readWord a => Sys2Proof.Machine.execReadWord a s
  | .readRawAccelRange => Sys2Proof.Machine.execReadRawAccelRange s
  | .readRawGyroRange => Sys2Proof.Machine.execReadRawGyroRange s
  | .setAccelRange a => Sys2Proof.Machine.execSetAccelRange a s
  | .setGyroRange a => Sys2Proof.Machine.execSetGyroRange a s
  -- MSD decode and scale
  | .readTemp => Sys2Proof.Machine.execReadTemp s
  | .decodeAccelRange a => Sys2Proof.Machine.execDecodeAccelRange a s
  | .decodeGyroRange a => Sys2Proof.Machine.execDecodeGyroRange a s
  | .getAccelData a => Sys2Proof.Machine.execGetAccelData a s
  | .getGyroData => Sys2Proof.Machine.execGetGyroData s
  -- CDS sequencer
  | .strobe a => Sys2Proof.Machine.execStrobe a s
  | .write4Bits a => Sys2Proof.Machine.execWrite4Bits a s
  | .sendByte a b => Sys2Proof.Machine.execSendByte a b s
  | .writeString line text => Sys2Proof.Machine.execWriteString line text s
  | .clear => Sys2Proof.Machine.execClear s

end Sys2Proof.Machine
end

