-- ==== Sys2Proof/Machine/Turn.lean ====
section
/-! DEFINITION. Machine/Turn.lean: what a unit and its environment do in one move: the boot action (spec
70_reset_and_hazards.md rule R135), accepting the next packet of the command port (R12, R61, R62), going on with a
command whose answer was late, the environment's moves (R10, R47), reset (R130, R132), and the bus discipline (R137). -/

namespace Sys2Proof.Machine

/-- The MSD command `i`; a CDS command has none. -/
def msdCommand? : Instr → Option MsdCommand
  | .wake => some wakeCommand
  | .readWord a => some (readWordCommand a)
  | .readTemp => some readTempCommand
  | .setAccelRange a => some (setAccelRangeCommand a)
  | .setGyroRange a => some (setGyroRangeCommand a)
  | .readRawAccelRange => some readRawAccelRangeCommand
  | .readRawGyroRange => some readRawGyroRangeCommand
  | .decodeAccelRange a => some (decodeAccelRangeCommand a)
  | .decodeGyroRange a => some (decodeGyroRangeCommand a)
  | .getAccelData a => some (getAccelDataCommand a)
  | .getGyroData => some getGyroDataCommand
  | .strobe _ | .write4Bits _ | .sendByte _ _ | .writeString _ _ | .clear => none

/-- The CDS command `i`; an MSD command has none. -/
def cdsCommand? : Instr → Option CdsCommand
  | .strobe a => some (strobeCommand a)
  | .write4Bits a => some (write4BitsCommand a)
  | .sendByte a b => some (sendByteCommand a b)
  | .writeString line text => some (writeStringCommand line text)
  | .clear => some clearCommand
  | .wake | .readWord _ | .readTemp | .setAccelRange _ | .setGyroRange _ | .readRawAccelRange
  | .readRawGyroRange | .decodeAccelRange _ | .decodeGyroRange _ | .getAccelData _ | .getGyroData => none

/-! ## The two units' turns -/

/-- The boot action of the MSD (R135): the write of WAKE with no response; a failure sets `TERR` and the MSD goes on. While
the write is not answered the MSD is BUSY (R140). -/
def Msd.bootTurn (m : Msd) : Msd :=
  match m.issue wakeWrite with
  | (.waiting, m') => { m' with bootDue := false, ctl := { m'.ctl with phase := .booting } }
  | (.failed, m') =>
    { m' with bootDue := false, ctl := { m'.ctl with phase := .idle, flags := { m'.ctl.flags with terr := true } } }
  | (.done, m') => { m' with bootDue := false, ctl := { m'.ctl with phase := .idle } }

/-- The MSD goes on with its command in progress. -/
def Msd.resumeTurn (m : Msd) (i : Instr) : Msd :=
  match msdCommand? i with
  | none => m
  | some c => m.resume c

/-- The CDS goes on with its command in progress. -/
def Cds.resumeTurn (c : Cds) (i : Instr) : Cds :=
  match cdsCommand? i with
  | none => c
  | some k => c.resume k

/-- The next packet of the MSD's command port is taken. -/
def Msd.takePacket (m : Msd) : Msd := { m with ctl := { m.ctl with port := m.ctl.port.tail } }

/-- The next packet of the CDS's command port is taken. -/
def Cds.takePacket (c : Cds) : Cds := { c with ctl := { c.ctl with port := c.ctl.port.tail } }

/-- The next packet of a unit's command port is taken. -/
def State.takePacket (s : State) : UnitId → State
  | .msd => { s with msd := s.msd.takePacket }
  | .cds => { s with cds := s.cds.takePacket }

/-- What a unit does with the packet it has taken: it executes the command, or refuses the packet as illegal (R113). -/
def State.execute (s : State) (u : UnitId) (packet : List Byte) : Host.Outcome State Fault Refusal :=
  match decode u s.cds.params.maxText packet with
  | .ok i => exec i s
  | .error _ => .next (s.illegal u)

/-- The MSD's turn: BUSY, it goes on with its boot action or its command; IDLE, its boot action comes first (R135), and
then it accepts the next packet, or changes nothing where there is none (R114). -/
def State.msdTurn (s : State) : Host.Outcome State Fault Refusal :=
  match s.msd.ctl.phase with
  | .booting => .next { s with msd := s.msd.bootTurn }
  | .busy i => .next { s with msd := s.msd.resumeTurn i }
  | .idle =>
    if s.msd.bootDue then .next { s with msd := s.msd.bootTurn }
    else
      match s.msd.ctl.port with
      | [] => .next s
      | packet :: _ => (s.takePacket .msd).execute .msd packet

/-- The CDS's turn: BUSY, it goes on, and IDLE, it accepts the next packet, or changes nothing where there is none. The CDS
has no boot action (R135): its phase is never `booting`. -/
def State.cdsTurn (s : State) : Host.Outcome State Fault Refusal :=
  match s.cds.ctl.phase with
  | .booting => .next s
  | .busy i => .next { s with cds := s.cds.resumeTurn i }
  | .idle =>
    match s.cds.ctl.port with
    | [] => .next s
    | packet :: _ => (s.takePacket .cds).execute .cds packet

/-! ## One user of a shared bus at a time (R137) -/

/-- The two transports are the same physical bus: the binding registers name the same bus number (log entry 7). -/
def State.sharedBus (s : State) : Bool := s.msd.params.bus == s.cds.params.bus

/-- The MSD has something to do on its turn. -/
def Msd.hasWork (m : Msd) : Bool := m.bootDue || m.ctl.isBusy || !m.ctl.port.isEmpty

/-- The CDS has something to do on its turn. -/
def Cds.hasWork (c : Cds) : Bool := c.ctl.isBusy || !c.ctl.port.isEmpty

/-- The turn of unit `u` breaks the host's duty on a shared bus (R137, D21): it does something while the other unit is
BUSY, so that two whole commands are not one after the other (log entry 27). A unit that was reset is IDLE: what it had in
flight no longer counts (R132, log entry 32). -/
def State.busClash (s : State) : UnitId → Bool
  | .msd => s.cds.ctl.isBusy && s.msd.hasWork && s.sharedBus
  | .cds => s.msd.ctl.isBusy && s.cds.hasWork && s.sharedBus

/-! ## The environment's moves and reset -/

/-- The host presents a packet: it waits behind those already on the port, neither lost nor executed early (R12). -/
def State.present (s : State) (packet : List Byte) : UnitId → State
  | .msd => { s with msd := { s.msd with ctl := { s.msd.ctl with port := s.msd.ctl.port ++ [packet] } } }
  | .cds => { s with cds := { s.cds with ctl := { s.cds.ctl with port := s.cds.ctl.port ++ [packet] } } }

/-- The MSD's transport has one more answer (R47). -/
def State.answer (s : State) (r : Reply) : State :=
  { s with msd := { s.msd with replies := s.msd.replies ++ [r] } }

/-- The CDS's transport has one more answer (R47). -/
def State.acknowledge (s : State) (a : Ack) : State := { s with cds := { s.cds with acks := s.cds.acks ++ [a] } }

/-- The delay primitive has one more answer (R120). -/
def State.delayAnswer (s : State) : State := { s with cds := { s.cds with delays := s.cds.delays + 1 } }

/-- Reset of one unit (R130, R132): its state is at the reset values, its trace is empty, and a command in progress is
discarded without a response; the other unit is unchanged. A transaction in flight is abandoned, and the model counts it
as over on the bus at once (log entry 32). What stands on the command port and what the environment has ready is the
environment's and stays (log entry 10). -/
def State.resetUnit (s : State) : UnitId → State
  | .msd => { s with msd := Msd.reset s.msd.params s.msd.ctl.port s.msd.replies }
  | .cds => { s with cds := Cds.reset s.cds.params s.cds.ctl.port s.cds.acks s.cds.delays }

/-! ## Whose move it is -/

/-- The MSD can do something now: what it waits for is there. -/
def Msd.canMove (m : Msd) : Bool :=
  if m.ctl.isBusy then !m.replies.isEmpty else m.bootDue || !m.ctl.port.isEmpty

/-- The next move: the head of the schedule, and where nothing is scheduled a unit's turn, the MSD's if it can do something
and otherwise the CDS's (log entry 14). -/
def State.turn (s : State) : Turn :=
  match s.schedule with
  | t :: _ => t
  | [] => if s.msd.canMove then .run .msd else .run .cds

/-- The move is taken off the schedule. -/
def State.takeTurn (s : State) : State := { s with schedule := s.schedule.tail }

/-- A unit's turn, which has no meaning where it breaks the bus discipline (R137). -/
def State.unitTurn (s : State) (u : UnitId) : Host.Outcome State Fault Refusal :=
  if s.busClash u then .refused .busNotSerialised
  else
    match u with
    | .msd => s.msdTurn
    | .cds => s.cdsTurn

/-- One move. -/
def State.move (s : State) (t : Turn) : Host.Outcome State Fault Refusal :=
  match t with
  | .run u => s.unitTurn u
  | .present u packet => .next (s.present packet u)
  | .reply r => .next (s.answer r)
  | .ack a => .next (s.acknowledge a)
  | .delayDone => .next s.delayAnswer
  | .reset u => .next (s.resetUnit u)

/-- The packet is the next one of its unit's port, the unit is IDLE with its boot action over, and its turn comes next. -/
def State.placePacket (s : State) (packet : List Byte) : State :=
  match packetUnit packet with
  | .msd =>
    { s with
      msd := { s.msd with
        bootDue := false
        ctl := { s.msd.ctl with phase := .idle, upc := 0, port := packet :: s.msd.ctl.port } }
      schedule := .run .msd :: s.schedule }
  | .cds =>
    { s with
      cds := { s.cds with ctl := { s.cds.ctl with phase := .idle, upc := 0, port := packet :: s.cds.ctl.port } }
      schedule := .run .cds :: s.schedule }

end Sys2Proof.Machine
end

