-- ==== Sys2Proof/Machine/Step.lean ====
section
/-! DEFINITION. Machine/Step.lean: one step of the machine, the next move of the block or of its environment (spec
10_state.md rule R10, 20_memory.md rule R44), and where the host's check places an instruction. -/

namespace Sys2Proof.Machine

/-- One step: the next move is taken off the schedule and made. -/
def step (s : State) : Host.Outcome State Fault Refusal := s.takeTurn.move s.turn

/-- The instruction of a table word stands first on its unit's command port, and that unit moves next (log entry 13). -/
def State.withFetchWord (s : State) (nbits w : Nat) : State := s.placePacket (tablePacket nbits w)

end Sys2Proof.Machine
end

