-- ==== Sys2Proof/Machine/Assembler.lean ====
section
/-! DEFINITION. Machine/Assembler.lean: the assembler of spec 30_encoding.md rules R64 to R66: a mnemonic and its operands
give a command; a line is read into tokens and the tokens into operands; a program is one command a line. -/

namespace Sys2Proof.Machine

/-- The symbolic constants the assembler accepts (R66), in the rule's order. -/
inductive AsmSymbol where
  | accelRange2G | accelRange4G | accelRange8G | accelRange16G
  | gyroRange250 | gyroRange500 | gyroRange1000 | gyroRange2000
  | gyroConfig | accelConfig | accelXout | accelYout | accelZout | tempOut
  | gyroXout | gyroYout | gyroZout | pwrMgmt1
  | clearDisplay | returnHome | entryModeSet | displayControl | cursorShift | functionSet
  | setCgramAddr | setDdramAddr
  | enable | readWrite | registerSelect | backlight
  | modeCommand | modeData
deriving DecidableEq, Repr

/-- The byte a symbol stands for (R66). -/
def AsmSymbol.value : AsmSymbol → Byte
  | .accelRange2G => Machine.accelRange2G
  | .accelRange4G => Machine.accelRange4G
  | .accelRange8G => Machine.accelRange8G
  | .accelRange16G => Machine.accelRange16G
  | .gyroRange250 => Machine.gyroRange250
  | .gyroRange500 => Machine.gyroRange500
  | .gyroRange1000 => Machine.gyroRange1000
  | .gyroRange2000 => Machine.gyroRange2000
  | .gyroConfig => Machine.gyroConfig
  | .accelConfig => Machine.accelConfig
  | .accelXout => Machine.accelXout
  | .accelYout => Machine.accelYout
  | .accelZout => Machine.accelZout
  | .tempOut => Machine.tempOut
  | .gyroXout => Machine.gyroXout
  | .gyroYout => Machine.gyroYout
  | .gyroZout => Machine.gyroZout
  | .pwrMgmt1 => Machine.pwrMgmt1
  | .clearDisplay => Machine.clearDisplay
  | .returnHome => Machine.returnHome
  | .entryModeSet => Machine.entryModeSet
  | .displayControl => Machine.displayControl
  | .cursorShift => Machine.cursorShift
  | .functionSet => Machine.functionSet
  | .setCgramAddr => Machine.setCgramAddr
  | .setDdramAddr => Machine.setDdramAddr
  | .enable => Machine.enable
  | .readWrite => Machine.readWrite
  | .registerSelect => Machine.registerSelect
  | .backlight => Machine.backlight
  | .modeCommand => Machine.modeCommand
  | .modeData => Machine.modeData

/-- The symbol as it is written (R66): the registers by their names of R40, the LCD commands by those of R58. -/
def AsmSymbol.spelling : AsmSymbol → String
  | .accelRange2G => "ACCEL_RANGE_2G"
  | .accelRange4G => "ACCEL_RANGE_4G"
  | .accelRange8G => "ACCEL_RANGE_8G"
  | .accelRange16G => "ACCEL_RANGE_16G"
  | .gyroRange250 => "GYRO_RANGE_250"
  | .gyroRange500 => "GYRO_RANGE_500"
  | .gyroRange1000 => "GYRO_RANGE_1000"
  | .gyroRange2000 => "GYRO_RANGE_2000"
  | .gyroConfig => "GYRO_CONFIG"
  | .accelConfig => "ACCEL_CONFIG"
  | .accelXout => "ACCEL_XOUT"
  | .accelYout => "ACCEL_YOUT"
  | .accelZout => "ACCEL_ZOUT"
  | .tempOut => "TEMP_OUT"
  | .gyroXout => "GYRO_XOUT"
  | .gyroYout => "GYRO_YOUT"
  | .gyroZout => "GYRO_ZOUT"
  | .pwrMgmt1 => "PWR_MGMT_1"
  | .clearDisplay => "CLEARDISPLAY"
  | .returnHome => "RETURNHOME"
  | .entryModeSet => "ENTRYMODESET"
  | .displayControl => "DISPLAYCONTROL"
  | .cursorShift => "CURSORSHIFT"
  | .functionSet => "FUNCTIONSET"
  | .setCgramAddr => "SETCGRAMADDR"
  | .setDdramAddr => "SETDDRAMADDR"
  | .enable => "ENABLE"
  | .readWrite => "READWRITE"
  | .registerSelect => "REGISTERSELECT"
  | .backlight => "BACKLIGHT"
  | .modeCommand => "MODE_COMMAND"
  | .modeData => "MODE_DATA"

/-- Every symbol. -/
def AsmSymbol.all : List AsmSymbol :=
  [.accelRange2G, .accelRange4G, .accelRange8G, .accelRange16G,
   .gyroRange250, .gyroRange500, .gyroRange1000, .gyroRange2000,
   .gyroConfig, .accelConfig, .accelXout, .accelYout, .accelZout, .tempOut,
   .gyroXout, .gyroYout, .gyroZout, .pwrMgmt1,
   .clearDisplay, .returnHome, .entryModeSet, .displayControl, .cursorShift, .functionSet,
   .setCgramAddr, .setDdramAddr,
   .enable, .readWrite, .registerSelect, .backlight, .modeCommand, .modeData]

/-- An operand as it is written (R64): a number, a symbol, a quoted text, or a byte list. -/
inductive AsmOperand where
  | number (n : Nat)
  | symbol (x : AsmSymbol)
  | quoted (cs : List Char)
  | byteList (bs : List Byte)
deriving DecidableEq, Repr

/-- The mnemonic as the opcode table spells it (R52, R64). -/
def spelling : Mnemonic → String
  | .wake => "WAKE"
  | .readWord => "READ_WORD"
  | .readTemp => "READ_TEMP"
  | .setAccelRange => "SET_ACCEL_RANGE"
  | .setGyroRange => "SET_GYRO_RANGE"
  | .readRawAccelRange => "READ_RAW_ACCEL_RANGE"
  | .readRawGyroRange => "READ_RAW_GYRO_RANGE"
  | .decodeAccelRange => "DECODE_ACCEL_RANGE"
  | .decodeGyroRange => "DECODE_GYRO_RANGE"
  | .getAccelData => "GET_ACCEL_DATA"
  | .getGyroData => "GET_GYRO_DATA"
  | .strobe => "STROBE"
  | .write4Bits => "WRITE4BITS"
  | .sendByte => "SEND_BYTE"
  | .writeString => "WRITE_STRING"
  | .clear => "CLEAR"

/-- The byte of an operand: a number that fits a byte, or a symbol (R64, R66). -/
def AsmOperand.byte? : AsmOperand → Option Byte
  | .number n => if n < 256 then some (BitVec.ofNat 8 n) else none
  | .symbol x => some x.value
  | .quoted _ => none
  | .byteList _ => none

/-- The bytes of a text operand: printable characters 0x20 to 0x7E stand for themselves, and a byte list for itself
(R64). What a quoted text with another character stands for is left open (R55, R64); DESIGN CHOICE: it stands for no text, so
such a line gives no command (log entry 28). -/
def AsmOperand.text? : AsmOperand → Option (List Byte)
  | .number _ => none
  | .symbol _ => none
  | .quoted cs =>
    if cs.all (fun c => 0x20 ≤ c.toNat && c.toNat ≤ 0x7E) then some (cs.map fun c => BitVec.ofNat 8 c.toNat)
    else none
  | .byteList bs => some bs

/-- A command from its mnemonic and operands (R64): the operands follow the mnemonic; WRITE_STRING takes the text first, then the line;
GET_ACCEL_DATA with no operand is `GET_ACCEL_DATA 0` (R65). -/
def assemble : Mnemonic → List AsmOperand → Option Instr
  | .wake, [] => some .wake
  | .readWord, [a] => a.byte?.map .readWord
  | .readTemp, [] => some .readTemp
  | .setAccelRange, [a] => a.byte?.map .setAccelRange
  | .setGyroRange, [a] => a.byte?.map .setGyroRange
  | .readRawAccelRange, [] => some .readRawAccelRange
  | .readRawGyroRange, [] => some .readRawGyroRange
  | .decodeAccelRange, [a] => a.byte?.map .decodeAccelRange
  | .decodeGyroRange, [a] => a.byte?.map .decodeGyroRange
  | .getAccelData, [] => some (.getAccelData 0x00)
  | .getAccelData, [a] => a.byte?.map .getAccelData
  | .getGyroData, [] => some .getGyroData
  | .strobe, [a] => a.byte?.map .strobe
  | .write4Bits, [a] => a.byte?.map .write4Bits
  | .sendByte, [a, b] => do
    let a ← a.byte?
    let b ← b.byte?
    some (.sendByte a b)
  | .writeString, [text, line] => do
    let text ← text.text?
    let line ← line.byte?
    some (.writeString line text)
  | .clear, [] => some .clear
  | _, _ => none

/-! ## Reading a line (R64) -/

/-- The quotation mark. -/
def quoteMark : Char := Char.ofNat 0x22

/-- A token of a line: a mnemonic, number or symbol; a quoted text; or a mark. -/
inductive AsmToken where
  | word (cs : List Char)
  | quoted (cs : List Char)
  | comma
  | openList
  | closeList
deriving DecidableEq, Repr

/-- The characters of mnemonics, numbers and symbols. -/
def isWordChar (c : Char) : Bool := c.isAlphanum || c == '_'

/-- The token of a mark. -/
def markOf? (c : Char) : Option AsmToken :=
  if c = ',' then some .comma
  else if c = '[' then some .openList
  else if c = ']' then some .closeList
  else none

/-- Where the reading of a line into tokens stands: between tokens, inside a word, or inside a quoted text; the characters
of the token are kept last first. -/
inductive LexPlace where
  | between
  | inWord (acc : List Char)
  | inQuote (acc : List Char)
deriving DecidableEq, Repr

/-- The tokens of a line. A quoted text ends at the next quotation mark (log entry 28). -/
def tokens : LexPlace → List Char → Option (List AsmToken)
  | .between, [] => some []
  | .inWord acc, [] => some [.word acc.reverse]
  | .inQuote _, [] => none
  | .between, c :: cs =>
    if c = ' ' then tokens .between cs
    else if c = quoteMark then tokens (.inQuote []) cs
    else if isWordChar c then tokens (.inWord [c]) cs
    else (markOf? c).bind fun t => (tokens .between cs).map (t :: ·)
  | .inWord acc, c :: cs =>
    if isWordChar c then tokens (.inWord (c :: acc)) cs
    else if c = ' ' then (tokens .between cs).map (.word acc.reverse :: ·)
    else (markOf? c).bind fun t => (tokens .between cs).map fun ts => .word acc.reverse :: t :: ts
  | .inQuote acc, c :: cs =>
    if c = quoteMark then (tokens .between cs).map (.quoted acc.reverse :: ·) else tokens (.inQuote (c :: acc)) cs

/-- The value of a hexadecimal digit. -/
def digitOf? (c : Char) : Option Nat :=
  if '0'.toNat ≤ c.toNat ∧ c.toNat ≤ '9'.toNat then some (c.toNat - '0'.toNat)
  else if 'a'.toNat ≤ c.toNat ∧ c.toNat ≤ 'f'.toNat then some (c.toNat - 'a'.toNat + 10)
  else if 'A'.toNat ≤ c.toNat ∧ c.toNat ≤ 'F'.toNat then some (c.toNat - 'A'.toNat + 10)
  else none

/-- The digits of a number in a base, after the value read so far. -/
def digits (base : Nat) : Nat → List Char → Option Nat
  | n, [] => some n
  | n, c :: cs => (digitOf? c).bind fun k => if k < base then digits base (base * n + k) cs else none

/-- A number, hexadecimal after `0x` and decimal otherwise (R64). -/
def numberOf? : List Char → Option Nat
  | [] => none
  | ['0', 'x'] => none
  | '0' :: 'x' :: cs => digits 16 0 cs
  | c :: cs => digits 10 0 (c :: cs)

/-- A word as an operand: a number, or a symbol (R64, R66). -/
def wordOperand? (w : List Char) : Option AsmOperand :=
  match numberOf? w with
  | some n => some (.number n)
  | none => (AsmSymbol.all.find? fun x => x.spelling.toList == w).map .symbol

/-- A word as a byte of a byte list: a number that fits a byte (R64). -/
def wordByte? (w : List Char) : Option Byte := (numberOf? w).bind fun n => (AsmOperand.number n).byte?

/-- Where the reading of tokens into operands stands: after the mnemonic, where an operand must come, after an operand, or
in a byte list at one of the same three places; the bytes of the list are kept last first. -/
inductive ParsePlace where
  | first
  | item
  | afterItem
  | listFirst
  | listItem (acc : List Byte)
  | listAfterItem (acc : List Byte)
deriving DecidableEq, Repr

/-- The operands of a line, separated by commas (R64). -/
def operands : ParsePlace → List AsmToken → Option (List AsmOperand)
  | .first, [] => some []
  | .first, .word w :: ts => (wordOperand? w).bind fun a => (operands .afterItem ts).map (a :: ·)
  | .first, .quoted cs :: ts => (operands .afterItem ts).map (.quoted cs :: ·)
  | .first, .openList :: ts => operands .listFirst ts
  | .item, .word w :: ts => (wordOperand? w).bind fun a => (operands .afterItem ts).map (a :: ·)
  | .item, .quoted cs :: ts => (operands .afterItem ts).map (.quoted cs :: ·)
  | .item, .openList :: ts => operands .listFirst ts
  | .afterItem, [] => some []
  | .afterItem, .comma :: ts => operands .item ts
  | .listFirst, .closeList :: ts => (operands .afterItem ts).map (.byteList [] :: ·)
  | .listFirst, .word w :: ts => (wordByte? w).bind fun b => operands (.listAfterItem [b]) ts
  | .listItem acc, .word w :: ts => (wordByte? w).bind fun b => operands (.listAfterItem (b :: acc)) ts
  | .listAfterItem acc, .comma :: ts => operands (.listItem acc) ts
  | .listAfterItem acc, .closeList :: ts => (operands .afterItem ts).map (.byteList acc.reverse :: ·)
  | _, _ => none

/-- The mnemonic a word spells. -/
def wordMnemonic? (w : List Char) : Option Mnemonic := Mnemonic.all.find? fun m => (spelling m).toList == w

/-- The command of a line's tokens: the mnemonic, then its operands. -/
def assembleTokens : List AsmToken → Option Instr
  | .word w :: ts => (wordMnemonic? w).bind fun m => (operands .first ts).bind fun as => assemble m as
  | _ => none

/-- The command of a line (R64). -/
def assembleLine (line : List Char) : Option Instr := (tokens .between line).bind assembleTokens

/-- The lines of a text, after the characters of the line so far, kept last first. -/
def linesOf : List Char → List Char → List (List Char)
  | acc, [] => [acc.reverse]
  | acc, c :: cs => if c = '\n' then acc.reverse :: linesOf [] cs else linesOf (c :: acc) cs

/-- The commands of lines, in order; a line with no token is passed over. -/
def assembleLines : List (List Char) → Option (List Instr)
  | [] => some []
  | line :: rest =>
    if tokens .between line = some [] then assembleLines rest
    else (assembleLine line).bind fun i => (assembleLines rest).map (i :: ·)

/-- A program of unit `u`: one command of that unit a line, issued in order (R64). -/
def assembleProgram (u : UnitId) (text : List Char) : Option (List Instr) :=
  (assembleLines (linesOf [] text)).bind fun is => if is.all fun i => i.unit == u then some is else none

end Sys2Proof.Machine
end

