-- ==== Sys2Proof/Safety.lean ====
section
/-! DEFINITION. Safety.lean: the terms in which statements about the machine are made: what a reader of a trace or of a
response sees, the time the delays take at least (spec 60_exceptions.md rule R120), a run without a recorded fault
(10_state.md rule R19), and the invariant of the machine. -/

namespace Sys2Proof.Machine

/-! ## Reading traces and responses -/

/-- The event is a failed transaction. -/
def Event.isError : Event → Bool
  | .rdErr _ | .wrErr _ _ | .rawErr _ => true
  | .rd _ _ | .wr _ _ | .raw _ | .dly => false

/-- The events an MSD can log: the MSD uses `readByte` and `writeByte` only (R11). -/
def Event.isMsd : Event → Bool
  | .rd _ _ | .rdErr _ | .wr _ _ | .wrErr _ _ => true
  | .raw _ | .rawErr _ | .dly => false

/-- The byte of a raw write, tried or done. -/
def Event.rawByte? : Event → Option Byte
  | .raw v | .rawErr v => some v
  | .rd _ _ | .rdErr _ | .wr _ _ | .wrErr _ _ | .dly => none

/-- The field `CODE` of a completion byte (R56). -/
def Response.code (r : Response) : Byte := r.completion &&& 0x0F

/-- The bit `UNK_CFG` of a completion byte (R56). -/
def Response.unkCfg (r : Response) : Bool := bitOf r.completion 4

/-- The bit `BAD_LINE` of a completion byte (R56). -/
def Response.badLine (r : Response) : Bool := bitOf r.completion 5

/-- Whether a delay is owed after the trace of a CDS: after `RAW(v)` one `DLY` must come, and `DLY` comes only then
(R103 (a)); `none` for a trace of another shape. -/
def delayOwed (trace : List Event) : Option Bool :=
  trace.foldl
    (fun owed e =>
      match owed, e with
      | some false, .raw _ => some true
      | some true, .dly => some false
      | some false, .rawErr _ => some false
      | _, _ => none)
    (some false)

/-- The milliseconds that the delays of a trace took at least: each `DLY` lasts no less than `DELAY_MS` (R120, R144). -/
def minDelayMs (delayMs : PosRat) (trace : List Event) : Rat := delayMs.val * (trace.count .dly : Nat)

/-- The next state of an outcome, where there is one. -/
def nextState? (o : Host.Outcome State Fault Refusal) : Option State :=
  match o with
  | .next t => some t
  | .fault _ => none
  | .refused _ => none

/-- The control part of a unit that was in `c` and whose command has ended: IDLE with `upc` 0 and no warning raised, the
events `events` at the end of the trace and one response more; the port is untouched (R12, R16, R56). -/
def Ctl.ended (c : Ctl) (events : List Event) (flags : Flags) (completion : Byte) (payload : Payload) : Ctl :=
  { phase := .idle, upc := 0, flags := flags, warn := Warn.none, trace := c.trace ++ events
    responses := c.responses ++ [{ completion := completion, payload := payload }], port := c.port }

/-- The control part of a unit that was in `c`, has accepted the command `i` and waits for the answer to its
micro-operation `k` (R12, R140). -/
def Ctl.waitsAt (c : Ctl) (i : Instr) (k : Nat) (events : List Event) (flags : Flags) (warn : Warn) : Ctl :=
  { phase := .busy i, upc := k, flags := flags, warn := warn, trace := c.trace ++ events
    responses := c.responses, port := c.port }

/-- A number up to 65535 as two bytes, the high byte first (R56). -/
def twoBytes (n : Nat) : List Byte := [BitVec.ofNat 8 (n / 256), BitVec.ofNat 8 n]

/-- The events of the micro-operations `ops` of an MSD command, all answered `ok`, with the bytes read `bs`: a function of
the operand captured in `r` alone (R17). -/
def MsdRegs.eventsOf (r : MsdRegs) (ops : List MsdMicro) (bs : List Byte) : List Event :=
  List.zipWith r.okEvent ops bs

/-- The events of the micro-operations of a CDS command, all answered, from the registers `r`: a function of the command
and the parameter `LINE1_ADDR = line1` alone (R17). -/
def CdsRegs.eventsOf (line1 : Byte) (r : CdsRegs) : List CdsMicro → List Event
  | [] => []
  | op :: ops =>
    (match op.out with
      | .raw f => .raw (f.byte (r.loads line1 op.loads).nib)
      | .delay => .dly) :: (r.loads line1 op.loads).eventsOf line1 ops

/-- The twelve events of `sendByte(cmd, mode)` (R99), written out. -/
def sendByteEvents (cmd mode : Byte) : List Event :=
  let h := (cmd &&& 0xF0) ||| mode
  let l := ((cmd <<< 4) &&& 0xF0) ||| mode
  [.raw (h ||| 0x08), .dly, .raw (h ||| 0x0C), .dly, .raw ((h &&& 0xFB) ||| 0x08), .dly,
   .raw (l ||| 0x08), .dly, .raw (l ||| 0x0C), .dly, .raw ((l &&& 0xFB) ||| 0x08), .dly]

/-- The command is a WRITE_STRING with an invalid line number (R55, R112). -/
def hasBadLine (i : Instr) : Bool :=
  match i with
  | .writeString line _ => line != 1 && line != 2 && line != 3 && line != 4
  | .strobe _ | .write4Bits _ | .sendByte _ _ | .clear | .wake | .readWord _ | .readTemp | .setAccelRange _
  | .setGyroRange _ | .readRawAccelRange | .readRawGyroRange | .decodeAccelRange _ | .decodeGyroRange _
  | .getAccelData _ | .getGyroData => false

/-- The packets that are legal on a unit's port (R61, R62), said without the decoder. -/
def legalPacket (u : UnitId) (maxText : Nat) : List Byte → Prop
  | [] => False
  | op :: rest =>
    match u with
    | .msd =>
      0x10 ≤ op.toNat ∧ op.toNat ≤ 0x1A ∧
      rest.length = (if op.toNat ∈ [0x10, 0x12, 0x15, 0x16, 0x1A] then 0 else 1) ∧
      (op = 0x11 → rest ≠ [0xFF]) ∧
      (op = 0x19 → ∀ a, rest = [a] → ∀ k, 1 ≤ k → k ≤ 7 → a.getLsbD k = false)
    | .cds =>
      0x20 ≤ op.toNat ∧ op.toNat ≤ 0x24 ∧
      (op.toNat ∈ [0x20, 0x21] → rest.length = 1) ∧ (op = 0x22 → rest.length = 2) ∧ (op = 0x24 → rest = []) ∧
      (op = 0x23 → ∃ line n text, rest = line :: n :: text ∧ text.length = n.toNat ∧ n.toNat ≤ maxText)

/-! ## The numbers of a binary format (R83) -/

/-- `x` is a number of the format, were its exponents not bounded above: an integer of fewer than `prec` bits times a power
of two no smaller than that of the subnormal numbers. No result of R83 comes near the upper bound (R94). -/
def BinFmt.Represents (f : BinFmt) (x : Rat) : Prop :=
  ∃ m e : Int, m.natAbs < 2 ^ f.prec ∧ f.emin - ((f.prec : Int) - 1) ≤ e ∧ x = m * (2 : Rat) ^ e

/-- The number that IEEE 754 bits stand for, read from the sign, the exponent field and the fraction (finite numbers). -/
def BinFmt.valueOf (f : BinFmt) (bits : Nat) : Rat :=
  let fraction := bits % 2 ^ (f.prec - 1)
  let field := bits / 2 ^ (f.prec - 1) % 2 ^ f.ebits
  let sign : Rat := if bits / 2 ^ (f.prec - 1 + f.ebits) = 0 then 1 else -1
  if field = 0 then sign * fraction * (2 : Rat) ^ (f.emin - ((f.prec : Int) - 1))
  else sign * (2 ^ (f.prec - 1) + fraction : Nat) * (2 : Rat) ^ ((field : Int) - f.bias - ((f.prec : Int) - 1))

/-- The number of a list of bytes, the high byte first (R56). -/
def numberOfBytes (bs : List Byte) : Nat := bs.foldl (fun n b => 256 * n + b.toNat) 0

/-! ## What outlives a command (R15, R19) -/

/-- The MSD without its working registers and sticky flags. -/
def Msd.forget (m : Msd) : Msd :=
  { m with regs := MsdRegs.reset, ctl := { m.ctl with flags := Flags.none } }

/-- The CDS without its working registers and sticky flags. -/
def Cds.forget (c : Cds) : Cds :=
  { c with regs := CdsRegs.reset 0, ctl := { c.ctl with flags := Flags.none } }

/-- The machine without the working registers and sticky flags of its units. -/
def State.forget (s : State) : State := { s with msd := s.msd.forget, cds := s.cds.forget }

/-- Every flag set in `a` is set in `b`. -/
def Flags.le (a b : Flags) : Prop :=
  (a.terr → b.terr) ∧ (a.unk → b.unk) ∧ (a.badline → b.badline) ∧ (a.ill → b.ill)

/-! ## Runs without a recorded fault (R19, R118) -/

/-- No unit has recorded a fault: `TERR` and `ILL` are 0 in both. -/
def State.noFaultRecorded (s : State) : Bool :=
  !s.msd.ctl.flags.terr && !s.msd.ctl.flags.ill && !s.cds.ctl.flags.terr && !s.cds.ctl.flags.ill

/-! ## The invariant -/

/-- The registers hold the operands of the command in progress, as captured at its acceptance (R46). -/
def Msd.holdsOperands (m : Msd) (i : Instr) : Prop := i.operandBytes = [] ∨ i.operandBytes = [m.regs.opa]

/-- The registers hold the operands of the command in progress, as captured at its acceptance (R46). -/
def Cds.holdsOperands (c : Cds) (i : Instr) : Prop :=
  match i with
  | .strobe a | .write4Bits a => c.regs.nib = a
  | .sendByte a b => c.regs.cmd = a ∧ c.regs.mode = b
  | .writeString line text =>
    c.regs.line = line ∧ c.regs.len.toNat = text.length ∧ c.regs.txt.take text.length = text
  | .clear => True
  | .wake | .readWord _ | .readTemp | .setAccelRange _ | .setGyroRange _ | .readRawAccelRange
  | .readRawGyroRange | .decodeAccelRange _ | .decodeGyroRange _ | .getAccelData _ | .getGyroData => False

/-- The MSD's invariant. -/
structure Msd.Inv (m : Msd) : Prop where
  /-- IDLE, `upc` is 0 (R16). -/
  idle_upc : m.ctl.phase = .idle → m.ctl.upc = 0
  /-- BUSY, the command in progress is one of the MSD's and `upc` is the index of one of its micro-operations (R16). -/
  busy_upc : ∀ i, m.ctl.phase = .busy i →
    m.holdsOperands i ∧ ∃ c, msdCommand? i = some c ∧ m.ctl.upc < c.ops.length
  /-- Before the boot write is issued the MSD is IDLE (log entry 6) and nothing has happened since reset (R135). -/
  before_boot : m.bootDue = true →
    m.ctl.phase = .idle ∧ m.ctl.trace = [] ∧ m.ctl.responses = [] ∧ m.ctl.flags = Flags.none
  /-- While the boot write is not answered, `upc` is 0 (R140) and nothing else has happened since reset (R135). -/
  booting : m.ctl.phase = .booting →
    m.ctl.upc = 0 ∧ m.ctl.trace = [] ∧ m.ctl.responses = [] ∧ m.ctl.flags = Flags.none
  /-- A warning of the MSD is raised only in the response that ends the command (R115). -/
  no_warn : m.ctl.warn = Warn.none
  /-- The decoded words are `s16` values (R13). -/
  v0_range : -32768 ≤ m.regs.v0 ∧ m.regs.v0 ≤ 32767
  v1_range : -32768 ≤ m.regs.v1 ∧ m.regs.v1 ≤ 32767
  v2_range : -32768 ≤ m.regs.v2 ∧ m.regs.v2 ≤ 32767
  /-- `BADLINE` is always 0 in the MSD (R18). -/
  no_badline : m.ctl.flags.badline = false
  /-- `TERR`: some response had code TRANSPORT_ERROR, or the boot write failed (R20, R26). -/
  terr_iff : m.ctl.flags.terr =
    (m.ctl.responses.any (fun r => r.code == 1) || m.ctl.trace.head? == some (.wrErr 0x6B 0x00))
  /-- `ILL`: some response had code ILLEGAL_COMMAND (R20). -/
  ill_iff : m.ctl.flags.ill = m.ctl.responses.any (fun r => r.code == 2)
  /-- `UNK`: some response had the bit UNK_CFG (R20). -/
  unk_iff : m.ctl.flags.unk = m.ctl.responses.any Response.unkCfg
  /-- Every response is OK, OK with UNK_CFG, TRANSPORT_ERROR or ILLEGAL_COMMAND (R56). -/
  completions : ∀ r ∈ m.ctl.responses, r.completion ∈ ([0x00, 0x10, 0x01, 0x02] : List Byte)
  /-- Every event is a read or a write (R11). -/
  events : ∀ e ∈ m.ctl.trace, e.isMsd = true

/-- The CDS's invariant. -/
structure Cds.Inv (c : Cds) : Prop where
  /-- IDLE, `upc` is 0 (R16) and no warning is raised. -/
  idle_upc : c.ctl.phase = .idle → c.ctl.upc = 0 ∧ c.ctl.warn = Warn.none
  /-- The CDS has no boot action (R135). -/
  not_booting : c.ctl.phase ≠ .booting
  /-- BUSY, the command in progress is a well-formed one of the CDS's and `upc` is the index of one of its
  micro-operations (R16). -/
  busy_upc : ∀ i, c.ctl.phase = .busy i →
    i.wf c.params.maxText = true ∧ c.holdsOperands i ∧ ∃ k, cdsCommand? i = some k ∧ c.ctl.upc < k.ops.length
  /-- The CDS never raises UNK_CFG, and `UNK` is always 0 (R18). -/
  no_unk : c.ctl.warn.unkCfg = false ∧ c.ctl.flags.unk = false
  /-- `TERR`: some response had code TRANSPORT_ERROR (R20). -/
  terr_iff : c.ctl.flags.terr = c.ctl.responses.any (fun r => r.code == 1)
  /-- `ILL`: some response had code ILLEGAL_COMMAND (R20). -/
  ill_iff : c.ctl.flags.ill = c.ctl.responses.any (fun r => r.code == 2)
  /-- `BADLINE`: some response had the bit BAD_LINE, or the command in progress will report it (R20, R112). -/
  badline_iff : c.ctl.flags.badline = (c.ctl.responses.any Response.badLine || c.ctl.warn.badLine)
  /-- Every response is OK, TRANSPORT_ERROR, either with BAD_LINE, or ILLEGAL_COMMAND (R56). -/
  completions : ∀ r ∈ c.ctl.responses, r.completion ∈ ([0x00, 0x20, 0x01, 0x21, 0x02] : List Byte)
  /-- The text registers are `MAX_TEXT` bytes, `LEN` is at most `MAX_TEXT` and `IDX` at most `LEN` (R14). -/
  text_regs : c.regs.txt.length = c.params.maxText ∧ c.regs.len.toNat ≤ c.params.maxText ∧
    c.regs.idx ≤ c.regs.len.toNat
  /-- Every write is followed by one delay, which is owed exactly while a command waits at an odd `upc` (R103 (a)). -/
  alternates : delayOwed c.ctl.trace = some (c.ctl.isBusy && c.ctl.upc % 2 == 1)
  /-- Every byte written has the backlight bit set (R21, R96). -/
  backlit : ∀ e ∈ c.ctl.trace, ∀ v, e.rawByte? = some v → v.getLsbD 3 = true

/-- The invariant of the machine. -/
structure State.Inv (s : State) : Prop where
  msd : s.msd.Inv
  cds : s.cds.Inv

end Sys2Proof.Machine
end

