-- ==== Sys2Proof/Certificates/Slice0/Obligations.lean ====
section
/-! DEFINITION. Certificates/Slice0/Obligations.lean: the statements about the machine that the provers are to settle. -/

open Sys2Proof Sys2Proof.Machine

/-! ## Encoding -/

/-- Decoding the packet of a well-formed command, on its unit's port, gives the command back (R50 to R55). -/
def Obligations.DecodeOfEncodeIsTheCommand : Prop :=
  ∀ (maxText : Nat) (i : Instr), i.wf maxText = true → decode i.unit maxText (encode i) = .ok i

/-- A packet that decodes is the packet of the command it decodes to, which is a well-formed command of that unit: no
packet has a second spelling (R50 to R55, R61, R62). -/
def Obligations.DecodedPacketIsItsOwnEncoding : Prop :=
  ∀ (u : UnitId) (maxText : Nat) (packet : List Byte) (i : Instr), decode u maxText packet = .ok i →
    i.unit = u ∧ i.wf maxText = true ∧ encode i = packet

/-- R61, R62: a packet that is not legal is refused with no micro-operation (response 02, `ILL` set, nothing else), and a
legal one, whatever else it holds, is executed as the command it decodes to. -/
def Obligations.ExactlyTheLegalPacketsAreExecuted : Prop :=
  ∀ (s : State) (packet : List Byte),
    (¬ legalPacket .msd s.cds.params.maxText packet →
      s.execute .msd packet = .next { s with msd := { s.msd with
        ctl := s.msd.ctl.ended [] { s.msd.ctl.flags with ill := true } 0x02 (.bytes []) } }) ∧
    (¬ legalPacket .cds s.cds.params.maxText packet →
      s.execute .cds packet = .next { s with cds := { s.cds with
        ctl := s.cds.ctl.ended [] { s.cds.ctl.flags with ill := true } 0x02 (.bytes []) } }) ∧
    (∀ u, legalPacket u s.cds.params.maxText packet →
      ∃ i, decode u s.cds.params.maxText packet = .ok i ∧ s.execute u packet = exec i s)

/-- One packet of each of the sixteen rows of the opcode map (R52), written out, decodes to the command of its row; and one
table word does (log entry 12). -/
def Obligations.PacketsOfTheOpcodeMapDecode : Prop :=
  decode .msd 255 [0x10] = .ok .wake ∧
  decode .msd 255 [0x11, 0x3B] = .ok (.readWord 0x3B) ∧
  decode .msd 255 [0x12] = .ok .readTemp ∧
  decode .msd 255 [0x13, 0x08] = .ok (.setAccelRange 0x08) ∧
  decode .msd 255 [0x14, 0x18] = .ok (.setGyroRange 0x18) ∧
  decode .msd 255 [0x15] = .ok .readRawAccelRange ∧
  decode .msd 255 [0x16] = .ok .readRawGyroRange ∧
  decode .msd 255 [0x17, 0x05] = .ok (.decodeAccelRange 0x05) ∧
  decode .msd 255 [0x18, 0x10] = .ok (.decodeGyroRange 0x10) ∧
  decode .msd 255 [0x19, 0x01] = .ok (.getAccelData 0x01) ∧
  decode .msd 255 [0x1A] = .ok .getGyroData ∧
  decode .cds 255 [0x20, 0xA0] = .ok (.strobe 0xA0) ∧
  decode .cds 255 [0x21, 0xB1] = .ok (.write4Bits 0xB1) ∧
  decode .cds 255 [0x22, 0xAB, 0x00] = .ok (.sendByte 0xAB 0x00) ∧
  decode .cds 255 [0x23, 0x02, 0x02, 0x48, 0x49] = .ok (.writeString 0x02 [0x48, 0x49]) ∧
  decode .cds 255 [0x24] = .ok .clear ∧
  decodeTableWord 24 0x22AB01 = some (.sendByte 0xAB 0x01)

/-! ## A step -/

/-- When a unit's turn comes, it is IDLE (the MSD with its boot action over) and the bus discipline is kept, the step
runs the next packet of its port: where it decodes to `i`, the step is exec of `i`, after the move is taken off the
schedule and the packet off the port; where it is illegal, the step takes it off the port and refuses it, with response
02 and `ILL` set (R113). When it is BUSY with the command `i`, the step goes on with `i`, and touches nothing else (R17,
R43, R44). The port as a queue is the model's choice (log entry 3). -/
def Obligations.StepExecutesTheNextPacket : Prop :=
  ∀ (s : State) (packet : List Byte) (i : Instr) (e : DecodeError),
    (s.turn = .run .msd → s.busClash .msd = false → s.msd.ctl.phase = .idle → s.msd.bootDue = false →
      s.msd.ctl.port.head? = some packet →
      (decode .msd s.cds.params.maxText packet = .ok i → step s = exec i (s.takeTurn.takePacket .msd)) ∧
      (decode .msd s.cds.params.maxText packet = .error e → step s = .next { s.takeTurn with msd := { s.msd with
        ctl := { s.msd.ctl with port := s.msd.ctl.port.tail }.ended [] { s.msd.ctl.flags with ill := true } 0x02
          (.bytes []) } })) ∧
    (s.turn = .run .cds → s.busClash .cds = false → s.cds.ctl.phase = .idle →
      s.cds.ctl.port.head? = some packet →
      (decode .cds s.cds.params.maxText packet = .ok i → step s = exec i (s.takeTurn.takePacket .cds)) ∧
      (decode .cds s.cds.params.maxText packet = .error e → step s = .next { s.takeTurn with cds := { s.cds with
        ctl := { s.cds.ctl with port := s.cds.ctl.port.tail }.ended [] { s.cds.ctl.flags with ill := true } 0x02
          (.bytes []) } })) ∧
    (s.turn = .run .msd → s.busClash .msd = false → s.msd.ctl.phase = .busy i →
      step s = .next { s.takeTurn with msd := s.msd.resumeTurn i }) ∧
    (s.turn = .run .cds → s.busClash .cds = false → s.cds.ctl.phase = .busy i →
      step s = .next { s.takeTurn with cds := s.cds.resumeTurn i })

/-- The environment's moves (R10). A packet presented on a unit's port is neither lost nor executed early, whatever the
unit's phase (R12), and an answer of a transport or of the delay primitive is one answer more (R47, R120); each is put
behind those already there, and nothing else changes. That packets and answers wait as queues, in order, is the model's
choice (log entries 1 and 3). -/
def Obligations.PresentedPacketsAndAnswersWait : Prop :=
  ∀ (s : State) (rest : List Turn),
    (∀ packet, s.schedule = .present .msd packet :: rest → step s = .next { s with
      schedule := rest, msd := { s.msd with ctl := { s.msd.ctl with port := s.msd.ctl.port ++ [packet] } } }) ∧
    (∀ packet, s.schedule = .present .cds packet :: rest → step s = .next { s with
      schedule := rest, cds := { s.cds with ctl := { s.cds.ctl with port := s.cds.ctl.port ++ [packet] } } }) ∧
    (∀ r, s.schedule = .reply r :: rest → step s = .next { s with
      schedule := rest, msd := { s.msd with replies := s.msd.replies ++ [r] } }) ∧
    (∀ a, s.schedule = .ack a :: rest → step s = .next { s with
      schedule := rest, cds := { s.cds with acks := s.cds.acks ++ [a] } }) ∧
    (s.schedule = .delayDone :: rest → step s = .next { s with
      schedule := rest, cds := { s.cds with delays := s.cds.delays + 1 } })

/-- A BUSY unit accepts no packet: after a step that answers a next state its port still begins with every packet that
stood there, unless the step resets the unit, and the unit is still BUSY with the same command or has ended it with
exactly one response more (R12, R56, R143). The port as a queue is the model's choice (log entry 3). -/
def Obligations.BusyUnitAcceptsNoPacket : Prop :=
  ∀ (s t : State) (i : Instr), s.Inv → step s = .next t →
    (s.msd.ctl.phase = .busy i → s.turn ≠ .reset .msd →
      (∃ more, t.msd.ctl.port = s.msd.ctl.port ++ more) ∧
      ((t.msd.ctl.phase = .busy i ∧ t.msd.ctl.responses = s.msd.ctl.responses) ∨
       (t.msd.ctl.phase = .idle ∧ ∃ r, t.msd.ctl.responses = s.msd.ctl.responses ++ [r]))) ∧
    (s.cds.ctl.phase = .busy i → s.turn ≠ .reset .cds →
      (∃ more, t.cds.ctl.port = s.cds.ctl.port ++ more) ∧
      ((t.cds.ctl.phase = .busy i ∧ t.cds.ctl.responses = s.cds.ctl.responses) ∨
       (t.cds.ctl.phase = .idle ∧ ∃ r, t.cds.ctl.responses = s.cds.ctl.responses ++ [r])))

/-- A unit that is IDLE with nothing on its port changes nothing when its turn comes (R114). -/
def Obligations.IdleUnitWithoutPacketChangesNothing : Prop :=
  ∀ s : State,
    (s.turn = .run .msd → s.msd.bootDue = false → s.msd.ctl.phase = .idle → s.msd.ctl.port = [] →
      step s = .next s.takeTurn) ∧
    (s.turn = .run .cds → s.cds.ctl.phase = .idle → s.cds.ctl.port = [] → step s = .next s.takeTurn)

/-- The bus discipline (R137, D21): a step is refused exactly if both units are on one bus and it is the turn of a unit that
has something to do (a boot action, a command in progress, or a packet on its port) while the other unit is BUSY. In
particular no step is refused on distinct buses, none on a turn while the other unit is IDLE, and no move of the environment
and no reset. That equal bus numbers are one bus (log entry 7), that an illegal packet counts as a command (log entry 27) and
that a reset ends what was in flight (log entry 32) are the model's choices. -/
def Obligations.SharedBusIsSerialised : Prop :=
  ∀ (s : State) (r : Refusal), step s = .refused r ↔
    r = .busNotSerialised ∧ s.msd.params.bus = s.cds.params.bus ∧
    ((s.turn = .run .msd ∧ s.cds.ctl.phase ≠ .idle ∧
        (s.msd.ctl.phase ≠ .idle ∨ s.msd.bootDue = true ∨ s.msd.ctl.port ≠ [])) ∨
      (s.turn = .run .cds ∧ s.msd.ctl.phase ≠ .idle ∧ (s.cds.ctl.phase ≠ .idle ∨ s.cds.ctl.port ≠ [])))

/-- Every command, on every state, is answered with a next state: exec never stops (R113, R116, R118, R140). -/
def Obligations.ExecAlwaysAnswersNext : Prop :=
  ∀ (i : Instr) (s : State), ∃ t, exec i s = .next t

/-- A command that was accepted is over with exactly one response more, or its unit is BUSY with it and no response was
delivered; the other unit is as it was (R12, R56). -/
def Obligations.OneResponseOrStillBusy : Prop :=
  ∀ (i : Instr) (s t : State), exec i s = .next t →
    (i.unit = .msd → t.cds = s.cds ∧
      ((t.msd.ctl.phase = .idle ∧ t.msd.ctl.upc = 0 ∧ ∃ r, t.msd.ctl.responses = s.msd.ctl.responses ++ [r]) ∨
       (t.msd.ctl.phase = .busy i ∧ t.msd.ctl.responses = s.msd.ctl.responses ∧ t.msd.replies = []))) ∧
    (i.unit = .cds → t.msd = s.msd ∧
      ((t.cds.ctl.phase = .idle ∧ t.cds.ctl.upc = 0 ∧ ∃ r, t.cds.ctl.responses = s.cds.ctl.responses ++ [r]) ∨
       (t.cds.ctl.phase = .busy i ∧ t.cds.ctl.responses = s.cds.ctl.responses ∧
        (t.cds.acks = [] ∨ t.cds.delays = 0))))

/-! ## Operand functions and tables -/

/-- R80: `asm16(hi, lo) = 256 * hi + lo`, the OR of the shifted high byte and the low byte in 16 bits. -/
def Obligations.WordAssemblyIsHighTimes256PlusLow : Prop :=
  ∀ hi lo : Byte,
    asm16 hi lo = (hi.setWidth 16 <<< 8) ||| lo.setWidth 16 ∧
    (asm16 hi lo).toNat = 256 * hi.toNat + lo.toNat ∧ (asm16 hi lo).toNat ≤ 65535

/-- R81: `s16` is the two's-complement reinterpretation, total, injective, with range exactly -32768 to 32767, and
congruent to its argument modulo 65536. -/
def Obligations.SignedReinterpretation : Prop :=
  (∀ v : Word, v.toNat < 32768 → s16 v = v.toNat) ∧
  (∀ v : Word, 32768 ≤ v.toNat → s16 v = (v.toNat : Int) - 65536 ∧ s16 v = -(65536 - (v.toNat : Int))) ∧
  (∀ v : Word, s16 v = v.toInt) ∧
  (∀ v w : Word, s16 v = s16 w → v = w) ∧
  (∀ x : Int, (∃ v : Word, s16 v = x) ↔ -32768 ≤ x ∧ x ≤ 32767) ∧
  (∀ v : Word, s16 v % 65536 = v.toNat)

/-- R84: the range lookup compares the whole byte; every byte but the four codes gives -1. -/
def Obligations.RangeLookup : Prop :=
  (accelRange 0x00 = 2 ∧ accelRange 0x08 = 4 ∧ accelRange 0x10 = 8 ∧ accelRange 0x18 = 16) ∧
  (gyroRange 0x00 = 250 ∧ gyroRange 0x08 = 500 ∧ gyroRange 0x10 = 1000 ∧ gyroRange 0x18 = 2000) ∧
  ∀ raw : Byte, raw ∉ ([0x00, 0x08, 0x10, 0x18] : List Byte) → accelRange raw = -1 ∧ gyroRange raw = -1

/-- R85, R86: the scale modifiers, with the fallback for every byte but the four codes. -/
def Obligations.ScaleModifiers : Prop :=
  (accelScale 0x00 = (16384, false) ∧ accelScale 0x08 = (8192, false) ∧ accelScale 0x10 = (4096, false) ∧
    accelScale 0x18 = (2048, false)) ∧
  (gyroScale 0x00 = (131, false) ∧ gyroScale 0x08 = (655 / 10, false) ∧ gyroScale 0x10 = (328 / 10, false) ∧
    gyroScale 0x18 = (164 / 10, false)) ∧
  ∀ raw : Byte, raw ∉ ([0x00, 0x08, 0x10, 0x18] : List Byte) →
    accelScale raw = (16384, true) ∧ gyroScale raw = (131, true)

/-- R59: the two nibbleBytes of a byte and a mode, by formula and bit by bit. -/
def Obligations.NibbleSplit : Prop :=
  ∀ cmd mode : Byte,
    highNibble cmd mode = (cmd &&& 0xF0) ||| mode ∧
    lowNibble cmd mode = ((cmd <<< 4) &&& 0xF0) ||| mode ∧
    (∀ k, k < 4 → (highNibble cmd mode).getLsbD (k + 4) = (cmd.getLsbD (k + 4) || mode.getLsbD (k + 4)) ∧
      (lowNibble cmd mode).getLsbD (k + 4) = (cmd.getLsbD k || mode.getLsbD (k + 4)) ∧
      (highNibble cmd mode).getLsbD k = mode.getLsbD k ∧ (lowNibble cmd mode).getLsbD k = mode.getLsbD k) ∧
    (mode = 0x00 ∨ mode = 0x01 → (highNibble cmd mode) &&& 0xF0 = cmd &&& 0xF0)

/-- R96: the three written forms of a nibbleByte, and what follows from them. -/
def Obligations.WrittenForms : Prop :=
  ∀ n : Byte,
    Form.settle.byte n = n ||| 0x08 ∧ Form.high.byte n = n ||| 0x0C ∧ Form.low.byte n = (n &&& 0xFB) ||| 0x08 ∧
    (∀ f : Form, (f.byte n).getLsbD 3 = true) ∧
    (Form.high.byte n).getLsbD 2 = true ∧ (Form.low.byte n).getLsbD 2 = false ∧
    (∀ f : Form, ∀ k ∈ [0, 1, 4, 5, 6, 7], (f.byte n).getLsbD k = n.getLsbD k) ∧
    (n.getLsbD 2 = false → Form.settle.byte n = Form.low.byte n ∧ Form.high.byte n = Form.settle.byte n ||| 0x04)

/-- The line address table (R101), with `LINE1_ADDR` a parameter whose default is 0x08. -/
def Obligations.LineAddressTable : Prop :=
  ∀ line1 : Byte,
    lineAddr line1 1 = (line1, false) ∧ lineAddr line1 2 = (0xC0, false) ∧ lineAddr line1 3 = (0x94, false) ∧
    lineAddr line1 4 = (0xD4, false) ∧
    (∀ line : Byte, line = 0 ∨ 5 ≤ line.toNat → lineAddr line1 line = (line1, true)) ∧
    Config.cdsDefaults.line1Addr = 0x08

/-- The STATUS register bit by bit (R18), the hardwired CTRL register (R21) and the completion byte (R56), for every
content of the unit. -/
def Obligations.RegisterLayouts : Prop :=
  (∀ c : Ctl,
    c.status.getLsbD 0 = c.isBusy ∧ c.status.getLsbD 1 = c.flags.terr ∧ c.status.getLsbD 2 = c.flags.unk ∧
    c.status.getLsbD 3 = c.flags.badline ∧ c.status.getLsbD 4 = c.flags.ill ∧
    ∀ k, 5 ≤ k → c.status.getLsbD k = false) ∧
  (∀ c : Cds, ∀ k, c.ctrl.getLsbD k = decide (k = 3)) ∧
  (∀ (code : Code) (w : Warn),
    completionByte code w &&& 0x0F = code.bits ∧ (completionByte code w).getLsbD 4 = w.unkCfg ∧
    (completionByte code w).getLsbD 5 = w.badLine ∧ ∀ k, 6 ≤ k → (completionByte code w).getLsbD k = false)

/-! ## Numbers -/

/-- The temperature in exact arithmetic (R82, R87): with `trunc` the quotient is rounded toward zero, lies between -96 and
96, and has the sign of the reading or is 0; with `real` nothing is rounded. -/
def Obligations.TemperatureFormula : Prop :=
  ∀ raw : Int, -32768 ≤ raw → raw ≤ 32767 →
    (∃ q : Int, temperature .trunc .exact raw = q + 3653 / 100 ∧ -96 ≤ q ∧ q ≤ 96 ∧
      (0 ≤ raw → 340 * q ≤ raw ∧ raw < 340 * (q + 1)) ∧ (raw ≤ 0 → raw ≤ 340 * q ∧ 340 * (q - 1) < raw)) ∧
    temperature .real .exact raw = (raw : Rat) / 340 + 3653 / 100

/-- The bounds on the results (R94), in exact arithmetic, for every reading and every range byte. -/
def Obligations.BoundsOnResults : Prop :=
  ∀ (hi lo raw : Byte),
    (-32768 ≤ s16 (asm16 hi lo) ∧ s16 (asm16 hi lo) ≤ 32767) ∧
    (-5947 / 100 ≤ temperature .trunc .exact (s16 (asm16 hi lo)) ∧
      temperature .trunc .exact (s16 (asm16 hi lo)) ≤ 13253 / 100) ∧
    (-32768 / 340 + 3653 / 100 ≤ temperature .real .exact (s16 (asm16 hi lo)) ∧
      temperature .real .exact (s16 (asm16 hi lo)) ≤ 32767 / 340 + 3653 / 100) ∧
    (-16 ≤ accelAxis .exact true (accelScale raw).1 (s16 (asm16 hi lo)) ∧
      accelAxis .exact true (accelScale raw).1 (s16 (asm16 hi lo)) < 16) ∧
    (-1569064 / 10000 ≤ accelAxis .exact false (accelScale raw).1 (s16 (asm16 hi lo)) ∧
      accelAxis .exact false (accelScale raw).1 (s16 (asm16 hi lo)) < 1569064 / 10000) ∧
    (-32768 / (164 / 10) ≤ divideAxis .exact (gyroScale raw).1 (s16 (asm16 hi lo)) ∧
      divideAxis .exact (gyroScale raw).1 (s16 (asm16 hi lo)) ≤ 32767 / (164 / 10)) ∧
    ((gyroScale raw).1 = 131 → -25014 / 100 ≤ divideAxis .exact (gyroScale raw).1 (s16 (asm16 hi lo)) ∧
      divideAxis .exact (gyroScale raw).1 (s16 (asm16 hi lo)) ≤ 25013 / 100)

/-- The rounding of a quotient to an integer, the step inside every rounding to a format (R83): the result is within half a
unit of the exact value, and where it is exactly half a unit away it is even. -/
def Obligations.QuotientIsRoundedToNearestEven : Prop :=
  ∀ n d : Nat, 0 < d →
    2 * n ≤ (2 * divNearestEven n d + 1) * d ∧ (2 * divNearestEven n d) * d ≤ 2 * n + d ∧
    (2 * n = (2 * divNearestEven n d + 1) * d ∨ (2 * divNearestEven n d) * d = 2 * n + d →
      divNearestEven n d % 2 = 0)

/-- An integer operand converts exactly in both binary formats (R83): a raw `s16` and a truncated quotient are
integers. -/
def Obligations.IntegersConvertExactly : Prop :=
  ∀ z : Int, -65536 ≤ z → z ≤ 65536 → binary32.round z = z ∧ binary64.round z = z

/-- The rounding to `binary32` (24 bits of precision) and `binary64` (53 bits) (R83): the result is a number of the
format, none is nearer, and where another is as near, the result is an even multiple of the gap between the two. The
numbers of a format, subnormal ones included, are IEEE 754's, presumed by the model (log entry 17). -/
def Obligations.RoundingGivesTheNearestNumber : Prop :=
  binary32 = { prec := 24, ebits := 8 } ∧ binary64 = { prec := 53, ebits := 11 } ∧
  ∀ f ∈ [binary32, binary64], ∀ q : Rat,
    f.Represents (f.round q) ∧
    ∀ x, f.Represents x →
      |f.round q - q| ≤ |x - q| ∧
      (|f.round q - q| = |x - q| → x ≠ f.round q → ∃ k : Int, f.round q = 2 * k * (x - f.round q))

/-- The bytes of a `num` in a response (R56): four or eight of them, and they are the IEEE 754 encoding of the number
rounded to the format, the high byte first; zero is the positive zero. The encoding and that zero are presumed by the
model (log entry 17). -/
def Obligations.ImageEncodesTheRoundedNumber : Prop :=
  ∀ q : Rat, |q| ≤ 2 ^ 127 →
    NumValue.ofRat .exact q = .exact q ∧
    (∃ bs, NumValue.ofRat .binary32 q = .image bs ∧ bs.length = 4 ∧
      binary32.valueOf (numberOfBytes bs) = binary32.round q ∧ (q = 0 → numberOfBytes bs = 0)) ∧
    (∃ bs, NumValue.ofRat .binary64 q = .image bs ∧ bs.length = 8 ∧
      binary64.valueOf (numberOfBytes bs) = binary64.round q ∧ (q = 0 → numberOfBytes bs = 0))

/-- The formulas of the scaled results (R83, R87, R88, R92, R93): what `divideAxis`, `accelAxis` and `temperature` compute,
exactly, and in a binary format with every constant and every operation rounded once, in the order of the formulas. -/
def Obligations.ScaledResultsFollowTheFormulas : Prop :=
  (∀ (m : Rat) (raw : Int),
    divideAxis .exact m raw = raw / m ∧
    accelAxis .exact true m raw = raw / m ∧
    accelAxis .exact false m raw = raw / m * (196133 / 20000) ∧
    temperature .trunc .exact raw = (raw.tdiv 340 : Int) + 3653 / 100 ∧
    temperature .real .exact raw = raw / 340 + 3653 / 100) ∧
  ∀ (fmt : FloatFmt) (f : BinFmt) (m : Rat) (raw : Int), (fmt, f) ∈ [(FloatFmt.binary32, binary32), (.binary64, binary64)] →
    divideAxis fmt m raw = f.round (raw / f.round m) ∧
    accelAxis fmt true m raw = f.round (raw / f.round m) ∧
    accelAxis fmt false m raw = f.round (f.round (raw / f.round m) * f.round (196133 / 20000)) ∧
    temperature .trunc fmt raw = f.round ((raw.tdiv 340 : Int) + f.round (3653 / 100)) ∧
    temperature .real fmt raw = f.round (f.round (raw / f.round 340) + f.round (3653 / 100))

/-! ## The MSD's commands, every transaction answered `ok` -/

/-- WAKE (R72): one write of zero to 0x6B, response 00; nothing else changes. That the registers keep their values where
the command does not write them, and after it, is the model's choice (log entry 25). -/
def Obligations.WakeCompletes : Prop :=
  ∀ (s : State) (b : Byte) (rs : List Reply), s.msd.replies = .ok b :: rs →
    exec .wake s = .next { s with msd := { s.msd with
      replies := rs, ctl := s.msd.ctl.ended [.wr 0x6B 0x00] s.msd.ctl.flags 0x00 (.bytes []) } }

/-- READ_WORD (R71, R73): the high byte is read first, from `a`, and the low byte from `a + 1`; the response is the two
bytes as read; the registers written are OPA, HI, LO, W and V0. That the registers keep their values where the command
does not write them, and after it, is the model's choice (log entry 25). -/
def Obligations.ReadWordCompletes : Prop :=
  ∀ (s : State) (a h l : Byte) (rs : List Reply), a ≠ 0xFF → s.msd.replies = .ok h :: .ok l :: rs →
    exec (.readWord a) s = .next { s with msd := { s.msd with
      replies := rs
      regs := { s.msd.regs with opa := a, hi := h, lo := l, w := asm16 h l, v0 := s16 (asm16 h l) }
      ctl := s.msd.ctl.ended [.rd a h, .rd (a + 1) l] s.msd.ctl.flags 0x00 (.bytes [h, l]) } }

/-- READ_RAW_ACCEL_RANGE and READ_RAW_GYRO_RANGE (R74, R75): one read, the byte returned as read, no warning; the
register written is RNG. That the registers keep their values where the command does not write them, and after it, is
the model's choice (log entry 25). -/
def Obligations.ReadRawRangesComplete : Prop :=
  ∀ (s : State) (b : Byte) (rs : List Reply), s.msd.replies = .ok b :: rs →
    exec .readRawAccelRange s = .next { s with msd := { s.msd with
      replies := rs, regs := { s.msd.regs with rng := b }
      ctl := s.msd.ctl.ended [.rd 0x1C b] s.msd.ctl.flags 0x00 (.bytes [b]) } } ∧
    exec .readRawGyroRange s = .next { s with msd := { s.msd with
      replies := rs, regs := { s.msd.regs with rng := b }
      ctl := s.msd.ctl.ended [.rd 0x1B b] s.msd.ctl.flags 0x00 (.bytes [b]) } }

/-- SET_ACCEL_RANGE and SET_GYRO_RANGE (R76, R77, R138): always two writes, zero first, for every operand; the register
written is OPA. That the registers keep their values where the command does not write them, and after it, is the model's
choice (log entry 25). -/
def Obligations.SetRangesComplete : Prop :=
  ∀ (s : State) (a b b' : Byte) (rs : List Reply), s.msd.replies = .ok b :: .ok b' :: rs →
    exec (.setAccelRange a) s = .next { s with msd := { s.msd with
      replies := rs, regs := { s.msd.regs with opa := a }
      ctl := s.msd.ctl.ended [.wr 0x1C 0x00, .wr 0x1C a] s.msd.ctl.flags 0x00 (.bytes []) } } ∧
    exec (.setGyroRange a) s = .next { s with msd := { s.msd with
      replies := rs, regs := { s.msd.regs with opa := a }
      ctl := s.msd.ctl.ended [.wr 0x1B 0x00, .wr 0x1B a] s.msd.ctl.flags 0x00 (.bytes []) } }

/-- DECODE_ACCEL_RANGE and DECODE_GYRO_RANGE (R89, R90): no transaction and no warning, the result as two bytes, -1 as
FF FF; the register written is OPA. That the registers keep their values where the command does not write them, and
after it, is the model's choice (log entry 25). -/
def Obligations.DecodeRangesComplete : Prop :=
  ∀ (s : State) (a : Byte),
    exec (.decodeAccelRange a) s = .next { s with msd := { s.msd with
      regs := { s.msd.regs with opa := a }
      ctl := s.msd.ctl.ended [] s.msd.ctl.flags 0x00
        (.bytes (if accelRange a = -1 then [0xFF, 0xFF] else twoBytes (accelRange a).toNat)) } } ∧
    exec (.decodeGyroRange a) s = .next { s with msd := { s.msd with
      regs := { s.msd.regs with opa := a }
      ctl := s.msd.ctl.ended [] s.msd.ctl.flags 0x00
        (.bytes (if gyroRange a = -1 then [0xFF, 0xFF] else twoBytes (gyroRange a).toNat)) } }

/-- READ_TEMP (R91): the pair 0x41, 0x42 is read and the temperature returned under `TEMP_DIV` and `FLOAT_FMT`; the
registers written are HI, LO, W and V0. That the registers keep their values where the command does not write them, and
after it, is the model's choice (log entry 25). The bytes of a binary image and its rounding are IEEE 754's, presumed by
the model (log entry 17). -/
def Obligations.ReadTempCompletes : Prop :=
  ∀ (s : State) (h l : Byte) (rs : List Reply), s.msd.replies = .ok h :: .ok l :: rs →
    exec .readTemp s = .next { s with msd := { s.msd with
      replies := rs
      regs := { s.msd.regs with hi := h, lo := l, w := asm16 h l, v0 := s16 (asm16 h l) }
      ctl := s.msd.ctl.ended [.rd 0x41 h, .rd 0x42 l] s.msd.ctl.flags 0x00
        (.nums [NumValue.ofRat s.msd.params.floatFmt
          (temperature s.msd.params.tempDiv s.msd.params.floatFmt (s16 (asm16 h l)))]) } }

/-- GET_ACCEL_DATA (R92, R111): X, Y, Z and then the range byte are read; each axis is divided by the modifier of the
byte just read and, where bit 0 of the flags is 0, multiplied by standard gravity; an unknown byte sets UNK_CFG and
`UNK`, and the command still ends OK. The registers written are OPA, HI, LO, W, V0, V1, V2 and RNG. That the registers
keep their values where the command does not write them, and after it, is the model's choice (log entry 25). The bytes
of a binary image and its rounding are IEEE 754's, presumed by the model (log entry 17). -/
def Obligations.GetAccelDataCompletes : Prop :=
  ∀ (s : State) (a xh xl yh yl zh zl r : Byte) (rs : List Reply), a = 0x00 ∨ a = 0x01 →
    s.msd.replies = [xh, xl, yh, yl, zh, zl, r].map .ok ++ rs →
    exec (.getAccelData a) s = .next { s with msd := { s.msd with
      replies := rs
      regs := { opa := a, hi := zh, lo := zl, w := asm16 zh zl, v0 := s16 (asm16 xh xl), v1 := s16 (asm16 yh yl)
                v2 := s16 (asm16 zh zl), rng := r }
      ctl := s.msd.ctl.ended
        [.rd 0x3B xh, .rd 0x3C xl, .rd 0x3D yh, .rd 0x3E yl, .rd 0x3F zh, .rd 0x40 zl, .rd 0x1C r]
        { s.msd.ctl.flags with unk := s.msd.ctl.flags.unk || (accelScale r).2 }
        (if (accelScale r).2 then 0x10 else 0x00)
        (.nums ([(xh, xl), (yh, yl), (zh, zl)].map fun p =>
          NumValue.ofRat s.msd.params.floatFmt
            (accelAxis s.msd.params.floatFmt (a == 0x01) (accelScale r).1 (s16 (asm16 p.1 p.2))))) } }

/-- GET_GYRO_DATA (R93, R111): as GET_ACCEL_DATA with the gyroscope's registers and modifiers and no gravity. That the
registers keep their values where the command does not write them, and after it, is the model's choice (log entry 25).
The bytes of a binary image and its rounding are IEEE 754's, presumed by the model (log entry 17). -/
def Obligations.GetGyroDataCompletes : Prop :=
  ∀ (s : State) (xh xl yh yl zh zl r : Byte) (rs : List Reply),
    s.msd.replies = [xh, xl, yh, yl, zh, zl, r].map .ok ++ rs →
    exec .getGyroData s = .next { s with msd := { s.msd with
      replies := rs
      regs := { s.msd.regs with
        hi := zh, lo := zl, w := asm16 zh zl, v0 := s16 (asm16 xh xl), v1 := s16 (asm16 yh yl)
        v2 := s16 (asm16 zh zl), rng := r }
      ctl := s.msd.ctl.ended
        [.rd 0x43 xh, .rd 0x44 xl, .rd 0x45 yh, .rd 0x46 yl, .rd 0x47 zh, .rd 0x48 zl, .rd 0x1B r]
        { s.msd.ctl.flags with unk := s.msd.ctl.flags.unk || (gyroScale r).2 }
        (if (gyroScale r).2 then 0x10 else 0x00)
        (.nums ([(xh, xl), (yh, yl), (zh, zl)].map fun p =>
          NumValue.ofRat s.msd.params.floatFmt
            (divideAxis s.msd.params.floatFmt (gyroScale r).1 (s16 (asm16 p.1 p.2))))) } }

/-! ## The CDS's commands, every write and delay answered -/

/-- STROBE (R97): enable high, delay, enable low, delay; the register written is NIB. That the registers keep their
values where the command does not write them, and after it, is the model's choice (log entry 25). -/
def Obligations.StrobeCompletes : Prop :=
  ∀ (s : State) (a : Byte) (as : List Ack) (d : Nat),
    s.cds.acks = List.replicate 2 .ok ++ as → s.cds.delays = 2 + d →
    exec (.strobe a) s = .next { s with cds := { s.cds with
      acks := as, delays := d, regs := { s.cds.regs with nib := a }
      ctl := s.cds.ctl.ended [.raw (a ||| 0x0C), .dly, .raw ((a &&& 0xFB) ||| 0x08), .dly]
        s.cds.ctl.flags 0x00 (.bytes []) } }

/-- WRITE4BITS (R98): the settle write and the strobe, each write followed by a delay; the register written is NIB. That
the registers keep their values where the command does not write them, and after it, is the model's choice (log entry
25). -/
def Obligations.Write4BitsCompletes : Prop :=
  ∀ (s : State) (a : Byte) (as : List Ack) (d : Nat),
    s.cds.acks = List.replicate 3 .ok ++ as → s.cds.delays = 3 + d →
    exec (.write4Bits a) s = .next { s with cds := { s.cds with
      acks := as, delays := d, regs := { s.cds.regs with nib := a }
      ctl := s.cds.ctl.ended
        [.raw (a ||| 0x08), .dly, .raw (a ||| 0x0C), .dly, .raw ((a &&& 0xFB) ||| 0x08), .dly]
        s.cds.ctl.flags 0x00 (.bytes []) } }

/-- SEND_BYTE (R99): the high nibble, then the low nibble, for every byte and every mode; the registers written are CMD,
MODE, HALF and NIB. That the registers keep their values where the command does not write them, and after it, is the
model's choice (log entry 25). -/
def Obligations.SendByteCompletes : Prop :=
  ∀ (s : State) (a b : Byte) (as : List Ack) (d : Nat),
    s.cds.acks = List.replicate 6 .ok ++ as → s.cds.delays = 6 + d →
    exec (.sendByte a b) s = .next { s with cds := { s.cds with
      acks := as, delays := d
      regs := { s.cds.regs with cmd := a, mode := b, half := 1, nib := ((a <<< 4) &&& 0xF0) ||| b }
      ctl := s.cds.ctl.ended (sendByteEvents a b) s.cds.ctl.flags 0x00 (.bytes []) } }

/-- WRITE_STRING (R100, R101, R112): for every line and every text that fits, the address byte is sent as a command and
every text byte as data, in order; an invalid line sends line 1's address and sets BAD_LINE and `BADLINE`. LINE, LEN and
the first bytes of TXT hold the operands, CMD and MODE the byte sent last and its mode, HALF and NIB its low half; the
one other register that may change is IDX. That the registers keep their values where the command does not write them,
and after it, is the model's choice (log entry 25). That TXT keeps its old bytes beyond the text is the model's choice
too (log entry 19). -/
def Obligations.WriteStringCompletes : Prop :=
  ∀ (s : State) (line : Byte) (text : List Byte) (as : List Ack) (d : Nat),
    text.length ≤ s.cds.params.maxText → text.length ≤ 255 →
    s.cds.acks = List.replicate (6 * (1 + text.length)) .ok ++ as → s.cds.delays = 6 * (1 + text.length) + d →
    ∃ t, exec (.writeString line text) s = .next t ∧
      t.msd = s.msd ∧ t.schedule = s.schedule ∧ t.cds.params = s.cds.params ∧ t.cds.acks = as ∧ t.cds.delays = d ∧
      t.cds.regs.line = line ∧ t.cds.regs.len.toNat = text.length ∧
      t.cds.regs.txt = text ++ s.cds.regs.txt.drop text.length ∧
      t.cds.regs.cmd = text.getLastD (lineAddr s.cds.params.line1Addr line).1 ∧
      t.cds.regs.mode = (if text = [] then 0x00 else 0x01) ∧ t.cds.regs.half = 1 ∧
      t.cds.regs.nib = ((t.cds.regs.cmd <<< 4) &&& 0xF0) ||| t.cds.regs.mode ∧
      t.cds.ctl = s.cds.ctl.ended
        (sendByteEvents (lineAddr s.cds.params.line1Addr line).1 0x00 ++
          text.flatMap fun b => sendByteEvents b 0x01)
        { s.cds.ctl.flags with badline := s.cds.ctl.flags.badline || hasBadLine (.writeString line text) }
        (if hasBadLine (.writeString line text) then 0x20 else 0x00) (.bytes [])

/-- CLEAR (R102): CLEARDISPLAY, then RETURNHOME, both as commands; the registers written are CMD, MODE, HALF and NIB.
That the registers keep their values where the command does not write them, and after it, is the model's choice (log
entry 25). -/
def Obligations.ClearCompletes : Prop :=
  ∀ (s : State) (as : List Ack) (d : Nat),
    s.cds.acks = List.replicate 12 .ok ++ as → s.cds.delays = 12 + d →
    exec .clear s = .next { s with cds := { s.cds with
      acks := as, delays := d
      regs := { s.cds.regs with cmd := 0x02, mode := 0x00, half := 1, nib := 0x20 }
      ctl := s.cds.ctl.ended (sendByteEvents 0x01 0x00 ++ sendByteEvents 0x02 0x00) s.cds.ctl.flags 0x00
        (.bytes []) } }

/-- The number of micro-operations of every command: the MSD's (R72 to R77, R89 to R93) and the CDS's (R103 (b)); and in a CDS
command writes and delays alternate, a write first (R103 (a)). -/
def Obligations.MicroOperationCounts : Prop :=
  (∀ (i : Instr) (c : MsdCommand), msdCommand? i = some c → c.ops.length =
    match i.mnemonic with
    | .wake | .readRawAccelRange | .readRawGyroRange => 1
    | .readWord | .readTemp | .setAccelRange | .setGyroRange => 2
    | .getAccelData | .getGyroData => 7
    | _ => 0) ∧
  (∀ (i : Instr) (k : CdsCommand), cdsCommand? i = some k → k.ops.length =
    match i with
    | .strobe _ => 4
    | .write4Bits _ => 6
    | .sendByte _ _ => 12
    | .clear => 24
    | .writeString _ text => 12 * (1 + text.length)
    | _ => 0) ∧
  (∀ (i : Instr) (k : CdsCommand) (n : Nat) (op : CdsMicro), cdsCommand? i = some k → k.ops[n]? = some op →
    (op.out = .delay ↔ n % 2 = 1))

/-! ## Aborts, refusals and missing answers -/

/-- The operands R62 calls illegal, given to exec directly: no transaction, response 02, `ILL` set, nothing else
changes. No packet reaches exec with such operands; that exec answers them as the unit answers an illegal packet (R113)
is the model's choice (log entry 31), and so is that a text of more than 255 bytes is one of them whatever `MAX_TEXT` is
(log entry 30). -/
def Obligations.ReservedOperandsAreRefused : Prop :=
  ∀ (s : State) (a line : Byte) (text : List Byte),
    exec (.readWord 0xFF) s = .next { s with msd := { s.msd with
      ctl := s.msd.ctl.ended [] { s.msd.ctl.flags with ill := true } 0x02 (.bytes []) } } ∧
    (a &&& 0xFE ≠ 0x00 → exec (.getAccelData a) s = .next { s with msd := { s.msd with
      ctl := s.msd.ctl.ended [] { s.msd.ctl.flags with ill := true } 0x02 (.bytes []) } }) ∧
    (s.cds.params.maxText < text.length ∨ 255 < text.length → exec (.writeString line text) s = .next { s with cds := { s.cds with
      ctl := s.cds.ctl.ended [] { s.cds.ctl.flags with ill := true } 0x02 (.bytes []) } })

/-- The abort of an MSD command (R116, R117): the transactions before the failing one are in the trace, the failing one is
there as `-> ERR`, none after it is issued, `TERR` is set, and the response carries the failing index. -/
def Obligations.MsdCommandAbortsAtTheFirstError : Prop :=
  ∀ (s : State) (i : Instr) (c : MsdCommand) (bs : List Byte) (op : MsdMicro) (rs : List Reply),
    msdCommand? i = some c → i.wf s.cds.params.maxText = true → c.ops[bs.length]? = some op →
    s.msd.replies = bs.map .ok ++ .error :: rs →
    ∃ t, exec i s = .next t ∧
      t.cds = s.cds ∧ t.schedule = s.schedule ∧ t.msd.params = s.msd.params ∧ t.msd.bootDue = s.msd.bootDue ∧
      t.msd.replies = rs ∧
      t.msd.ctl = s.msd.ctl.ended
        ((c.capture s.msd.regs).eventsOf (c.ops.take bs.length) bs ++ [(c.capture s.msd.regs).errEvent op])
        { s.msd.ctl.flags with terr := true } 0x01 (.bytes (twoBytes bs.length))

/-- The abort of a CDS command (R116, R117): as of an MSD command, no delay follows the failed write, and the response also
reports an invalid line (R112). -/
def Obligations.CdsCommandAbortsAtTheFirstError : Prop :=
  ∀ (s : State) (i : Instr) (k : CdsCommand) (n : Nat) (v : Byte) (as : List Ack) (d : Nat),
    cdsCommand? i = some k → i.wf s.cds.params.maxText = true →
    ((k.capture s.cds.regs).eventsOf s.cds.params.line1Addr k.ops)[2 * n]? = some (.raw v) →
    s.cds.acks = List.replicate n .ok ++ .error :: as → s.cds.delays = n + d →
    ∃ t, exec i s = .next t ∧
      t.msd = s.msd ∧ t.schedule = s.schedule ∧ t.cds.params = s.cds.params ∧ t.cds.acks = as ∧ t.cds.delays = d ∧
      t.cds.ctl = s.cds.ctl.ended
        (((k.capture s.cds.regs).eventsOf s.cds.params.line1Addr k.ops).take (2 * n) ++ [.rawErr v])
        { s.cds.ctl.flags with terr := true, badline := s.cds.ctl.flags.badline || hasBadLine i }
        (if hasBadLine i then 0x21 else 0x01) (.bytes (twoBytes (2 * n)))

/-- A transaction of an MSD command that is not answered (R140): the MSD is BUSY with `upc` at it, the transactions
before it are in the trace, and no response is delivered. That the request without an answer is not in the trace is the
model's choice (log entry 16). -/
def Obligations.MsdCommandWaitsForAMissingAnswer : Prop :=
  ∀ (s : State) (i : Instr) (c : MsdCommand) (bs : List Byte),
    msdCommand? i = some c → i.wf s.cds.params.maxText = true → bs.length < c.ops.length →
    s.msd.replies = bs.map .ok →
    ∃ t, exec i s = .next t ∧
      t.cds = s.cds ∧ t.schedule = s.schedule ∧ t.msd.params = s.msd.params ∧ t.msd.bootDue = s.msd.bootDue ∧
      t.msd.replies = [] ∧
      t.msd.ctl = s.msd.ctl.waitsAt i bs.length ((c.capture s.msd.regs).eventsOf (c.ops.take bs.length) bs)
        s.msd.ctl.flags Warn.none

/-- A write or delay of a CDS command that is not answered (R120, R140): the CDS is BUSY with `upc` at it and no
response is delivered. The write `2 n` is reached with `n` writes and `n` delays answered, the delay `2 n + 1` with one
write more. That the request without an answer is not in the trace is the model's choice (log entry 16). So is that
`BADLINE` is 1 already while the command waits (log entry 20). -/
def Obligations.CdsCommandWaitsForAMissingAnswer : Prop :=
  ∀ (s : State) (i : Instr) (k : CdsCommand) (n m : Nat) (as : List Ack) (d : Nat),
    cdsCommand? i = some k → i.wf s.cds.params.maxText = true → m < k.ops.length →
    ((m = 2 * n ∧ s.cds.acks = List.replicate n .ok ∧ as = [] ∧ s.cds.delays = n + d) ∨
     (m = 2 * n + 1 ∧ s.cds.acks = List.replicate (n + 1) .ok ++ as ∧ s.cds.delays = n ∧ d = 0)) →
    ∃ t, exec i s = .next t ∧
      t.msd = s.msd ∧ t.schedule = s.schedule ∧ t.cds.params = s.cds.params ∧ t.cds.acks = as ∧ t.cds.delays = d ∧
      t.cds.ctl = s.cds.ctl.waitsAt i m (((k.capture s.cds.regs).eventsOf s.cds.params.line1Addr k.ops).take m)
        { s.cds.ctl.flags with badline := s.cds.ctl.flags.badline || hasBadLine i }
        { unkCfg := false, badLine := hasBadLine i }

/-! ## Boot and reset -/

/-- The boot action (R135): on its turns the MSD performs the write of WAKE and nothing else; no response is delivered, no
packet is accepted, a failure sets `TERR`, and after the answer the MSD is IDLE, ready for its first command. While the write
is not answered it is BUSY, and its turn changes nothing more (R140). That it is IDLE before the write is issued, and BUSY
though no command was accepted, is the model's choice (log entry 6), and that the write without an answer is not in the trace
is too (log entry 16). -/
def Obligations.BootActionComesFirst : Prop :=
  ∀ (s : State), s.turn = .run .msd → s.busClash .msd = false →
    (s.msd.ctl.phase = .idle ∧ s.msd.bootDue = true) ∨ s.msd.ctl.phase = .booting →
    (∀ b rs, s.msd.replies = .ok b :: rs → step s = .next { s.takeTurn with msd := { s.msd with
      bootDue := false, replies := rs
      ctl := { s.msd.ctl with phase := .idle, trace := s.msd.ctl.trace ++ [.wr 0x6B 0x00] } } }) ∧
    (∀ rs, s.msd.replies = .error :: rs → step s = .next { s.takeTurn with msd := { s.msd with
      bootDue := false, replies := rs
      ctl := { s.msd.ctl with
        phase := .idle, trace := s.msd.ctl.trace ++ [.wrErr 0x6B 0x00]
        flags := { s.msd.ctl.flags with terr := true } } } }) ∧
    (s.msd.replies = [] → ∃ t, step s = .next t ∧ (t.status .msd).getLsbD 0 = true ∧
      t = { s.takeTurn with msd := { s.msd with bootDue := false, ctl := { s.msd.ctl with phase := .booting } } })

/-- Reset of a unit (R130, R132, R135), also while BUSY: it is IDLE with `upc` 0, no flag, no warning and an empty
trace, and the command in progress gets no response; the MSD's boot action is due exactly if `AUTO_WAKE`; the parameters
stay, and the other unit is untouched. That the MSD is IDLE already while its boot action is due is the model's choice
(log entry 6): R26 calls it IDLE after the boot action. That the list of responses delivered before is emptied, and that
the packets and answers the environment holds stay, is the model's choice too (log entry 10). -/
def Obligations.ResetClearsOneUnit : Prop :=
  ∀ (s : State) (rest : List Turn),
    (s.schedule = .reset .msd :: rest → ∃ t, step s = .next t ∧ t.cds = s.cds ∧ t.schedule = rest ∧
      t.msd.params = s.msd.params ∧ t.msd.bootDue = s.msd.params.autoWake ∧
      t.msd.ctl = { phase := .idle, upc := 0, flags := Flags.none, warn := Warn.none, trace := [], responses := [],
                    port := s.msd.ctl.port } ∧ t.msd.replies = s.msd.replies) ∧
    (s.schedule = .reset .cds :: rest → ∃ t, step s = .next t ∧ t.msd = s.msd ∧ t.schedule = rest ∧
      t.cds.params = s.cds.params ∧
      t.cds.ctl = { phase := .idle, upc := 0, flags := Flags.none, warn := Warn.none, trace := [], responses := [],
                    port := s.cds.ctl.port } ∧ t.cds.acks = s.cds.acks ∧ t.cds.delays = s.cds.delays)

/-- The reset state (R4, R26): both units IDLE with `upc` 0, `STATUS` 0x00 and an empty trace, the boot action due, and
the default parameters. That the MSD is IDLE with `STATUS` 0x00 while its boot action is still due is the model's choice
(log entry 6): R26 calls it IDLE after the boot action. That `BUS` and `CDS_ADDR`, which have no default, are opaque
constants, the same `BUS` for both units, is the model's choice too (log entry 8). -/
def Obligations.ResetStateOfTheSpec : Prop :=
  State.reset.status .msd = 0x00 ∧ State.reset.status .cds = 0x00 ∧
  State.reset.msd.ctl.phase = .idle ∧ State.reset.cds.ctl.phase = .idle ∧
  State.reset.msd.ctl.upc = 0 ∧ State.reset.cds.ctl.upc = 0 ∧
  State.reset.msd.ctl.trace = [] ∧ State.reset.cds.ctl.trace = [] ∧
  State.reset.msd.bootDue = true ∧ State.reset.cds.ctrl = 0x08 ∧
  State.reset.msd.params.addr = 0x68 ∧ State.reset.msd.params.autoWake = true ∧
  State.reset.msd.params.tempDiv = .trunc ∧ State.reset.msd.params.floatFmt = .exact ∧
  State.reset.cds.params.line1Addr = 0x08 ∧ State.reset.cds.params.delayMs.val = 1 ∧
  State.reset.cds.params.maxText = 255 ∧
  State.reset.msd.params.bus = Config.openBus ∧ State.reset.cds.params.bus = Config.openBus ∧
  State.reset.cds.params.addr = Config.openCdsAddr

/-! ## Every step -/

/-- The reset state meets the invariant. -/
def Obligations.ResetMeetsTheInvariant : Prop := State.reset.Inv

/-- Every step keeps the invariant: the phase and `upc` (R12, R16), the sticky flags as the OR of the outcomes (R20), the
completion bytes (R56), the shape of the traces (R11, R103), the backlight (R21), the ranges of the registers (R13, R14)
and the boot action (R135, R140). Four clauses are the model's choice: IDLE before the boot write is issued (log entry 6), no
pending request in a trace (log entry 16), `TXT` of `MAX_TEXT` bytes and `IDX` at rest (log entry 19), and `BADLINE` set
before the response (log entry 20). -/
def Obligations.StepKeepsTheInvariant : Prop :=
  ∀ s t : State, s.Inv → step s = .next t → t.Inv

/-- No step changes a parameter or binding register (R4, R22). -/
def Obligations.ParametersNeverChange : Prop :=
  ∀ s t : State, step s = .next t → t.msd.params = s.msd.params ∧ t.cds.params = s.cds.params

/-- A sticky flag is cleared by the reset of its unit and by nothing else (R18). -/
def Obligations.StickyFlagsClearedOnlyByReset : Prop :=
  ∀ s t : State, step s = .next t →
    (s.turn ≠ .reset .msd → s.msd.ctl.flags.le t.msd.ctl.flags) ∧
    (s.turn ≠ .reset .cds → s.cds.ctl.flags.le t.cds.ctl.flags)

/-- Without a reset of the unit, its trace and its responses only grow at their ends (R8, R43). -/
def Obligations.TracesAndResponsesOnlyGrow : Prop :=
  ∀ s t : State, step s = .next t →
    (s.turn ≠ .reset .msd → s.msd.ctl.trace <+: t.msd.ctl.trace ∧ s.msd.ctl.responses <+: t.msd.ctl.responses) ∧
    (s.turn ≠ .reset .cds → s.cds.ctl.trace <+: t.cds.ctl.trace ∧ s.cds.ctl.responses <+: t.cds.ctl.responses)

/-- The units share no state (R124): a command of one unit leaves the other and the schedule untouched, and what it does
does not depend on the other. -/
def Obligations.UnitsAreIndependent : Prop :=
  ∀ (i : Instr) (s t : State), exec i s = .next t →
    (i.unit = .msd → t.cds = s.cds ∧ t.schedule = s.schedule ∧
      ∀ c : Cds, exec i { s with cds := c } = .next { t with cds := c }) ∧
    (i.unit = .cds → t.msd = s.msd ∧ t.schedule = s.schedule ∧
      ∀ m : Msd, exec i { s with msd := m } = .next { t with msd := m })

/-- What a command does depends on no working register and no sticky flag it finds (R15, R19, R23): from two states that
agree otherwise it goes to two states that agree otherwise. -/
def Obligations.OldRegistersAndFlagsDoNotMatter : Prop :=
  ∀ (i : Instr) (s s' t t' : State), s.forget = s'.forget → exec i s = .next t → exec i s' = .next t' →
    t.forget = t'.forget

/-- Answers that come late do what answers that come at once do (R43, R47): if an MSD command, given the answers `rs`,
still waits, then going on with the answers `rs'` ends where the command given `rs ++ rs'` ends. -/
def Obligations.LateAnswersContinueAnMsdCommand : Prop :=
  ∀ (i : Instr) (c : MsdCommand) (m : Msd) (rs rs' : List Reply), msdCommand? i = some c →
    ({ m with replies := rs }.start i c).ctl.isBusy = true →
    { m with replies := rs ++ rs' }.start i c = { { m with replies := rs }.start i c with replies := rs' }.resumeTurn i

/-- The same of a CDS command, with its writes and delays (R43, R47, R120). -/
def Obligations.LateAnswersContinueACdsCommand : Prop :=
  ∀ (i : Instr) (k : CdsCommand) (c c' : Cds) (as as' : List Ack) (d d' : Nat), cdsCommand? i = some k →
    c' = { c with acks := as, delays := d }.start i k → c'.ctl.isBusy = true →
    { c with acks := as ++ as', delays := d + d' }.start i k =
      { c' with acks := c'.acks ++ as', delays := c'.delays + d' }.resumeTurn i

/-- The least time the delays of a command take (R120, R144), for any `DELAY_MS`, when the command completes. -/
def Obligations.DelaysTakeAtLeastTheirTime : Prop :=
  ∀ (s t : State) (i : Instr) (k : CdsCommand) (n : Nat) (as : List Ack) (d : Nat),
    cdsCommand? i = some k → i.wf s.cds.params.maxText = true → k.ops.length = 2 * n →
    s.cds.acks = List.replicate n .ok ++ as → s.cds.delays = n + d → exec i s = .next t →
    minDelayMs s.cds.params.delayMs t.cds.ctl.trace =
      minDelayMs s.cds.params.delayMs s.cds.ctl.trace + s.cds.params.delayMs.val * n ∧
    (n : Int) = match i with
      | .strobe _ => 2
      | .write4Bits _ => 3
      | .sendByte _ _ => 6
      | .clear => 12
      | .writeString _ text => 6 * (1 + (text.length : Int))
      | _ => 0

/-- The byte sent is recovered from the six writes that SEND_BYTE appends to the trace (R103 (c), (d), (e)): with the mode's
bit 2 clear, the settle and low writes of a half are equal and the high write is the same with bit 2 set; with the mode's
bits 7:4 zero the settle writes give the byte back; and under both modes the source names no byte written has bit 1 set. -/
def Obligations.SentByteIsRecoveredFromItsTrace : Prop :=
  ∀ (s : State) (cmd mode : Byte) (as : List Ack) (d : Nat),
    s.cds.acks = List.replicate 6 .ok ++ as → s.cds.delays = 6 + d →
    ∃ (t : State) (h h' h'' l l' l'' : Byte), exec (.sendByte cmd mode) s = .next t ∧
      t.cds.ctl.trace = s.cds.ctl.trace ++
        [.raw h, .dly, .raw h', .dly, .raw h'', .dly, .raw l, .dly, .raw l', .dly, .raw l'', .dly] ∧
      (mode.getLsbD 2 = false → h'' = h ∧ h' = h ||| 0x04 ∧ l'' = l ∧ l' = l ||| 0x04) ∧
      (mode &&& 0xF0 = 0x00 → cmd = (h &&& 0xF0) ||| (l >>> 4)) ∧
      (mode = 0x00 ∨ mode = 0x01 → ∀ v ∈ [h, h', h'', l, l', l''], v.getLsbD 1 = false)

/-- The assembler (R64 to R66): every symbol with its spelling and its byte; numbers and symbols as operand bytes of every
command with one or two of them; the text first in WRITE_STRING; GET_ACCEL_DATA without an operand; and lines and a program
read from their characters. Where blanks may stand is the model's choice (log entry 28). -/
def Obligations.AssemblerLines : Prop :=
  AsmSymbol.all.map (fun x => (x.spelling, x.value)) =
    [("ACCEL_RANGE_2G", 0x00), ("ACCEL_RANGE_4G", 0x08), ("ACCEL_RANGE_8G", 0x10), ("ACCEL_RANGE_16G", 0x18),
     ("GYRO_RANGE_250", 0x00), ("GYRO_RANGE_500", 0x08), ("GYRO_RANGE_1000", 0x10), ("GYRO_RANGE_2000", 0x18),
     ("GYRO_CONFIG", 0x1B), ("ACCEL_CONFIG", 0x1C), ("ACCEL_XOUT", 0x3B), ("ACCEL_YOUT", 0x3D), ("ACCEL_ZOUT", 0x3F),
     ("TEMP_OUT", 0x41), ("GYRO_XOUT", 0x43), ("GYRO_YOUT", 0x45), ("GYRO_ZOUT", 0x47), ("PWR_MGMT_1", 0x6B)] ++
    [("CLEARDISPLAY", 0x01), ("RETURNHOME", 0x02), ("ENTRYMODESET", 0x04), ("DISPLAYCONTROL", 0x08),
     ("CURSORSHIFT", 0x10), ("FUNCTIONSET", 0x20), ("SETCGRAMADDR", 0x40), ("SETDDRAMADDR", 0x80),
     ("ENABLE", 0x04), ("READWRITE", 0x02), ("REGISTERSELECT", 0x01), ("BACKLIGHT", 0x08),
     ("MODE_COMMAND", 0x00), ("MODE_DATA", 0x01)] ∧
  (∀ x : AsmSymbol, x ∈ AsmSymbol.all ∧ (AsmOperand.symbol x).byte? = some x.value) ∧
  (∀ n : Nat, (AsmOperand.number n).byte? = if n < 256 then some (BitVec.ofNat 8 n) else none) ∧
  (∀ a b : AsmOperand,
    assemble .readWord [a] = a.byte?.map .readWord ∧ assemble .setAccelRange [a] = a.byte?.map .setAccelRange ∧
    assemble .setGyroRange [a] = a.byte?.map .setGyroRange ∧
    assemble .decodeAccelRange [a] = a.byte?.map .decodeAccelRange ∧
    assemble .decodeGyroRange [a] = a.byte?.map .decodeGyroRange ∧
    assemble .getAccelData [a] = a.byte?.map .getAccelData ∧ assemble .strobe [a] = a.byte?.map .strobe ∧
    assemble .write4Bits [a] = a.byte?.map .write4Bits ∧
    assemble .sendByte [a, b] = (a.byte?.bind fun x => b.byte?.map (.sendByte x)) ∧
    assemble .writeString [a, b] = (a.text?.bind fun text => b.byte?.map fun line => .writeString line text)) ∧
  assemble .getAccelData [] = some (.getAccelData 0x00) ∧
  assembleLine "READ_WORD 0x3B".toList = some (.readWord 0x3B) ∧
  assembleLine "SET_ACCEL_RANGE 8".toList = some (.setAccelRange 0x08) ∧
  assembleLine "SET_ACCEL_RANGE ACCEL_RANGE_4G".toList = some (.setAccelRange 0x08) ∧
  assembleLine "GET_ACCEL_DATA".toList = some (.getAccelData 0x00) ∧
  assembleLine "SEND_BYTE 0xAB, 0x00".toList = some (.sendByte 0xAB 0x00) ∧
  assembleLine "WRITE_STRING \"HI\", 2".toList = some (.writeString 0x02 [0x48, 0x49]) ∧
  assembleLine "WRITE_STRING [0x48, 0x49], 2".toList = some (.writeString 0x02 [0x48, 0x49]) ∧
  assembleProgram .cds "CLEAR\nWRITE_STRING \"HI\", 2".toList = some [.clear, .writeString 0x02 [0x48, 0x49]]
end

