-- ==== Sys2Proof/Laws/State.lean ====
section
/-! SUPPORT. Laws/State.lean: one lemma per field and update of the state, each true by unfolding, so that no later proof
unfolds a record update. -/

namespace Sys2Proof.Machine

/-! `Ctl.accept` -/

@[simp] theorem Ctl.accept_phase (c : Ctl) (i : Instr) :
    (c.accept i).phase = .busy i := rfl

@[simp] theorem Ctl.accept_upc (c : Ctl) (i : Instr) :
    (c.accept i).upc = 0 := rfl

@[simp] theorem Ctl.accept_flags (c : Ctl) (i : Instr) :
    (c.accept i).flags = c.flags := rfl

@[simp] theorem Ctl.accept_warn (c : Ctl) (i : Instr) :
    (c.accept i).warn = Warn.none := rfl

@[simp] theorem Ctl.accept_trace (c : Ctl) (i : Instr) :
    (c.accept i).trace = c.trace := rfl

@[simp] theorem Ctl.accept_responses (c : Ctl) (i : Instr) :
    (c.accept i).responses = c.responses := rfl

@[simp] theorem Ctl.accept_port (c : Ctl) (i : Instr) :
    (c.accept i).port = c.port := rfl

/-! `Ctl.log` -/

@[simp] theorem Ctl.log_phase (c : Ctl) (e : Event) :
    (c.log e).phase = c.phase := rfl

@[simp] theorem Ctl.log_upc (c : Ctl) (e : Event) :
    (c.log e).upc = c.upc := rfl

@[simp] theorem Ctl.log_flags (c : Ctl) (e : Event) :
    (c.log e).flags = c.flags := rfl

@[simp] theorem Ctl.log_warn (c : Ctl) (e : Event) :
    (c.log e).warn = c.warn := rfl

@[simp] theorem Ctl.log_trace (c : Ctl) (e : Event) :
    (c.log e).trace = c.trace ++ [e] := rfl

@[simp] theorem Ctl.log_responses (c : Ctl) (e : Event) :
    (c.log e).responses = c.responses := rfl

@[simp] theorem Ctl.log_port (c : Ctl) (e : Event) :
    (c.log e).port = c.port := rfl

/-! `Ctl.advance` -/

@[simp] theorem Ctl.advance_phase (c : Ctl) :
    (c.advance).phase = c.phase := rfl

@[simp] theorem Ctl.advance_upc (c : Ctl) :
    (c.advance).upc = c.upc + 1 := rfl

@[simp] theorem Ctl.advance_flags (c : Ctl) :
    (c.advance).flags = c.flags := rfl

@[simp] theorem Ctl.advance_warn (c : Ctl) :
    (c.advance).warn = c.warn := rfl

@[simp] theorem Ctl.advance_trace (c : Ctl) :
    (c.advance).trace = c.trace := rfl

@[simp] theorem Ctl.advance_responses (c : Ctl) :
    (c.advance).responses = c.responses := rfl

@[simp] theorem Ctl.advance_port (c : Ctl) :
    (c.advance).port = c.port := rfl

/-! `Ctl.respond` -/

@[simp] theorem Ctl.respond_phase (c : Ctl) (code : Code) (p : Payload) :
    (c.respond code p).phase = .idle := rfl

@[simp] theorem Ctl.respond_upc (c : Ctl) (code : Code) (p : Payload) :
    (c.respond code p).upc = 0 := rfl

@[simp] theorem Ctl.respond_flags (c : Ctl) (code : Code) (p : Payload) :
    (c.respond code p).flags = c.flags := rfl

@[simp] theorem Ctl.respond_warn (c : Ctl) (code : Code) (p : Payload) :
    (c.respond code p).warn = Warn.none := rfl

@[simp] theorem Ctl.respond_trace (c : Ctl) (code : Code) (p : Payload) :
    (c.respond code p).trace = c.trace := rfl

@[simp] theorem Ctl.respond_responses (c : Ctl) (code : Code) (p : Payload) :
    (c.respond code p).responses = c.responses ++ [⟨completionByte code c.warn, p⟩] := rfl

@[simp] theorem Ctl.respond_port (c : Ctl) (code : Code) (p : Payload) :
    (c.respond code p).port = c.port := rfl

/-! `Ctl.abort` -/

@[simp] theorem Ctl.abort_phase (c : Ctl) :
    (c.abort).phase = .idle := rfl

@[simp] theorem Ctl.abort_upc (c : Ctl) :
    (c.abort).upc = 0 := rfl

@[simp] theorem Ctl.abort_flags (c : Ctl) :
    (c.abort).flags = { c.flags with terr := true } := rfl

@[simp] theorem Ctl.abort_warn (c : Ctl) :
    (c.abort).warn = Warn.none := rfl

@[simp] theorem Ctl.abort_trace (c : Ctl) :
    (c.abort).trace = c.trace := rfl

@[simp] theorem Ctl.abort_responses (c : Ctl) :
    (c.abort).responses = c.responses ++ [⟨completionByte .transportError c.warn, .bytes (bytesOfU16 c.upc)⟩] := rfl

@[simp] theorem Ctl.abort_port (c : Ctl) :
    (c.abort).port = c.port := rfl

/-! `Ctl.illegal` -/

@[simp] theorem Ctl.illegal_phase (c : Ctl) :
    (c.illegal).phase = .idle := rfl

@[simp] theorem Ctl.illegal_upc (c : Ctl) :
    (c.illegal).upc = 0 := rfl

@[simp] theorem Ctl.illegal_flags (c : Ctl) :
    (c.illegal).flags = { c.flags with ill := true } := rfl

@[simp] theorem Ctl.illegal_warn (c : Ctl) :
    (c.illegal).warn = Warn.none := rfl

@[simp] theorem Ctl.illegal_trace (c : Ctl) :
    (c.illegal).trace = c.trace := rfl

@[simp] theorem Ctl.illegal_responses (c : Ctl) :
    (c.illegal).responses = c.responses ++ [⟨completionByte .illegalCommand Warn.none, .bytes []⟩] := rfl

@[simp] theorem Ctl.illegal_port (c : Ctl) :
    (c.illegal).port = c.port := rfl

/-! `Ctl.warnUnkCfg` -/

@[simp] theorem Ctl.warnUnkCfg_phase (c : Ctl) :
    (c.warnUnkCfg).phase = c.phase := rfl

@[simp] theorem Ctl.warnUnkCfg_upc (c : Ctl) :
    (c.warnUnkCfg).upc = c.upc := rfl

@[simp] theorem Ctl.warnUnkCfg_flags (c : Ctl) :
    (c.warnUnkCfg).flags = { c.flags with unk := true } := rfl

@[simp] theorem Ctl.warnUnkCfg_warn (c : Ctl) :
    (c.warnUnkCfg).warn = { c.warn with unkCfg := true } := rfl

@[simp] theorem Ctl.warnUnkCfg_trace (c : Ctl) :
    (c.warnUnkCfg).trace = c.trace := rfl

@[simp] theorem Ctl.warnUnkCfg_responses (c : Ctl) :
    (c.warnUnkCfg).responses = c.responses := rfl

@[simp] theorem Ctl.warnUnkCfg_port (c : Ctl) :
    (c.warnUnkCfg).port = c.port := rfl

/-! `Ctl.warnBadLine` -/

@[simp] theorem Ctl.warnBadLine_phase (c : Ctl) :
    (c.warnBadLine).phase = c.phase := rfl

@[simp] theorem Ctl.warnBadLine_upc (c : Ctl) :
    (c.warnBadLine).upc = c.upc := rfl

@[simp] theorem Ctl.warnBadLine_flags (c : Ctl) :
    (c.warnBadLine).flags = { c.flags with badline := true } := rfl

@[simp] theorem Ctl.warnBadLine_warn (c : Ctl) :
    (c.warnBadLine).warn = { c.warn with badLine := true } := rfl

@[simp] theorem Ctl.warnBadLine_trace (c : Ctl) :
    (c.warnBadLine).trace = c.trace := rfl

@[simp] theorem Ctl.warnBadLine_responses (c : Ctl) :
    (c.warnBadLine).responses = c.responses := rfl

@[simp] theorem Ctl.warnBadLine_port (c : Ctl) :
    (c.warnBadLine).port = c.port := rfl

/-! `Msd.finish` -/

@[simp] theorem Msd.finish_params (m : Msd) (a : Bool × Payload) :
    (m.finish a).params = m.params := rfl

@[simp] theorem Msd.finish_bootDue (m : Msd) (a : Bool × Payload) :
    (m.finish a).bootDue = m.bootDue := rfl

@[simp] theorem Msd.finish_ctl (m : Msd) (a : Bool × Payload) :
    (m.finish a).ctl = (if a.1 then m.ctl.warnUnkCfg else m.ctl).respond .ok a.2 := rfl

@[simp] theorem Msd.finish_regs (m : Msd) (a : Bool × Payload) :
    (m.finish a).regs = m.regs := rfl

@[simp] theorem Msd.finish_replies (m : Msd) (a : Bool × Payload) :
    (m.finish a).replies = m.replies := rfl

/-! `Cds.finish` -/

@[simp] theorem Cds.finish_params (c : Cds) :
    (c.finish).params = c.params := rfl

@[simp] theorem Cds.finish_ctl (c : Cds) :
    (c.finish).ctl = c.ctl.respond .ok (.bytes []) := rfl

@[simp] theorem Cds.finish_regs (c : Cds) :
    (c.finish).regs = c.regs := rfl

@[simp] theorem Cds.finish_acks (c : Cds) :
    (c.finish).acks = c.acks := rfl

@[simp] theorem Cds.finish_delays (c : Cds) :
    (c.finish).delays = c.delays := rfl

/-! `Msd.advance` -/

@[simp] theorem Msd.advance_params (m : Msd) :
    (m.advance).params = m.params := rfl

@[simp] theorem Msd.advance_bootDue (m : Msd) :
    (m.advance).bootDue = m.bootDue := rfl

@[simp] theorem Msd.advance_ctl (m : Msd) :
    (m.advance).ctl = m.ctl.advance := rfl

@[simp] theorem Msd.advance_regs (m : Msd) :
    (m.advance).regs = m.regs := rfl

@[simp] theorem Msd.advance_replies (m : Msd) :
    (m.advance).replies = m.replies := rfl

/-! `Msd.abort` -/

@[simp] theorem Msd.abort_params (m : Msd) :
    (m.abort).params = m.params := rfl

@[simp] theorem Msd.abort_bootDue (m : Msd) :
    (m.abort).bootDue = m.bootDue := rfl

@[simp] theorem Msd.abort_ctl (m : Msd) :
    (m.abort).ctl = m.ctl.abort := rfl

@[simp] theorem Msd.abort_regs (m : Msd) :
    (m.abort).regs = m.regs := rfl

@[simp] theorem Msd.abort_replies (m : Msd) :
    (m.abort).replies = m.replies := rfl

/-! `Msd.illegal` -/

@[simp] theorem Msd.illegal_params (m : Msd) :
    (m.illegal).params = m.params := rfl

@[simp] theorem Msd.illegal_bootDue (m : Msd) :
    (m.illegal).bootDue = m.bootDue := rfl

@[simp] theorem Msd.illegal_ctl (m : Msd) :
    (m.illegal).ctl = m.ctl.illegal := rfl

@[simp] theorem Msd.illegal_regs (m : Msd) :
    (m.illegal).regs = m.regs := rfl

@[simp] theorem Msd.illegal_replies (m : Msd) :
    (m.illegal).replies = m.replies := rfl

/-! `Msd.takePacket` -/

@[simp] theorem Msd.takePacket_params (m : Msd) :
    (m.takePacket).params = m.params := rfl

@[simp] theorem Msd.takePacket_bootDue (m : Msd) :
    (m.takePacket).bootDue = m.bootDue := rfl

@[simp] theorem Msd.takePacket_ctl (m : Msd) :
    (m.takePacket).ctl = { m.ctl with port := m.ctl.port.tail } := rfl

@[simp] theorem Msd.takePacket_regs (m : Msd) :
    (m.takePacket).regs = m.regs := rfl

@[simp] theorem Msd.takePacket_replies (m : Msd) :
    (m.takePacket).replies = m.replies := rfl

/-! `Cds.advance` -/

@[simp] theorem Cds.advance_params (c : Cds) :
    (c.advance).params = c.params := rfl

@[simp] theorem Cds.advance_ctl (c : Cds) :
    (c.advance).ctl = c.ctl.advance := rfl

@[simp] theorem Cds.advance_regs (c : Cds) :
    (c.advance).regs = c.regs := rfl

@[simp] theorem Cds.advance_acks (c : Cds) :
    (c.advance).acks = c.acks := rfl

@[simp] theorem Cds.advance_delays (c : Cds) :
    (c.advance).delays = c.delays := rfl

/-! `Cds.abort` -/

@[simp] theorem Cds.abort_params (c : Cds) :
    (c.abort).params = c.params := rfl

@[simp] theorem Cds.abort_ctl (c : Cds) :
    (c.abort).ctl = c.ctl.abort := rfl

@[simp] theorem Cds.abort_regs (c : Cds) :
    (c.abort).regs = c.regs := rfl

@[simp] theorem Cds.abort_acks (c : Cds) :
    (c.abort).acks = c.acks := rfl

@[simp] theorem Cds.abort_delays (c : Cds) :
    (c.abort).delays = c.delays := rfl

/-! `Cds.illegal` -/

@[simp] theorem Cds.illegal_params (c : Cds) :
    (c.illegal).params = c.params := rfl

@[simp] theorem Cds.illegal_ctl (c : Cds) :
    (c.illegal).ctl = c.ctl.illegal := rfl

@[simp] theorem Cds.illegal_regs (c : Cds) :
    (c.illegal).regs = c.regs := rfl

@[simp] theorem Cds.illegal_acks (c : Cds) :
    (c.illegal).acks = c.acks := rfl

@[simp] theorem Cds.illegal_delays (c : Cds) :
    (c.illegal).delays = c.delays := rfl

/-! `Cds.takePacket` -/

@[simp] theorem Cds.takePacket_params (c : Cds) :
    (c.takePacket).params = c.params := rfl

@[simp] theorem Cds.takePacket_ctl (c : Cds) :
    (c.takePacket).ctl = { c.ctl with port := c.ctl.port.tail } := rfl

@[simp] theorem Cds.takePacket_regs (c : Cds) :
    (c.takePacket).regs = c.regs := rfl

@[simp] theorem Cds.takePacket_acks (c : Cds) :
    (c.takePacket).acks = c.acks := rfl

@[simp] theorem Cds.takePacket_delays (c : Cds) :
    (c.takePacket).delays = c.delays := rfl

/-! `Cds.prepare` -/

@[simp] theorem Cds.prepare_params (c : Cds) (op : CdsMicro) :
    (c.prepare op).params = c.params := rfl

@[simp] theorem Cds.prepare_ctl (c : Cds) (op : CdsMicro) :
    (c.prepare op).ctl = c.ctl := rfl

@[simp] theorem Cds.prepare_regs (c : Cds) (op : CdsMicro) :
    (c.prepare op).regs = c.regs.loads c.params.line1Addr op.loads := rfl

@[simp] theorem Cds.prepare_acks (c : Cds) (op : CdsMicro) :
    (c.prepare op).acks = c.acks := rfl

@[simp] theorem Cds.prepare_delays (c : Cds) (op : CdsMicro) :
    (c.prepare op).delays = c.delays := rfl

/-! `State.startMsd` -/

@[simp] theorem State.startMsd_msd (s : State) (i : Instr) (k : MsdCommand) :
    (s.startMsd i k).msd = s.msd.start i k := rfl

@[simp] theorem State.startMsd_cds (s : State) (i : Instr) (k : MsdCommand) :
    (s.startMsd i k).cds = s.cds := rfl

@[simp] theorem State.startMsd_schedule (s : State) (i : Instr) (k : MsdCommand) :
    (s.startMsd i k).schedule = s.schedule := rfl

/-! `State.startCds` -/

@[simp] theorem State.startCds_msd (s : State) (i : Instr) (k : CdsCommand) :
    (s.startCds i k).msd = s.msd := rfl

@[simp] theorem State.startCds_cds (s : State) (i : Instr) (k : CdsCommand) :
    (s.startCds i k).cds = s.cds.start i k := rfl

@[simp] theorem State.startCds_schedule (s : State) (i : Instr) (k : CdsCommand) :
    (s.startCds i k).schedule = s.schedule := rfl

/-! `State.takeTurn` -/

@[simp] theorem State.takeTurn_msd (s : State) :
    (s.takeTurn).msd = s.msd := rfl

@[simp] theorem State.takeTurn_cds (s : State) :
    (s.takeTurn).cds = s.cds := rfl

@[simp] theorem State.takeTurn_schedule (s : State) :
    (s.takeTurn).schedule = s.schedule.tail := rfl

/-! Setting an axis register, and what a read latches: the registers that stay. -/

@[simp] theorem MsdRegs.setAxis_opa (r : MsdRegs) (d : Axis) (v : Int) : (r.setAxis d v).opa = r.opa := by
  cases d <;> rfl

@[simp] theorem MsdRegs.setAxis_hi (r : MsdRegs) (d : Axis) (v : Int) : (r.setAxis d v).hi = r.hi := by
  cases d <;> rfl

@[simp] theorem MsdRegs.setAxis_lo (r : MsdRegs) (d : Axis) (v : Int) : (r.setAxis d v).lo = r.lo := by
  cases d <;> rfl

@[simp] theorem MsdRegs.setAxis_w (r : MsdRegs) (d : Axis) (v : Int) : (r.setAxis d v).w = r.w := by
  cases d <;> rfl

@[simp] theorem MsdRegs.setAxis_rng (r : MsdRegs) (d : Axis) (v : Int) : (r.setAxis d v).rng = r.rng := by
  cases d <;> rfl

@[simp] theorem MsdRegs.latch_opa (r : MsdRegs) (op : MsdMicro) (b : Byte) : (r.latch op b).opa = r.opa := by
  cases op <;> simp [MsdRegs.latch]

/-- A read does not change what a write transaction would send. -/
@[simp] theorem MsdRegs.latch_source (r : MsdRegs) (op : MsdMicro) (b : Byte) :
    (r.latch op b).source = r.source := by
  funext src; cases src <;> simp [MsdRegs.source]

@[simp] theorem MsdRegs.latch_okEvent (r : MsdRegs) (op : MsdMicro) (b : Byte) :
    (r.latch op b).okEvent = r.okEvent := by
  funext op' b'; cases op' <;> simp [MsdRegs.okEvent]

@[simp] theorem MsdRegs.latch_errEvent (r : MsdRegs) (op : MsdMicro) (b : Byte) :
    (r.latch op b).errEvent = r.errEvent := by
  funext op'; cases op' <;> simp [MsdRegs.errEvent]

/-! The register transfers of the CDS: the registers that stay. -/

@[simp] theorem CdsRegs.load_line (line1 : Byte) (r : CdsRegs) (l : CdsLoad) : (r.load line1 l).line = r.line := by
  cases l <;> rfl

@[simp] theorem CdsRegs.load_len (line1 : Byte) (r : CdsRegs) (l : CdsLoad) : (r.load line1 l).len = r.len := by
  cases l <;> rfl

@[simp] theorem CdsRegs.load_txt (line1 : Byte) (r : CdsRegs) (l : CdsLoad) : (r.load line1 l).txt = r.txt := by
  cases l <;> rfl

@[simp] theorem CdsRegs.loads_nil (line1 : Byte) (r : CdsRegs) : r.loads line1 [] = r := rfl

@[simp] theorem CdsRegs.loads_cons (line1 : Byte) (r : CdsRegs) (l : CdsLoad) (ls : List CdsLoad) :
    r.loads line1 (l :: ls) = (r.load line1 l).loads line1 ls := rfl

theorem CdsRegs.loads_append (line1 : Byte) (r : CdsRegs) (ls ls' : List CdsLoad) :
    r.loads line1 (ls ++ ls') = (r.loads line1 ls).loads line1 ls' := by
  simp [CdsRegs.loads]

@[simp] theorem CdsRegs.loads_line (line1 : Byte) (r : CdsRegs) (ls : List CdsLoad) :
    (r.loads line1 ls).line = r.line := by
  induction ls generalizing r <;> simp_all

@[simp] theorem CdsRegs.loads_len (line1 : Byte) (r : CdsRegs) (ls : List CdsLoad) :
    (r.loads line1 ls).len = r.len := by
  induction ls generalizing r <;> simp_all

@[simp] theorem CdsRegs.loads_txt (line1 : Byte) (r : CdsRegs) (ls : List CdsLoad) :
    (r.loads line1 ls).txt = r.txt := by
  induction ls generalizing r <;> simp_all

/-! BUSY -/

/-- A unit is BUSY exactly if it is not IDLE (R12). -/
theorem Ctl.isBusy_iff (c : Ctl) : c.isBusy = true ↔ c.phase ≠ .idle := by
  unfold Ctl.isBusy
  cases c.phase <;> simp

/-- When the MSD's turn breaks the bus discipline (R137). -/
theorem State.busClash_msd_iff (s : State) : s.busClash .msd = true ↔
    s.msd.params.bus = s.cds.params.bus ∧ s.cds.ctl.phase ≠ .idle ∧
      (s.msd.ctl.phase ≠ .idle ∨ s.msd.bootDue = true ∨ s.msd.ctl.port ≠ []) := by
  simp [State.busClash, State.sharedBus, Msd.hasWork, Ctl.isBusy_iff]
  tauto

/-- When the CDS's turn breaks the bus discipline (R137). -/
theorem State.busClash_cds_iff (s : State) : s.busClash .cds = true ↔
    s.msd.params.bus = s.cds.params.bus ∧ s.msd.ctl.phase ≠ .idle ∧
      (s.cds.ctl.phase ≠ .idle ∨ s.cds.ctl.port ≠ []) := by
  simp [State.busClash, State.sharedBus, Cds.hasWork, Ctl.isBusy_iff]
  tauto

end Sys2Proof.Machine
end

