-- ==== Sys2Proof/Laws/Ops.lean ====
section
/-! SUPPORT. Laws/Ops.lean: what the shared operations can do, said once: one micro-operation of each unit, a run of
micro-operations (an induction principle over its three ways to end), and a run over answers that are all `ok`. -/

namespace Sys2Proof.Machine

/-! ## One micro-operation of the MSD -/

/-- The MSD after its micro-operation `op` was answered `error`. -/
def Msd.failed (m : Msd) (op : MsdMicro) (rs : List Reply) : Msd :=
  { m with replies := rs, ctl := m.ctl.log (m.regs.errEvent op) }

/-- The MSD after its micro-operation `op` was answered `ok b`. -/
def Msd.done (m : Msd) (op : MsdMicro) (b : Byte) (rs : List Reply) : Msd :=
  { m with replies := rs, ctl := m.ctl.log (m.regs.okEvent op b), regs := m.regs.latch op b }

@[simp] theorem Msd.failed_params (m : Msd) (op : MsdMicro) (rs : List Reply) : (m.failed op rs).params = m.params := rfl
@[simp] theorem Msd.failed_bootDue (m : Msd) (op : MsdMicro) (rs : List Reply) : (m.failed op rs).bootDue = m.bootDue := rfl
@[simp] theorem Msd.failed_ctl (m : Msd) (op : MsdMicro) (rs : List Reply) :
    (m.failed op rs).ctl = m.ctl.log (m.regs.errEvent op) := rfl
@[simp] theorem Msd.failed_regs (m : Msd) (op : MsdMicro) (rs : List Reply) : (m.failed op rs).regs = m.regs := rfl
@[simp] theorem Msd.failed_replies (m : Msd) (op : MsdMicro) (rs : List Reply) : (m.failed op rs).replies = rs := rfl
@[simp] theorem Msd.done_params (m : Msd) (op : MsdMicro) (b : Byte) (rs : List Reply) :
    (m.done op b rs).params = m.params := rfl
@[simp] theorem Msd.done_bootDue (m : Msd) (op : MsdMicro) (b : Byte) (rs : List Reply) :
    (m.done op b rs).bootDue = m.bootDue := rfl
@[simp] theorem Msd.done_ctl (m : Msd) (op : MsdMicro) (b : Byte) (rs : List Reply) :
    (m.done op b rs).ctl = m.ctl.log (m.regs.okEvent op b) := rfl
@[simp] theorem Msd.done_regs (m : Msd) (op : MsdMicro) (b : Byte) (rs : List Reply) :
    (m.done op b rs).regs = m.regs.latch op b := rfl
@[simp] theorem Msd.done_replies (m : Msd) (op : MsdMicro) (b : Byte) (rs : List Reply) :
    (m.done op b rs).replies = rs := rfl

/-- Everything an MSD micro-operation can do: it waits and nothing changes, it fails and logs its error event, or it is
done, logs its event and latches the byte. -/
theorem Msd.issue_cases (m : Msd) (op : MsdMicro) :
    (m.replies = [] ∧ m.issue op = (.waiting, m)) ∨
    (∃ rs, m.replies = .error :: rs ∧ m.issue op = (.failed, m.failed op rs)) ∨
    (∃ b rs, m.replies = .ok b :: rs ∧ m.issue op = (.done, m.done op b rs)) := by
  rcases h : m.replies with _ | ⟨_ | _, rs⟩ <;> simp [Msd.issue, h, Msd.failed, Msd.done]

/-- A run with no micro-operation left answers. -/
theorem Msd.run_nil (answer : MsdParams → MsdRegs → Bool × Payload) (m : Msd) :
    Msd.run answer [] m = m.finish (answer m.params m.regs) := rfl

/-- A run waits where there is no answer. -/
theorem Msd.run_waiting (answer : MsdParams → MsdRegs → Bool × Payload) (op : MsdMicro) (ops : List MsdMicro) (m : Msd)
    (h : m.replies = []) : Msd.run answer (op :: ops) m = m := by
  simp [Msd.run, Msd.issue, h]

/-- A run aborts at an answer `error`. -/
theorem Msd.run_failed (answer : MsdParams → MsdRegs → Bool × Payload) (op : MsdMicro) (ops : List MsdMicro) (m : Msd)
    (rs : List Reply) (h : m.replies = .error :: rs) :
    Msd.run answer (op :: ops) m = (m.failed op rs).abort := by
  simp [Msd.run, Msd.issue, h, Msd.failed]

/-- A run goes on after an answer `ok`. -/
theorem Msd.run_done (answer : MsdParams → MsdRegs → Bool × Payload) (op : MsdMicro) (ops : List MsdMicro) (m : Msd)
    (b : Byte) (rs : List Reply) (h : m.replies = .ok b :: rs) :
    Msd.run answer (op :: ops) m = Msd.run answer ops (m.done op b rs).advance := by
  simp [Msd.run, Msd.issue, h, Msd.done]

/-- The run of an MSD command ends in one of three ways; a property `Q` holds of the end when a property `P` holds at
every micro-operation and gives `Q` at each of them. -/
theorem Msd.run_induction {answer : MsdParams → MsdRegs → Bool × Payload} {Q : Msd → Prop}
    (P : List MsdMicro → Msd → Prop)
    (hfinish : ∀ m, P [] m → Q (m.finish (answer m.params m.regs)))
    (hwait : ∀ op ops m, P (op :: ops) m → m.replies = [] → Q m)
    (hfail : ∀ op ops m rs, P (op :: ops) m → m.replies = .error :: rs → Q (m.failed op rs).abort)
    (hdone : ∀ op ops m b rs, P (op :: ops) m → m.replies = .ok b :: rs → P ops (m.done op b rs).advance) :
    ∀ ops m, P ops m → Q (Msd.run answer ops m) := by
  intro ops
  induction ops with
  | nil => exact hfinish
  | cons op ops ih =>
    intro m hm
    rcases hr : m.replies with _ | ⟨b | _, rs⟩
    · rw [Msd.run_waiting _ _ _ _ hr]; exact hwait op ops m hm hr
    · rw [Msd.run_done _ _ _ _ b rs hr]; exact ih _ (hdone op ops m b rs hm hr)
    · rw [Msd.run_failed _ _ _ _ rs hr]; exact hfail op ops m rs hm hr

/-- A run over answers that begin with as many `ok` as the first part of the list has micro-operations reaches the second
part, with the events of the first part in the trace. -/
theorem Msd.run_append_of_ok (answer : MsdParams → MsdRegs → Bool × Payload) :
    ∀ (ops ops' : List MsdMicro) (bs : List Byte) (rs : List Reply) (m : Msd),
      ops.length = bs.length → m.replies = bs.map .ok ++ rs →
      ∃ r, Msd.run answer (ops ++ ops') m =
          Msd.run answer ops' { m with
            replies := rs
            regs := r
            ctl := { m.ctl with trace := m.ctl.trace ++ m.regs.eventsOf ops bs, upc := m.ctl.upc + bs.length } } ∧
        r.opa = m.regs.opa := by
  intro ops
  induction ops with
  | nil =>
    intro ops' bs rs m hl hr
    obtain rfl : bs = [] := by cases bs <;> simp_all
    exact ⟨m.regs, by simp [MsdRegs.eventsOf, ← show m.replies = rs by simpa using hr], rfl⟩
  | cons op ops ih =>
    intro ops' bs rs m hl hr
    rcases bs with _ | ⟨b, bs⟩
    · simp at hl
    · obtain ⟨r, h, hopa⟩ := ih ops' bs rs (m.done op b (bs.map .ok ++ rs)).advance (by simpa using hl) (by simp)
      refine ⟨r, ?_, by simpa using hopa⟩
      rw [List.cons_append, Msd.run_done _ _ _ _ b (bs.map .ok ++ rs) (by simpa using hr), h]
      simp [Msd.done, Msd.advance, Ctl.log, Ctl.advance, MsdRegs.eventsOf, Nat.add_assoc, Nat.add_comm 1]

/-! ## One micro-operation of the CDS -/

/-- The CDS after the write `f` of its micro-operation was answered `error`. -/
def Cds.failed (c : Cds) (f : Form) (as : List Ack) : Cds :=
  { c with acks := as, ctl := c.ctl.log (.rawErr (f.byte c.regs.nib)) }

/-- The CDS after the write `f` of its micro-operation was answered `ok`. -/
def Cds.written (c : Cds) (f : Form) (as : List Ack) : Cds :=
  { c with acks := as, ctl := c.ctl.log (.raw (f.byte c.regs.nib)) }

/-- The CDS after its delay was answered. -/
def Cds.delayed (c : Cds) (n : Nat) : Cds := { c with delays := n, ctl := c.ctl.log .dly }

@[simp] theorem Cds.failed_params (c : Cds) (f : Form) (as : List Ack) : (c.failed f as).params = c.params := rfl
@[simp] theorem Cds.failed_ctl (c : Cds) (f : Form) (as : List Ack) :
    (c.failed f as).ctl = c.ctl.log (.rawErr (f.byte c.regs.nib)) := rfl
@[simp] theorem Cds.failed_regs (c : Cds) (f : Form) (as : List Ack) : (c.failed f as).regs = c.regs := rfl
@[simp] theorem Cds.failed_acks (c : Cds) (f : Form) (as : List Ack) : (c.failed f as).acks = as := rfl
@[simp] theorem Cds.failed_delays (c : Cds) (f : Form) (as : List Ack) : (c.failed f as).delays = c.delays := rfl
@[simp] theorem Cds.written_params (c : Cds) (f : Form) (as : List Ack) : (c.written f as).params = c.params := rfl
@[simp] theorem Cds.written_ctl (c : Cds) (f : Form) (as : List Ack) :
    (c.written f as).ctl = c.ctl.log (.raw (f.byte c.regs.nib)) := rfl
@[simp] theorem Cds.written_regs (c : Cds) (f : Form) (as : List Ack) : (c.written f as).regs = c.regs := rfl
@[simp] theorem Cds.written_acks (c : Cds) (f : Form) (as : List Ack) : (c.written f as).acks = as := rfl
@[simp] theorem Cds.written_delays (c : Cds) (f : Form) (as : List Ack) : (c.written f as).delays = c.delays := rfl
@[simp] theorem Cds.delayed_params (c : Cds) (n : Nat) : (c.delayed n).params = c.params := rfl
@[simp] theorem Cds.delayed_ctl (c : Cds) (n : Nat) : (c.delayed n).ctl = c.ctl.log .dly := rfl
@[simp] theorem Cds.delayed_regs (c : Cds) (n : Nat) : (c.delayed n).regs = c.regs := rfl
@[simp] theorem Cds.delayed_acks (c : Cds) (n : Nat) : (c.delayed n).acks = c.acks := rfl
@[simp] theorem Cds.delayed_delays (c : Cds) (n : Nat) : (c.delayed n).delays = n := rfl

/-- Everything a CDS micro-operation can do: it waits and nothing changes, its write fails, its write is done, or its
delay is done. -/
theorem Cds.issue_cases (c : Cds) (op : CdsMicro) :
    (c.issue op = (.waiting, c) ∧ ((∃ f, op.out = .raw f ∧ c.acks = []) ∨ (op.out = .delay ∧ c.delays = 0))) ∨
    (∃ f as, op.out = .raw f ∧ c.acks = .error :: as ∧ c.issue op = (.failed, c.failed f as)) ∨
    (∃ f as, op.out = .raw f ∧ c.acks = .ok :: as ∧ c.issue op = (.done, c.written f as)) ∨
    (∃ n, op.out = .delay ∧ c.delays = n + 1 ∧ c.issue op = (.done, c.delayed n)) := by
  rcases ho : op.out with f | _
  · rcases ha : c.acks with _ | ⟨_ | _, as⟩ <;> simp [Cds.issue, ho, ha, Cds.failed, Cds.written]
  · rcases hd : c.delays with _ | n <;> simp [Cds.issue, ho, hd, Cds.delayed]

/-- A run with no micro-operation left answers. -/
theorem Cds.run_nil (c : Cds) : Cds.run [] c = c.finish := rfl

/-- A run waits at a write where there is no answer. -/
theorem Cds.run_write_waiting (op : CdsMicro) (ops : List CdsMicro) (c : Cds) (f : Form) (ho : op.out = .raw f)
    (h : c.acks = []) : Cds.run (op :: ops) c = c.prepare op := by
  simp [Cds.run, Cds.issue, ho, h]

/-- A run waits at a delay where there is no answer. -/
theorem Cds.run_delay_waiting (op : CdsMicro) (ops : List CdsMicro) (c : Cds) (ho : op.out = .delay)
    (h : c.delays = 0) : Cds.run (op :: ops) c = c.prepare op := by
  simp [Cds.run, Cds.issue, ho, h]

/-- A run aborts at a write answered `error`. -/
theorem Cds.run_failed (op : CdsMicro) (ops : List CdsMicro) (c : Cds) (f : Form) (as : List Ack)
    (ho : op.out = .raw f) (h : c.acks = .error :: as) :
    Cds.run (op :: ops) c = ((c.prepare op).failed f as).abort := by
  simp [Cds.run, Cds.issue, ho, h, Cds.failed]

/-- A run goes on after a write answered `ok`. -/
theorem Cds.run_written (op : CdsMicro) (ops : List CdsMicro) (c : Cds) (f : Form) (as : List Ack)
    (ho : op.out = .raw f) (h : c.acks = .ok :: as) :
    Cds.run (op :: ops) c = Cds.run ops ((c.prepare op).written f as).advance := by
  simp [Cds.run, Cds.issue, ho, h, Cds.written]

/-- A run goes on after a delay answered. -/
theorem Cds.run_delayed (op : CdsMicro) (ops : List CdsMicro) (c : Cds) (n : Nat) (ho : op.out = .delay)
    (h : c.delays = n + 1) :
    Cds.run (op :: ops) c = Cds.run ops ((c.prepare op).delayed n).advance := by
  simp [Cds.run, Cds.issue, ho, h, Cds.delayed]

/-- The run of a CDS command ends in one of three ways, as `Msd.run_induction` says for the MSD. -/
theorem Cds.run_induction {Q : Cds → Prop} (P : List CdsMicro → Cds → Prop)
    (hfinish : ∀ c, P [] c → Q c.finish)
    (hwait : ∀ op ops c, P (op :: ops) c → (c.acks = [] ∨ c.delays = 0) → Q (c.prepare op))
    (hfail : ∀ op ops c f as, P (op :: ops) c → op.out = .raw f → c.acks = .error :: as →
      Q ((c.prepare op).failed f as).abort)
    (hraw : ∀ op ops c f as, P (op :: ops) c → op.out = .raw f → c.acks = .ok :: as →
      P ops ((c.prepare op).written f as).advance)
    (hdelay : ∀ op ops c n, P (op :: ops) c → op.out = .delay → c.delays = n + 1 →
      P ops ((c.prepare op).delayed n).advance) :
    ∀ ops c, P ops c → Q (Cds.run ops c) := by
  intro ops
  induction ops with
  | nil => exact hfinish
  | cons op ops ih =>
    intro c hc
    rcases ho : op.out with f | _
    · rcases ha : c.acks with _ | ⟨_ | _, as⟩
      · rw [Cds.run_write_waiting _ _ _ f ho ha]; exact hwait op ops c hc (.inl ha)
      · rw [Cds.run_written _ _ _ f as ho ha]; exact ih _ (hraw op ops c f as hc ho ha)
      · rw [Cds.run_failed _ _ _ f as ho ha]; exact hfail op ops c f as hc ho ha
    · rcases hd : c.delays with _ | n
      · rw [Cds.run_delay_waiting _ _ _ ho hd]; exact hwait op ops c hc (.inr hd)
      · rw [Cds.run_delayed _ _ _ n ho hd]; exact ih _ (hdelay op ops c n hc ho hd)

/-- The number of writes of a list of micro-operations. -/
def writesIn (ops : List CdsMicro) : Nat := ops.countP fun op => op.out != .delay

/-- The number of delays of a list of micro-operations. -/
def delaysIn (ops : List CdsMicro) : Nat := ops.countP fun op => op.out == .delay

/-- The registers after the register transfers of a list of micro-operations. -/
def CdsRegs.after (line1 : Byte) (r : CdsRegs) (ops : List CdsMicro) : CdsRegs :=
  r.loads line1 (ops.flatMap (·.loads))

/-- The number of events of a list of micro-operations is its length. -/
@[simp] theorem CdsRegs.length_eventsOf (line1 : Byte) (ops : List CdsMicro) :
    ∀ r : CdsRegs, (r.eventsOf line1 ops).length = ops.length := by
  induction ops with
  | nil => intro r; rfl
  | cons op ops ih => intro r; simp [CdsRegs.eventsOf, ih]

/-- The events of two lists one after the other. -/
theorem CdsRegs.eventsOf_append (line1 : Byte) (ops ops' : List CdsMicro) :
    ∀ r : CdsRegs, r.eventsOf line1 (ops ++ ops') =
      r.eventsOf line1 ops ++ (r.after line1 ops).eventsOf line1 ops' := by
  induction ops with
  | nil => intro r; rfl
  | cons op ops ih => intro r; simp [CdsRegs.eventsOf, CdsRegs.after, ih, CdsRegs.loads_append]

/-- A run over answers that suffice for the first part of the list reaches the second part, with the events of the first
part in the trace. -/
theorem Cds.run_append_of_ok :
    ∀ (ops ops' : List CdsMicro) (c : Cds) (as : List Ack) (d : Nat),
      c.acks = List.replicate (writesIn ops) .ok ++ as → c.delays = delaysIn ops + d →
      Cds.run (ops ++ ops') c = Cds.run ops' { c with
        regs := c.regs.after c.params.line1Addr ops
        acks := as
        delays := d
        ctl := { c.ctl with
          trace := c.ctl.trace ++ c.regs.eventsOf c.params.line1Addr ops, upc := c.ctl.upc + ops.length } } := by
  intro ops
  induction ops with
  | nil =>
    intro ops' c as d ha hd
    simp [writesIn, delaysIn] at ha hd
    simp [CdsRegs.eventsOf, CdsRegs.after, ← ha, ← hd]
  | cons op ops ih =>
    intro ops' c as d ha hd
    rcases ho : op.out with f | _
    · simp [writesIn, delaysIn, ho, List.replicate_succ] at ha hd
      rw [List.cons_append, Cds.run_written _ _ _ f _ ho ha, ih ops' _ as d (by simp [writesIn]) (by simpa [delaysIn])]
      simp [Cds.prepare, Cds.written, Cds.advance, Ctl.log, Ctl.advance, CdsRegs.eventsOf, CdsRegs.after, ho,
        CdsRegs.loads_append, Nat.add_assoc, Nat.add_comm 1]
    · simp [writesIn, delaysIn, ho] at ha hd
      rw [List.cons_append,
        Cds.run_delayed _ _ _ (delaysIn ops + d) ho (by rw [hd, delaysIn]; omega),
        ih ops' _ as d (by simpa [writesIn]) (by simp)]
      simp [Cds.prepare, Cds.delayed, Cds.advance, Ctl.log, Ctl.advance, CdsRegs.eventsOf, CdsRegs.after, ho,
        CdsRegs.loads_append, Nat.add_assoc, Nat.add_comm 1]

end Sys2Proof.Machine
end

