-- ==== Sys2Proof/Laws/Commands.lean ====
section
/-! SUPPORT. Laws/Commands.lean: what exec does with a command, said once for each unit, and small facts about the bytes
and events of the commands. -/

namespace Sys2Proof.Machine

/-! ## exec -/

/-- A well-formed MSD command is accepted and run. -/
theorem exec_eq_startMsd (i : Instr) (c : MsdCommand) (s : State) (h : msdCommand? i = some c)
    (hw : i.wf s.cds.params.maxText = true) : exec i s = .next (s.startMsd i c) := by
  cases i <;> simp [msdCommand?, Instr.wf] at h hw <;> subst h <;>
    simp [exec, execWake, execReadWord, execReadTemp, execSetAccelRange, execSetGyroRange, execReadRawAccelRange,
      execReadRawGyroRange, execDecodeAccelRange, execDecodeGyroRange, execGetAccelData, execGetGyroData, hw]

/-- A well-formed CDS command is accepted and run. -/
theorem exec_eq_startCds (i : Instr) (k : CdsCommand) (s : State) (h : cdsCommand? i = some k)
    (hw : i.wf s.cds.params.maxText = true) : exec i s = .next (s.startCds i k) := by
  cases i <;> simp [cdsCommand?, Instr.wf] at h hw <;> subst h <;>
    simp [exec, execStrobe, execWrite4Bits, execSendByte, execWriteString, execClear, hw]

/-- An MSD command is accepted and run, in every state, or refused, in every state. -/
theorem exec_msd_cases (i : Instr) (hi : i.unit = .msd) :
    (∃ c, msdCommand? i = some c ∧ ∀ s, exec i s = .next (s.startMsd i c)) ∨
    (∀ s, exec i s = .next (s.illegal .msd)) := by
  cases i <;> simp [Instr.unit, Instr.mnemonic, Mnemonic.unit] at hi
  case readWord a =>
    by_cases ha : a = 0xFF
    · exact .inr fun s => by simp only [exec, execReadWord, if_pos ha]
    · exact .inl ⟨_, rfl, fun s => by simp only [exec, execReadWord, if_neg ha]⟩
  case getAccelData a =>
    by_cases ha : a &&& 0xFE = 0x00
    · exact .inl ⟨_, rfl, fun s => by simp only [exec, execGetAccelData, if_pos ha]⟩
    · exact .inr fun s => by simp only [exec, execGetAccelData, if_neg ha]
  all_goals exact .inl ⟨_, rfl, fun _ => rfl⟩

/-- A CDS command is accepted and run, or refused. -/
theorem exec_cds_cases (i : Instr) (s : State) (hi : i.unit = .cds) :
    (∃ k, cdsCommand? i = some k ∧ exec i s = .next (s.startCds i k)) ∨ exec i s = .next (s.illegal .cds) := by
  cases i <;> simp [Instr.unit, Instr.mnemonic, Mnemonic.unit] at hi
  case writeString line text =>
    by_cases ha : text.length ≤ s.cds.params.maxText ∧ text.length ≤ 255
    · exact .inl ⟨_, rfl, by simp only [exec, execWriteString, if_pos ha]⟩
    · exact .inr (by simp only [exec, execWriteString, if_neg ha])
  all_goals exact .inl ⟨_, rfl, rfl⟩

/-! ## Bytes -/

/-- The 16-bit two's complement of `s16 w` is `w` (R73). -/
theorem ofInt_s16 (w : Word) : BitVec.ofInt 16 (s16 w) = w := by
  unfold s16
  split
  · simp
  · apply BitVec.eq_of_toNat_eq
    have := w.isLt
    simp
    omega

/-- The payload of `READ_WORD` is the two bytes as read (R73). -/
theorem bytesOfS16_s16_asm16 (h l : Byte) : bytesOfS16 (s16 (asm16 h l)) = [h, l] := by
  rw [bytesOfS16, ofInt_s16, bytesOfWord, asm16]
  simp only [List.cons.injEq, and_true]
  constructor <;> apply BitVec.eq_of_getLsbD_eq <;> intro i hi
  · simp [hi, show 8 + i < 16 by omega]
  · simp [hi]
    omega

/-- The payload of an abort is the index in two bytes (R116). -/
theorem bytesOfU16_eq_twoBytes (n : Nat) : bytesOfU16 n = twoBytes n := by
  simp only [bytesOfU16, bytesOfWord, twoBytes, List.cons.injEq, and_true]
  constructor <;> apply BitVec.eq_of_toNat_eq
  · simp [Nat.shiftRight_eq_div_pow]
    omega
  · simp

/-- `s16` stays in its range (R81). -/
theorem s16_range (v : Word) : -32768 ≤ s16 v ∧ s16 v ≤ 32767 := by
  unfold s16
  have := v.isLt
  split <;> omega

/-- Whether the fallback line is taken does not depend on `LINE1_ADDR` (R101). -/
theorem lineAddr_fallback (line1 line : Byte) :
    (lineAddr line1 line).2 = (line != 1 && line != 2 && line != 3 && line != 4) := by
  unfold lineAddr
  split_ifs <;> simp_all

/-- A CDS command warns of a bad line exactly if it is a WRITE_STRING with an invalid line (R112). -/
theorem badLine_eq_hasBadLine (i : Instr) (k : CdsCommand) (h : cdsCommand? i = some k) : k.badLine = hasBadLine i := by
  cases i <;> simp [cdsCommand?] at h <;> subst h <;> first | rfl | exact lineAddr_fallback _ _

/-! ## Events -/

/-- The events of an MSD command depend on the registers through OPA alone (R17). -/
theorem MsdRegs.okEvent_congr (r r' : MsdRegs) (h : r.opa = r'.opa) : r.okEvent = r'.okEvent := by
  funext op b
  cases op <;> simp [MsdRegs.okEvent]
  rename_i src
  cases src <;> simp [MsdRegs.source, h]

/-- The failed events of an MSD command depend on the registers through OPA alone (R17). -/
theorem MsdRegs.errEvent_congr (r r' : MsdRegs) (h : r.opa = r'.opa) : r.errEvent = r'.errEvent := by
  funext op
  cases op <;> simp [MsdRegs.errEvent]
  rename_i src
  cases src <;> simp [MsdRegs.source, h]

/-- The events of one `sendByte` (R99). -/
theorem CdsRegs.eventsOf_sendByteOps (line1 : Byte) (r : CdsRegs) (src : CdsLoad) :
    r.eventsOf line1 (sendByteOps src) = sendByteEvents (r.load line1 src).cmd (r.load line1 src).mode := by
  simp [sendByteOps, write4BitsOps, strobeOps, writeForm, CdsRegs.eventsOf, CdsRegs.load, sendByteEvents, Form.byte,
    highNibble, lowNibble, enable, backlight, BitVec.or_assoc]

/-- The register transfers of one micro-operation of a `sendByte` (R99). -/
theorem loads_of_mem_sendByteOps {src : CdsLoad} {op : CdsMicro} (h : op ∈ sendByteOps src) :
    op.loads = [] ∨ op.loads = [src, .highHalf] ∨ op.loads = [.lowHalf] := by
  simp [sendByteOps, write4BitsOps, strobeOps, writeForm] at h
  rcases h with h | h | h | h | h | h | h | h | h | h | h | h <;> simp [h]

/-- Every byte a form writes has the backlight bit set (R96). -/
theorem Form.byte_backlight (f : Form) (n : Byte) : (f.byte n).getLsbD 3 = true := by
  cases f <;> simp [Form.byte, backlight]

end Sys2Proof.Machine
end

