-- ==== Sys2Proof/Laws/Num.lean ====
section
/-! SUPPORT. Laws/Num.lean: what the helpers of the rounding to a binary format do, said once over the rationals (spec
41_msd_decode_scale.md rule R83), and the bytes of an image (30_encoding.md rule R56). -/

namespace Sys2Proof.Machine

/-- `pow2Le e n d` compares `2 ^ e * d` with `n`. -/
theorem pow2Le_iff (e : Int) (n d : Nat) : pow2Le e n d = true ↔ (d : Rat) * (2:Rat)^e ≤ n := by
  unfold pow2Le
  split <;> rename_i h
  · obtain ⟨k, rfl⟩ := Int.eq_ofNat_of_zero_le h
    simp; exact_mod_cast Iff.rfl
  · obtain ⟨k, hk⟩ := Int.eq_ofNat_of_zero_le (show 0 ≤ -e by omega)
    obtain rfl : e = -(k : Int) := by omega
    simp only [decide_eq_true_eq, neg_neg, Int.toNat_natCast, zpow_neg, zpow_natCast]
    rw [← div_eq_mul_inv, div_le_iff₀ (by positivity)]
    exact_mod_cast Iff.rfl

/-- `Nat.log2` over the rationals. -/
theorem two_zpow_log2_bounds (n : Nat) (h : 0 < n) :
    (2:Rat)^(Nat.log2 n : Int) ≤ n ∧ (n:Rat) < (2:Rat)^((Nat.log2 n : Int)+1) := by
  have h1 := Nat.log2_self_le (n := n) (by omega)
  have h2 := Nat.lt_log2_self (n := n)
  constructor
  · rw [zpow_natCast]; exact_mod_cast h1
  · have : ((Nat.log2 n : Int) + 1) = ((Nat.log2 n + 1 : Nat) : Int) := by push_cast; rfl
    rw [this, zpow_natCast]; exact_mod_cast h2

/-- `n / d` lies in the binade of `floorLog2 n d`. -/
theorem floorLog2_bounds (n d : Nat) (hn : 0 < n) (hd : 0 < d) :
    (2:Rat)^(floorLog2 n d) ≤ (n:Rat)/d ∧ (n:Rat)/d < (2:Rat)^(floorLog2 n d + 1) := by
  obtain ⟨n1, n2⟩ := two_zpow_log2_bounds n hn
  obtain ⟨d1, d2⟩ := two_zpow_log2_bounds d hd
  have hdq : (0:Rat) < d := by exact_mod_cast hd
  have up : (n:Rat)/d < (2:Rat)^((Nat.log2 n : Int) - Nat.log2 d + 1) := by
    rw [div_lt_iff₀ hdq]
    calc (n:Rat) < 2^((Nat.log2 n : Int)+1) := n2
      _ = 2^((Nat.log2 n : Int) - Nat.log2 d + 1) * 2^(Nat.log2 d : Int) := by
        rw [← zpow_add₀ (by norm_num)]; congr 1; ring
      _ ≤ _ := by gcongr
  have lo : (2:Rat)^((Nat.log2 n : Int) - Nat.log2 d - 1) ≤ (n:Rat)/d := by
    rw [le_div_iff₀ hdq]
    calc (2:Rat)^((Nat.log2 n : Int) - Nat.log2 d - 1) * d
        ≤ 2^((Nat.log2 n : Int) - Nat.log2 d - 1) * 2^((Nat.log2 d : Int)+1) := by gcongr
      _ = 2^(Nat.log2 n : Int) := by rw [← zpow_add₀ (by norm_num)]; congr 1; ring
      _ ≤ n := n1
  unfold floorLog2
  simp only
  split <;> rename_i h
  · rw [pow2Le_iff] at h
    refine ⟨?_, up⟩
    rw [le_div_iff₀ hdq, mul_comm]; exact h
  · rw [pow2Le_iff] at h
    refine ⟨lo, ?_⟩
    rw [div_lt_iff₀ hdq, sub_add_cancel, mul_comm]
    exact not_le.1 h

/-- `divNearestEven n d` is within a half of `n / d`, and even where it is a half away. -/
theorem divNearestEven_near (n d : Nat) (h : 0 < d) :
    |(divNearestEven n d : Rat) - (n:Rat)/d| ≤ 1/2 ∧
    (|(divNearestEven n d : Rat) - (n:Rat)/d| = 1/2 → divNearestEven n d % 2 = 0) := by
  have hdq : (0:Rat) < d := by exact_mod_cast h
  have e : (n:Rat) = d * (n / d : Nat) + (n % d : Nat) := by exact_mod_cast (Nat.div_add_mod n d).symm
  have hr := Nat.mod_lt n h
  set q := n / d
  set r := n % d
  have hnd : (n:Rat)/d = q + (r:Rat)/d := by rw [e]; field_simp
  have hr0 : (0:Rat) ≤ (r:Rat)/d := by positivity
  have key : divNearestEven n d = if 2 * r < d then q else if d < 2 * r then q + 1 else q + q % 2 := rfl
  rw [key, hnd]
  split_ifs with h1 h2
  · have : (r:Rat)/d < 1/2 := by
      have : (2:Rat) * r < d := by exact_mod_cast h1
      rw [div_lt_iff₀ hdq]
      linarith
    rw [show (q:Rat) - (q + (r:Rat)/d) = -((r:Rat)/d) by ring, abs_neg, abs_of_nonneg hr0]
    exact ⟨this.le, fun h => absurd h this.ne⟩
  · have : 1/2 < (r:Rat)/d := by
      have : (d:Rat) < 2 * r := by exact_mod_cast h2
      rw [lt_div_iff₀ hdq]
      linarith
    have h3 : (r:Rat)/d < 1 := by rw [div_lt_one hdq]; exact_mod_cast hr
    rw [show ((q + 1 : Nat) : Rat) - (q + (r:Rat)/d) = 1 - (r:Rat)/d by push_cast; ring, abs_of_nonneg (by linarith)]
    exact ⟨by linarith, fun h => by linarith⟩
  · have h3 : (r:Rat)/d = 1/2 := by
      have : (d:Rat) = 2 * r := by exact_mod_cast (by omega : d = 2 * r)
      rw [div_eq_iff hdq.ne']
      linarith
    rw [h3]
    refine ⟨?_, fun _ => by omega⟩
    rcases Nat.mod_two_eq_zero_or_one q with h | h <;> rw [h] <;> push_cast <;> rw [abs_le] <;>
      constructor <;> linarith

/-- The significand is within half a last place of the number, and even where it is a half away. -/
theorem BinFmt.significand_near (f : BinFmt) (n d : Nat) (hn : 0 < n) (hd : 0 < d) :
    |(f.significand n d : Rat) - (n:Rat)/d / 2^(f.quantum n d)| ≤ 1/2 ∧
    (|(f.significand n d : Rat) - (n:Rat)/d / 2^(f.quantum n d)| = 1/2 → f.significand n d % 2 = 0) := by
  have hdq : (0:Rat) < d := by exact_mod_cast hd
  unfold BinFmt.significand
  simp only
  split <;> rename_i h
  · obtain ⟨k, hk⟩ := Int.eq_ofNat_of_zero_le h
    have := divNearestEven_near n (d * 2^k) (by positivity)
    rw [hk]; simp only [Int.toNat_natCast, zpow_natCast]
    convert this using 4 <;> push_cast <;> field_simp
  · obtain ⟨k, hk⟩ := Int.eq_ofNat_of_zero_le (show 0 ≤ -f.quantum n d by omega)
    have hk' : f.quantum n d = -(k:Int) := by omega
    have := divNearestEven_near (n * 2^k) d hd
    rw [hk']; simp only [neg_neg, Int.toNat_natCast, zpow_natCast, zpow_neg]
    convert this using 4 <;> push_cast <;> field_simp

/-- `scaleByPow2` over the rationals. -/
theorem scaleByPow2_eq (m : Nat) (e : Int) : scaleByPow2 m e = (m:Rat) * 2^e := by
  unfold scaleByPow2
  split <;> rename_i h
  · obtain ⟨k, rfl⟩ := Int.eq_ofNat_of_zero_le h
    simp
  · obtain ⟨k, hk⟩ := Int.eq_ofNat_of_zero_le (show 0 ≤ -e by omega)
    obtain rfl : e = -(k : Int) := by omega
    simp [Rat.mkRat_eq_div, div_eq_mul_inv]

/-- `bytesOfNat k n` is `k` bytes long, and they read back as `n` where it fits. -/
theorem numberOfBytes_bytesOfNat : ∀ k n, n < 256^k →
    (bytesOfNat k n).length = k ∧ numberOfBytes (bytesOfNat k n) = n := by
  have gen : ∀ k n acc,
      (bytesOfNat k n).foldl (fun n (b : Byte) => 256 * n + b.toNat) acc = 256^k * acc + n % 256^k := by
    intro k
    induction k with
    | zero => intro n acc; simp [bytesOfNat, Nat.mod_one]
    | succ k ih =>
      intro n acc
      simp only [bytesOfNat, List.foldl_cons, ih, BitVec.toNat_ofNat]
      rw [Nat.shiftRight_eq_div_pow, pow_mul]
      norm_num
      rw [pow_succ, Nat.mod_mul]
      ring
  have len : ∀ k n, (bytesOfNat k n).length = k := by
    intro k; induction k <;> intro n <;> simp [bytesOfNat, *]
  intro k n h
  exact ⟨len k n, by rw [numberOfBytes, gen, Nat.mod_eq_of_lt h]; simp⟩

end Sys2Proof.Machine
end

