-- ==== Sys2Proof/Laws/PerInstr.lean ====
section
/-! SUPPORT. Laws/PerInstr.lean: the length a decoder expects of a command's packet (spec 30_encoding.md rule R67), one
lemma per command. -/

namespace Sys2Proof.Laws.EncodedLength

/-- The packet of a well-formed command has the length a decoder expects of it (R51, R67). -/
def Statement (i : Instr) : Prop :=
  ∀ maxText : Nat, i.wf maxText = true → expectedLength? (encode i) = some (encode i).length

theorem wake : Statement .wake := fun _ _ => rfl

theorem readWord (a : Byte) : Statement (.readWord a) := fun _ _ => rfl

theorem readTemp : Statement .readTemp := fun _ _ => rfl

theorem setAccelRange (a : Byte) : Statement (.setAccelRange a) := fun _ _ => rfl

theorem setGyroRange (a : Byte) : Statement (.setGyroRange a) := fun _ _ => rfl

theorem readRawAccelRange : Statement .readRawAccelRange := fun _ _ => rfl

theorem readRawGyroRange : Statement .readRawGyroRange := fun _ _ => rfl

theorem decodeAccelRange (a : Byte) : Statement (.decodeAccelRange a) := fun _ _ => rfl

theorem decodeGyroRange (a : Byte) : Statement (.decodeGyroRange a) := fun _ _ => rfl

theorem getAccelData (a : Byte) : Statement (.getAccelData a) := fun _ _ => rfl

theorem getGyroData : Statement .getGyroData := fun _ _ => rfl

theorem strobe (a : Byte) : Statement (.strobe a) := fun _ _ => rfl

theorem write4Bits (a : Byte) : Statement (.write4Bits a) := fun _ _ => rfl

theorem sendByte (a b : Byte) : Statement (.sendByte a b) := fun _ _ => rfl

theorem writeString (line : Byte) (text : List Byte) : Statement (.writeString line text) := by
  intro maxText h
  have hlen : text.length % 256 = text.length := by
    simp [Instr.wf] at h
    omega
  simp [expectedLength?, encode, Instr.mnemonic, Mnemonic.code, mnemonicOf?, Mnemonic.all, Mnemonic.format,
    Instr.operandBytes, hlen]
  omega

theorem clear : Statement .clear := fun _ _ => rfl

end Sys2Proof.Laws.EncodedLength
end

