-- ==== Sys2Proof/Laws/Step.lean ====
section
/-! SUPPORT. Laws/Step.lean: everything a unit's turn and a step can do when they answer a next state, said once. -/

namespace Sys2Proof.Machine

/-- What a unit does with the packet it has taken. -/
theorem State.execute_cases {s t : State} {u : UnitId} {packet : List Byte} (h : s.execute u packet = .next t) :
    (∃ i, decode u s.cds.params.maxText packet = .ok i ∧ exec i s = .next t) ∨
    (∃ e, decode u s.cds.params.maxText packet = .error e ∧ t = s.illegal u) := by
  unfold State.execute at h
  split at h
  · exact .inl ⟨_, ‹_›, h⟩
  · cases h
    exact .inr ⟨_, ‹_›, rfl⟩

/-- Everything the MSD's turn can do. -/
theorem State.msdTurn_cases {s t : State} (h : s.msdTurn = .next t) :
    ((s.msd.ctl.phase = .booting ∨ (s.msd.ctl.phase = .idle ∧ s.msd.bootDue = true)) ∧
      t = { s with msd := s.msd.bootTurn }) ∨
    (∃ i, s.msd.ctl.phase = .busy i ∧ t = { s with msd := s.msd.resumeTurn i }) ∨
    (s.msd.ctl.phase = .idle ∧ s.msd.bootDue = false ∧ s.msd.ctl.port = [] ∧ t = s) ∨
    (s.msd.ctl.phase = .idle ∧ s.msd.bootDue = false ∧ ∃ packet rest, s.msd.ctl.port = packet :: rest ∧
      (s.takePacket .msd).execute .msd packet = .next t) := by
  unfold State.msdTurn at h
  rcases hp : s.msd.ctl.phase with _ | _ | i <;> simp only [hp] at h
  · rcases hb : s.msd.bootDue with _ | _ <;> simp only [hb, if_true, Bool.false_eq_true, if_false] at h
    · rcases hq : s.msd.ctl.port with _ | ⟨packet, rest⟩ <;> simp only [hq] at h
      · cases h
        exact .inr (.inr (.inl ⟨rfl, rfl, rfl, rfl⟩))
      · exact .inr (.inr (.inr ⟨rfl, rfl, packet, rest, rfl, h⟩))
    · cases h
      exact .inl ⟨.inr ⟨rfl, rfl⟩, rfl⟩
  · cases h
    exact .inl ⟨.inl rfl, rfl⟩
  · cases h
    exact .inr (.inl ⟨i, rfl, rfl⟩)

/-- The boot action's turn: the write waits and the MSD is BUSY, it failed, or it is done (R135, R140). -/
theorem Msd.bootTurn_cases (m : Msd) :
    (m.replies = [] ∧ m.bootTurn = { m with bootDue := false, ctl := { m.ctl with phase := .booting } }) ∨
    (∃ rs, m.replies = .error :: rs ∧ m.bootTurn = { m with
      bootDue := false, replies := rs
      ctl := { m.ctl with
        phase := .idle, trace := m.ctl.trace ++ [.wrErr 0x6B 0x00], flags := { m.ctl.flags with terr := true } } }) ∨
    (∃ b rs, m.replies = .ok b :: rs ∧ m.bootTurn = { m with
      bootDue := false, replies := rs
      ctl := { m.ctl with phase := .idle, trace := m.ctl.trace ++ [.wr 0x6B 0x00] } }) := by
  rcases h : m.replies with _ | ⟨_ | _, rs⟩ <;>
    simp [Msd.bootTurn, Msd.issue, h, wakeWrite, pwrMgmt1, Ctl.log, MsdRegs.errEvent, MsdRegs.okEvent, MsdRegs.latch,
      MsdRegs.source]

/-- Everything the CDS's turn can do. -/
theorem State.cdsTurn_cases {s t : State} (h : s.cdsTurn = .next t) :
    (∃ i, s.cds.ctl.phase = .busy i ∧ t = { s with cds := s.cds.resumeTurn i }) ∨
    ((s.cds.ctl.phase = .booting ∨ (s.cds.ctl.phase = .idle ∧ s.cds.ctl.port = [])) ∧ t = s) ∨
    (s.cds.ctl.phase = .idle ∧ ∃ packet rest, s.cds.ctl.port = packet :: rest ∧
      (s.takePacket .cds).execute .cds packet = .next t) := by
  unfold State.cdsTurn at h
  rcases hp : s.cds.ctl.phase with _ | _ | i <;> simp only [hp] at h
  · rcases hq : s.cds.ctl.port with _ | ⟨packet, rest⟩ <;> simp only [hq] at h
    · cases h
      exact .inr (.inl ⟨.inr ⟨rfl, rfl⟩, rfl⟩)
    · exact .inr (.inr ⟨rfl, packet, rest, rfl, h⟩)
  · cases h
    exact .inr (.inl ⟨.inl rfl, rfl⟩)
  · cases h
    exact .inl ⟨i, rfl, rfl⟩

/-- Everything a step can do when it answers a next state: a unit's turn that keeps the bus discipline, or one move of the
environment. -/
theorem step_cases {s t : State} (h : step s = .next t) :
    (s.turn = .run .msd ∧ s.busClash .msd = false ∧ s.takeTurn.msdTurn = .next t) ∨
    (s.turn = .run .cds ∧ s.busClash .cds = false ∧ s.takeTurn.cdsTurn = .next t) ∨
    (∃ u packet, s.turn = .present u packet ∧ t = s.takeTurn.present packet u) ∨
    (∃ r, s.turn = .reply r ∧ t = s.takeTurn.answer r) ∨
    (∃ a, s.turn = .ack a ∧ t = s.takeTurn.acknowledge a) ∨
    (s.turn = .delayDone ∧ t = s.takeTurn.delayAnswer) ∨
    (∃ u, s.turn = .reset u ∧ t = s.takeTurn.resetUnit u) := by
  have hc : ∀ u, s.takeTurn.busClash u = s.busClash u := fun u => by cases u <;> rfl
  unfold step at h
  rcases ht : s.turn with u | ⟨u, packet⟩ | r | a | _ | u <;> simp only [ht, State.move] at h
  · simp only [State.unitTurn, hc] at h
    cases u <;> split at h
    · cases h
    · exact .inl ⟨rfl, by simpa using ‹¬ s.busClash .msd = true›, h⟩
    · cases h
    · exact .inr (.inl ⟨rfl, by simpa using ‹¬ s.busClash .cds = true›, h⟩)
  all_goals cases h; simp

end Sys2Proof.Machine
end

