-- ==== Sys2Proof/Tests/Slice0.lean ====
section
/-! SUPPORT. Tests/Slice0.lean: the model's own tests. Expected results are those of spec 95_test_vectors.md (the vector is
named at each test) or of the encoding tables; after them one witness per obligation that has hypotheses. -/

namespace Sys2Proof.Tests

open Sys2Proof.Machine

/-! ## Small states -/

/-- Both units IDLE on distinct buses, no boot action, nothing presented or answered. -/
def quiet : State :=
  { msd := Msd.reset { bus := 1, addr := 0x68, autoWake := false, tempDiv := .trunc, floatFmt := .exact } [] []
    cds := Cds.reset { bus := 2, addr := 0x27, line1Addr := 0x08, delayMs := ⟨1, by decide⟩, maxText := 255 } [] [] 0
    schedule := [] }

/-- The MSD's transport has these answers. -/
def replying (rs : List Reply) : State := { quiet with msd := { quiet.msd with replies := rs } }

/-- The CDS's transport has these answers, and every delay is answered. -/
def acking (as : List Ack) : State := { quiet with cds := { quiet.cds with acks := as, delays := 100 } }

/-- `n` writes are answered `ok`. -/
def oks (n : Nat) : List Ack := List.replicate n .ok

/-- The MSD's events and responses after a command. -/
def msdRun (i : Instr) (rs : List Reply) : Option (List Event × List Response) :=
  (nextState? (exec i (replying rs))).map fun t => (t.msd.ctl.trace, t.msd.ctl.responses)

/-- The CDS's events and responses after a command. -/
def cdsRun (i : Instr) (as : List Ack) : Option (List Event × List Response) :=
  (nextState? (exec i (acking as))).map fun t => (t.cds.ctl.trace, t.cds.ctl.responses)

/-- A write of each byte, with a delay after each. -/
def writes (vs : List Byte) : List Event := vs.flatMap fun v => [.raw v, .dly]

/-- A response with bytes. -/
def resp (completion : Byte) (bs : List Byte) : Response := { completion := completion, payload := .bytes bs }

/-- A response with exact numbers. -/
def nums (completion : Byte) (qs : List Rat) : Response := { completion := completion, payload := .nums (qs.map .exact) }

/-! ## WellFormed refuses what R62 calls illegal -/

theorem test_wf_refuses_register_FF : Instr.wf 255 (.readWord 0xFF) = false := by decide

theorem test_wf_refuses_reserved_flags :
    Instr.wf 255 (.getAccelData 0x02) = false ∧ Instr.wf 255 (.getAccelData 0x81) = false := by decide

theorem test_wf_refuses_text_over_MAX_TEXT : Instr.wf 1 (.writeString 1 [0x41, 0x42]) = false := by decide

theorem test_wf_refuses_text_over_a_byte : Instr.wf 1000 (.writeString 1 (List.replicate 256 0x41)) = false := by
  decide +kernel

/-! ## Packets written out from the opcode map (R51, R52) -/

theorem test_decode_WAKE : decode .msd 255 [0x10] = .ok .wake := by decide
theorem test_decode_READ_WORD : decode .msd 255 [0x11, 0xFE] = .ok (.readWord 0xFE) := by decide
theorem test_decode_READ_TEMP : decode .msd 255 [0x12] = .ok .readTemp := by decide
theorem test_decode_SET_ACCEL_RANGE : decode .msd 255 [0x13, 0x10] = .ok (.setAccelRange 0x10) := by decide
theorem test_decode_SET_GYRO_RANGE : decode .msd 255 [0x14, 0x08] = .ok (.setGyroRange 0x08) := by decide
theorem test_decode_READ_RAW_ACCEL_RANGE : decode .msd 255 [0x15] = .ok .readRawAccelRange := by decide
theorem test_decode_READ_RAW_GYRO_RANGE : decode .msd 255 [0x16] = .ok .readRawGyroRange := by decide
theorem test_decode_DECODE_ACCEL_RANGE : decode .msd 255 [0x17, 0x05] = .ok (.decodeAccelRange 0x05) := by decide
theorem test_decode_DECODE_GYRO_RANGE : decode .msd 255 [0x18, 0x18] = .ok (.decodeGyroRange 0x18) := by decide
theorem test_decode_GET_ACCEL_DATA : decode .msd 255 [0x19, 0x01] = .ok (.getAccelData 0x01) := by decide
theorem test_decode_GET_GYRO_DATA : decode .msd 255 [0x1A] = .ok .getGyroData := by decide
theorem test_decode_STROBE : decode .cds 255 [0x20, 0xA0] = .ok (.strobe 0xA0) := by decide
theorem test_decode_WRITE4BITS : decode .cds 255 [0x21, 0xB1] = .ok (.write4Bits 0xB1) := by decide
theorem test_decode_SEND_BYTE : decode .cds 255 [0x22, 0xAB, 0x01] = .ok (.sendByte 0xAB 0x01) := by decide
theorem test_decode_WRITE_STRING :
    decode .cds 255 [0x23, 0x02, 0x02, 0x48, 0x49] = .ok (.writeString 0x02 [0x48, 0x49]) := by decide
theorem test_decode_CLEAR : decode .cds 255 [0x24] = .ok .clear := by decide

/-- V-E4, the MSD's port. -/
theorem test_decode_refuses_msd :
    decode .msd 255 [] = .error .emptyPacket ∧ decode .msd 255 [0x00] = .error .unknownOpcode ∧
    decode .msd 255 [0x1B] = .error .unknownOpcode ∧ decode .msd 255 [0x20, 0xA0] = .error .wrongUnit ∧
    decode .msd 255 [0x10, 0x00] = .error .wrongLength ∧ decode .msd 255 [0x11] = .error .wrongLength ∧
    decode .msd 255 [0x11, 0xFF] = .error .registerFF ∧ decode .msd 255 [0x19, 0x02] = .error .reservedFlags ∧
    decode .msd 255 [0x19, 0x81] = .error .reservedFlags ∧ decode .msd 255 [0x19] = .error .wrongLength := by decide

/-- V-E4, the CDS's port, and R62 (b). -/
theorem test_decode_refuses_cds :
    decode .cds 255 [0x12] = .error .wrongUnit ∧ decode .cds 255 [0x25] = .error .unknownOpcode ∧
    decode .cds 255 [0x22, 0xAB] = .error .wrongLength ∧ decode .cds 255 [0x23, 0x02] = .error .wrongLength ∧
    decode .cds 255 [0x23, 0x02, 0x02, 0x48] = .error .wrongLength ∧
    decode .cds 255 [0x23, 0x02, 0x01, 0x48, 0x49] = .error .wrongLength ∧
    decode .cds 255 [0x24, 0x00] = .error .wrongLength ∧
    decode .cds 1 [0x23, 0x02, 0x02, 0x48, 0x49] = .error .textTooLong := by decide

/-! ## The MSD's commands -/

/-- V-A1. -/
theorem test_WAKE : msdRun .wake [.ok 0] = some ([.wr 0x6B 0x00], [resp 0x00 []]) := by decide

/-- V-W1: the low byte is not sign-extended, the high byte is the one at the lower register. -/
theorem test_READ_WORD_bytes :
    msdRun (.readWord 0xFE) [.ok 0xAB, .ok 0xCD] =
      some ([.rd 0xFE 0xAB, .rd 0xFF 0xCD], [resp 0x00 [0xAB, 0xCD]]) := by decide

/-- V-W1: W and the result of 0x8001 and 0x00FF. -/
theorem test_READ_WORD_sign :
    (nextState? (exec (.readWord 0x3B) (replying [.ok 0x80, .ok 0x01]))).map (·.msd.regs.v0) = some (-32767) ∧
    (nextState? (exec (.readWord 0x3B) (replying [.ok 0x00, .ok 0xFF]))).map (·.msd.regs.v0) = some 255 := by decide

/-- V-A1: returned unmasked. -/
theorem test_READ_RAW_ACCEL_RANGE :
    msdRun .readRawAccelRange [.ok 0xE7] = some ([.rd 0x1C 0xE7], [resp 0x00 [0xE7]]) := by decide

/-- V-A1. -/
theorem test_READ_RAW_GYRO_RANGE :
    msdRun .readRawGyroRange [.ok 0x18] = some ([.rd 0x1B 0x18], [resp 0x00 [0x18]]) := by decide

/-- V-A1: still two writes. -/
theorem test_SET_ACCEL_RANGE_zero :
    msdRun (.setAccelRange 0x00) [.ok 0, .ok 0] = some ([.wr 0x1C 0x00, .wr 0x1C 0x00], [resp 0x00 []]) := by decide

/-- V-E2: failing at `upc` 1. -/
theorem test_SET_ACCEL_RANGE_abort :
    msdRun (.setAccelRange 0x10) [.ok 0, .error] =
      some ([.wr 0x1C 0x00, .wrErr 0x1C 0x10], [resp 0x01 [0x00, 0x01]]) := by decide

/-- V-A1. -/
theorem test_SET_GYRO_RANGE :
    msdRun (.setGyroRange 0x18) [.ok 0, .ok 0] = some ([.wr 0x1B 0x00, .wr 0x1B 0x18], [resp 0x00 []]) := by decide

/-- V-S2. -/
theorem test_DECODE_ACCEL_RANGE :
    msdRun (.decodeAccelRange 0x10) [] = some ([], [resp 0x00 [0x00, 0x08]]) ∧
    msdRun (.decodeAccelRange 0x05) [] = some ([], [resp 0x00 [0xFF, 0xFF]]) := by decide

/-- V-R1. -/
theorem test_DECODE_GYRO_RANGE :
    msdRun (.decodeGyroRange 0x08) [] = some ([], [resp 0x00 [0x01, 0xF4]]) ∧
    msdRun (.decodeGyroRange 0x20) [] = some ([], [resp 0x00 [0xFF, 0xFF]]) := by decide

/-- V-D3: raw -341, toward zero. -/
theorem test_READ_TEMP_toward_zero :
    msdRun .readTemp [.ok 0xFE, .ok 0xAB] =
      some ([.rd 0x41 0xFE, .rd 0x42 0xAB], [nums 0x00 [3553 / 100]]) := by decide +kernel

/-- V-F1: raw -12345 in both binary formats, where the sum cancels. -/
theorem test_temperature_binary :
    NumValue.ofRat .binary64 (temperature .trunc .binary64 (-12345)) =
      .image [0x3F, 0xE0, 0xF5, 0xC2, 0x8F, 0x5C, 0x29, 0x00] ∧
    NumValue.ofRat .binary32 (temperature .trunc .binary32 (-12345)) = .image [0x3F, 0x07, 0xAE, 0x00] := by
  decide +kernel

/-- PROG1 step 5: three axes, in m/s². -/
theorem test_GET_ACCEL_DATA :
    msdRun (.getAccelData 0x00) ([0x10, 0x00, 0xF0, 0x00, 0x03, 0xE8, 0x08].map .ok) =
      some ([.rd 0x3B 0x10, .rd 0x3C 0x00, .rd 0x3D 0xF0, .rd 0x3E 0x00, .rd 0x3F 0x03, .rd 0x40 0xE8, .rd 0x1C 0x08],
        [nums 0x00 [196133 / 40000, -196133 / 40000, 196133 / 163840]]) := by decide +kernel

/-- V-E1: failing at `upc` 3, no result. -/
theorem test_GET_ACCEL_DATA_abort :
    msdRun (.getAccelData 0x01) [.ok 0, .ok 0, .ok 0, .error] =
      some ([.rd 0x3B 0, .rd 0x3C 0, .rd 0x3D 0, .rdErr 0x3E], [resp 0x01 [0x00, 0x03]]) := by decide

/-- PROG2 step 1: an unknown range byte. -/
theorem test_GET_GYRO_DATA_unknown_range :
    (nextState? (exec .getGyroData (replying ([0x03, 0xE8, 0x00, 0x00, 0xFF, 0xFF, 0x07].map .ok)))).map
        (fun t => (t.msd.ctl.responses, t.status .msd)) =
      some ([nums 0x10 [1000 / 131, 0, -1 / 131]], 0x04) := by decide +kernel

/-- V-F1: raw 1 at 1000 degrees per second, the modifier itself rounded. -/
theorem test_gyro_binary :
    NumValue.ofRat .binary64 (divideAxis .binary64 (gyroScale 0x10).1 1) =
      .image [0x3F, 0x9F, 0x38, 0x31, 0xF3, 0x83, 0x1F, 0x39] ∧
    NumValue.ofRat .binary32 (divideAxis .binary32 (gyroScale 0x10).1 1) = .image [0x3C, 0xF9, 0xC1, 0x90] := by
  decide +kernel

/-! ## The CDS's commands -/

/-- V-C2. -/
theorem test_STROBE : cdsRun (.strobe 0xFF) (oks 2) = some (writes [0xFF, 0xFB], [resp 0x00 []]) := by decide

/-- V-E3: no delay follows the failed write. -/
theorem test_STROBE_abort :
    cdsRun (.strobe 0xA0) [.ok, .error] = some ([.raw 0xAC, .dly, .rawErr 0xA8], [resp 0x01 [0x00, 0x02]]) := by decide

/-- V-C2: enable 1, 1, 0. -/
theorem test_WRITE4BITS : cdsRun (.write4Bits 0x04) (oks 3) = some (writes [0x0C, 0x0C, 0x08], [resp 0x00 []]) := by
  decide

/-- V-S4. -/
theorem test_SEND_BYTE :
    cdsRun (.sendByte 0xAB 0x00) (oks 6) = some (writes [0xA8, 0xAC, 0xA8, 0xB8, 0xBC, 0xB8], [resp 0x00 []]) := by
  decide

/-- V-C2: the mode is ORed verbatim. -/
theorem test_SEND_BYTE_mode :
    cdsRun (.sendByte 0x12 0xF0) (oks 6) = some (writes [0xF8, 0xFC, 0xF8, 0xF8, 0xFC, 0xF8], [resp 0x00 []]) := by
  decide

/-- V-S5. -/
theorem test_WRITE_STRING :
    cdsRun (.writeString 2 [0x48, 0x49]) (oks 18) =
      some (writes [0xC8, 0xCC, 0xC8, 0x08, 0x0C, 0x08, 0x49, 0x4D, 0x49, 0x89, 0x8D, 0x89,
        0x49, 0x4D, 0x49, 0x99, 0x9D, 0x99], [resp 0x00 []]) := by decide +kernel

/-- PROG4 step 1: a bad line and an abort at `upc` 14; `STATUS` is 0x0A. -/
theorem test_WRITE_STRING_bad_line_abort :
    (nextState? (exec (.writeString 9 [0x41]) (acking (oks 7 ++ [.error])))).map
        (fun t => (t.cds.ctl.trace, t.cds.ctl.responses, t.status .cds)) =
      some (writes [0x08, 0x0C, 0x08, 0x88, 0x8C, 0x88, 0x49] ++ [.rawErr 0x4D], [resp 0x21 [0x00, 0x0E]], 0x0A) := by
  decide +kernel

/-- V-C2. -/
theorem test_CLEAR :
    cdsRun .clear (oks 12) =
      some (writes [0x08, 0x0C, 0x08, 0x18, 0x1C, 0x18, 0x08, 0x0C, 0x08, 0x28, 0x2C, 0x28], [resp 0x00 []]) := by
  decide

/-! ## Turns -/

/-- R135, R140: the first turn from reset issues the boot write, and the MSD is BUSY until it is answered. -/
theorem test_boot_waits :
    (nextState? (step State.reset)).map (fun t => (t.msd.ctl.phase, t.status .msd)) = some (.booting, 0x01) := by decide

/-- R135: the boot write fails, `TERR` is set and the MSD is IDLE. -/
theorem test_boot_fails :
    (nextState? (step { State.reset with msd := { State.reset.msd with replies := [.error] } })).map
      (fun t => (t.msd.ctl.trace, t.msd.ctl.responses, t.status .msd)) = some ([.wrErr 0x6B 0x00], [], 0x02) := by decide

/-- R113: an illegal packet is answered and sets `ILL` (V-E4). -/
theorem test_illegal_packet :
    (nextState? (step { quiet with
      msd := { quiet.msd with ctl := { quiet.msd.ctl with port := [[0x11, 0xFF]] } }, schedule := [.run .msd] })).map
        (fun t => (t.msd.ctl.trace, t.msd.ctl.responses, t.status .msd)) = some ([], [resp 0x02 []], 0x10) := by decide

/-- R140: BUSY, with `upc` at the read that is not answered. -/
theorem test_waiting :
    (nextState? (exec (.readWord 0x3B) (replying [.ok 0x12]))).map (fun t => (t.msd.ctl.upc, t.status .msd)) =
      some (1, 0x01) := by decide

/-- The host's placement runs the placed command: `SEND_BYTE 0xAB, 0x00` waits at its first write. -/
theorem test_withFetchWord :
    (nextState? (step (State.reset.withFetchWord 24 0x22AB00))).map (·.cds.ctl.phase) =
      some (.busy (.sendByte 0xAB 0x00)) := by decide

/-- R43, R140: READ_WORD goes on after a late answer, and ends with the two bytes (V-W1). -/
theorem test_late_answer :
    ((nextState? (exec (.readWord 0xFE) (replying [.ok 0xAB]))).bind fun t =>
      (nextState? (step { t with schedule := [.reply (.ok 0xCD)] })).bind fun t =>
        nextState? (step { t with schedule := [.run .msd] })).map (fun t => (t.msd.ctl.trace, t.msd.ctl.responses)) =
      some ([.rd 0xFE 0xAB, .rd 0xFF 0xCD], [resp 0x00 [0xAB, 0xCD]]) := by decide

/-! ## One witness per obligation that has hypotheses: a concrete input that meets them together, for each clause -/

/-- A state in the middle of `READ_WORD 0x3B` (MSD) and of `STROBE 0xA0` (CDS, at its first delay). -/
def midway : State :=
  { quiet with
    msd := { quiet.msd with
      regs := { quiet.msd.regs with opa := 0x3B, hi := 0x12 }
      ctl := { quiet.msd.ctl with phase := .busy (.readWord 0x3B), upc := 1, trace := [.rd 0x3B 0x12] } }
    cds := { quiet.cds with
      regs := { quiet.cds.regs with nib := 0xA0 }
      ctl := { quiet.cds.ctl with phase := .busy (.strobe 0xA0), upc := 1, trace := [.raw 0xAC] } } }

/-- The MSD's part of the invariant in `midway`. -/
theorem midway_msd_inv : midway.msd.Inv := by
  refine ⟨by simp [midway], ?_, by simp [midway, quiet, Msd.reset], by simp [midway], rfl, by decide, by decide, by decide, rfl, rfl, rfl, rfl,
    by decide, by decide⟩
  intro i h
  obtain rfl : Instr.readWord 0x3B = i := by simpa [midway] using h
  exact ⟨.inr rfl, readWordCommand 0x3B, rfl, by decide⟩

/-- The CDS's part of the invariant in `midway`. -/
theorem midway_cds_inv : midway.cds.Inv := by
  refine ⟨by simp [midway], by simp [midway], ?_, ⟨rfl, rfl⟩, rfl, rfl, rfl, by simp [midway, quiet, Cds.reset, Ctl.reset], ?_,
    rfl, ?_⟩
  · intro i h
    obtain rfl : Instr.strobe 0xA0 = i := by simpa [midway] using h
    exact ⟨rfl, rfl, strobeCommand 0xA0, rfl, by decide⟩
  · exact ⟨List.length_replicate, by decide, by decide⟩
  · simp [midway, quiet, Event.rawByte?]

/-- `midway` with a move scheduled. -/
def midwayThen (t : Turn) : State := { midway with schedule := [t] }

theorem midwayThen_inv (t : Turn) : (midwayThen t).Inv := ⟨midway_msd_inv, midway_cds_inv⟩

/-- Both units on one bus. -/
def sharedBus (s : State) : State := { s with msd := { s.msd with params := { s.msd.params with bus := 2 } } }

/-- Packets stand on the ports, and a move is scheduled. -/
def presented (s : State) (msd cds : List (List Byte)) (t : Turn) : State :=
  { s with
    msd := { s.msd with ctl := { s.msd.ctl with port := msd } }
    cds := { s.cds with ctl := { s.cds.ctl with port := cds } }
    schedule := [t] }

theorem witness_DecodeOfEncodeIsTheCommand :
    Instr.wf 255 (.readWord 0xFE) = true ∧ Instr.wf 0 (.writeString 9 []) = true ∧
    Instr.wf 300 (.writeString 4 (List.replicate 255 0x00)) = true := by decide +kernel

theorem witness_DecodedPacketIsItsOwnEncoding :
    decode .cds 1 [0x23, 0x09, 0x01, 0x00] = .ok (.writeString 0x09 [0x00]) ∧
    decode .msd 0 [0x19, 0x01] = .ok (.getAccelData 0x01) := by decide

theorem witness_ExactlyTheLegalPacketsAreExecuted :
    ¬ legalPacket .msd 255 [0x1B] ∧ ¬ legalPacket .msd 255 [0x11, 0xFF] ∧ ¬ legalPacket .cds 255 [0x12] ∧
    legalPacket .msd 255 [0x11, 0xFE] ∧ legalPacket .cds 1 [0x23, 0x00, 0x01, 0x41] ∧
    ¬ legalPacket .cds 0 [0x23, 0x00, 0x01, 0x41] := by
  simp [legalPacket]

theorem witness_StepExecutesTheNextPacket_illegal :
    decode .msd quiet.cds.params.maxText [0x11, 0xFF] = .error .registerFF ∧
    decode .cds quiet.cds.params.maxText [0x12] = .error .wrongUnit := by decide

theorem witness_StepExecutesTheNextPacket_msd :
    let s := presented quiet [[0x11, 0xFE]] [] (.run .msd)
    s.turn = .run .msd ∧ s.busClash .msd = false ∧ s.msd.bootDue = false ∧ s.msd.ctl.phase = .idle ∧
    s.msd.ctl.port.head? = some [0x11, 0xFE] ∧
    decode .msd s.cds.params.maxText [0x11, 0xFE] = .ok (.readWord 0xFE) := by decide

theorem witness_StepExecutesTheNextPacket_cds :
    let s := presented quiet [] [[0x24]] (.run .cds)
    s.turn = .run .cds ∧ s.busClash .cds = false ∧ s.cds.ctl.phase = .idle ∧ s.cds.ctl.port.head? = some [0x24] ∧
    decode .cds s.cds.params.maxText [0x24] = .ok .clear := by decide

/-- The turns of two BUSY units that keep the bus discipline. -/
theorem witness_StepExecutesTheNextPacket_busy :
    (midwayThen (.run .msd)).turn = .run .msd ∧ (midwayThen (.run .msd)).busClash .msd = false ∧
    (midwayThen (.run .msd)).msd.ctl.phase = .busy (.readWord 0x3B) ∧
    (midwayThen (.run .cds)).turn = .run .cds ∧ (midwayThen (.run .cds)).busClash .cds = false ∧
    (midwayThen (.run .cds)).cds.ctl.phase = .busy (.strobe 0xA0) := by decide

theorem witness_PresentedPacketsAndAnswersWait :
    (midwayThen (.present .msd [0x24])).schedule = .present .msd [0x24] :: [] ∧
    (midwayThen (.present .cds [0x24])).schedule = .present .cds [0x24] :: [] ∧
    (midwayThen (.reply .error)).schedule = .reply .error :: [] ∧
    (midwayThen (.ack .ok)).schedule = .ack .ok :: [] ∧
    (midwayThen .delayDone).schedule = .delayDone :: [] := ⟨rfl, rfl, rfl, rfl, rfl⟩

/-- Both units BUSY, the step is a turn that ends the MSD's command, or leaves the CDS waiting. -/
theorem witness_BusyUnitAcceptsNoPacket :
    let s : State := { midwayThen (.run .msd) with msd := { midway.msd with replies := [.ok 0x34] } }
    s.Inv ∧ (∃ t, step s = .next t) ∧ s.turn ≠ .reset .msd ∧ s.msd.ctl.phase = .busy (.readWord 0x3B) ∧
    (∃ t, step (midwayThen (.run .cds)) = .next t) ∧ (midwayThen (.run .cds)).turn ≠ .reset .cds ∧
    (midwayThen (.run .cds)).cds.ctl.phase = .busy (.strobe 0xA0) := by
  refine ⟨⟨?_, midway_cds_inv⟩, ⟨_, rfl⟩, by decide, rfl, ⟨_, rfl⟩, by decide, rfl⟩
  obtain ⟨h1, h2, h3, h4, h5, h6, h7, h8, h9, h10, h11, h12, h13, h14⟩ := midway_msd_inv
  exact ⟨h1, h2, h3, h4, h5, h6, h7, h8, h9, h10, h11, h12, h13, h14⟩

theorem witness_IdleUnitWithoutPacketChangesNothing :
    (let s := presented quiet [] [] (.run .msd)
     s.turn = .run .msd ∧ s.msd.bootDue = false ∧ s.msd.ctl.phase = .idle ∧ s.msd.ctl.port = []) ∧
    (let s := presented quiet [] [] (.run .cds)
     s.turn = .run .cds ∧ s.cds.ctl.phase = .idle ∧ s.cds.ctl.port = []) := by decide

/-- Turns that keep the bus discipline: on distinct buses, on one bus with the other unit IDLE, and with nothing to do. -/
theorem witness_SharedBusIsSerialised_kept :
    (∃ t, step (presented midway [] [[0x24]] (.run .cds)) = .next t) ∧
    (∃ t, step (presented (sharedBus quiet) [[0x12]] [] (.run .msd)) = .next t) ∧
    (∃ t, step (presented (sharedBus { midway with msd := quiet.msd }) [] [] (.run .msd)) = .next t) :=
  ⟨⟨_, rfl⟩, ⟨_, rfl⟩, _, rfl⟩

/-- Turns that break it: the CDS's while the MSD reads, and the MSD's on a command, on a decode command and on an illegal
packet while the CDS waits for a delay. -/
theorem witness_SharedBusIsSerialised_broken :
    let cdsBusy (packet : List Byte) := presented (sharedBus { midway with msd := quiet.msd }) [packet] [] (.run .msd)
    step (presented (sharedBus midway) [] [[0x24]] (.run .cds)) = .refused .busNotSerialised ∧
    step (cdsBusy [0x12]) = .refused .busNotSerialised ∧ step (cdsBusy [0x17, 0x08]) = .refused .busNotSerialised ∧
    step (cdsBusy [0x00]) = .refused .busNotSerialised := ⟨rfl, rfl, rfl, rfl⟩

theorem witness_OneResponseOrStillBusy :
    (∃ t, exec (.readWord 0x3B) (replying [.ok 0x12]) = .next t) ∧ (Instr.readWord 0x3B).unit = .msd ∧
    (∃ t, exec .clear (acking []) = .next t) ∧ Instr.clear.unit = .cds := ⟨⟨_, rfl⟩, rfl, ⟨_, rfl⟩, rfl⟩

theorem witness_SignedReinterpretation :
    (0x7FFF : Word).toNat < 32768 ∧ 32768 ≤ (0x8000 : Word).toNat ∧ 32768 ≤ (0xFFFF : Word).toNat := by decide

theorem witness_RangeLookup_and_ScaleModifiers :
    (0x05 : Byte) ∉ ([0x00, 0x08, 0x10, 0x18] : List Byte) ∧ (0x09 : Byte) ∉ ([0x00, 0x08, 0x10, 0x18] : List Byte) ∧
    (0xFF : Byte) ∉ ([0x00, 0x08, 0x10, 0x18] : List Byte) := by decide

theorem witness_NibbleSplit : 3 < 4 ∧ ((0x01 : Byte) = 0x00 ∨ (0x01 : Byte) = 0x01) := by decide

theorem witness_RegisterLayouts : 5 ≤ 5 ∧ 5 ≤ 7 ∧ 6 ≤ 7 := by decide

theorem witness_BoundsOnResults : (gyroScale 0x00).1 = 131 ∧ (gyroScale 0x05).1 = 131 := by decide +kernel

theorem witness_UnitsAreIndependent :
    (∃ t, exec (.getAccelData 0x02) midway = .next t) ∧ (Instr.getAccelData 0x02).unit = .msd ∧
    (∃ t, exec (.writeString 9 [0x41]) midway = .next t) ∧ (Instr.writeString 9 [0x41]).unit = .cds :=
  ⟨⟨_, rfl⟩, rfl, ⟨_, rfl⟩, rfl⟩

theorem witness_WrittenForms : (0xA0 : Byte).getLsbD 2 = false := by decide

theorem witness_LineAddressTable : 5 ≤ (0x05 : Byte).toNat ∧ 5 ≤ (0xFF : Byte).toNat := by decide

theorem witness_TemperatureFormula :
    (-32768 : Int) ≤ -32768 ∧ (-32768 : Int) ≤ 32767 ∧ (0 : Int) ≤ 340 ∧ (-341 : Int) ≤ 0 := by decide

theorem witness_QuotientIsRoundedToNearestEven :
    0 < 2 ∧ 2 * 5 = (2 * divNearestEven 5 2 + 1) * 2 ∧ (2 * divNearestEven 3 2) * 2 = 2 * 3 + 2 := by decide

/-- 2 ^ 24 + 1 lies in the middle of two numbers of `binary32`, and the even one is taken. -/
theorem witness_RoundingGivesTheNearestNumber :
    binary32 ∈ [binary32, binary64] ∧ binary64 ∈ [binary32, binary64] ∧ binary32.round 16777217 = 16777216 ∧
    binary32.Represents 16777218 ∧ |(16777216 : Rat) - 16777217| = |(16777218 : Rat) - 16777217| ∧
    (16777218 : Rat) ≠ 16777216 :=
  ⟨by simp, by simp, by decide +kernel, ⟨8388609, 1, by decide, by decide, by norm_num⟩, by norm_num, by norm_num⟩

theorem witness_ImageEncodesTheRoundedNumber : |(0 : Rat)| ≤ 2 ^ 127 ∧ |(-(2 ^ 127) : Rat)| ≤ 2 ^ 127 := by norm_num

theorem witness_ScaledResultsFollowTheFormulas :
    (FloatFmt.binary32, binary32) ∈ [(FloatFmt.binary32, binary32), (.binary64, binary64)] ∧
    (FloatFmt.binary64, binary64) ∈ [(FloatFmt.binary32, binary32), (.binary64, binary64)] := by simp

theorem witness_IntegersConvertExactly : (-65536 : Int) ≤ 65536 ∧ (-65536 : Int) ≤ -1 ∧ (-1 : Int) ≤ 65536 := by decide

theorem witness_MsdCompletions :
    (replying [.ok 0x12, .ok 0x34]).msd.replies = .ok 0x12 :: .ok 0x34 :: [] ∧ (0xFE : Byte) ≠ 0xFF ∧
    (replying ([1, 2, 3, 4, 5, 6, 7].map .ok)).msd.replies = [1, 2, 3, 4, 5, 6, 7].map .ok ++ [] := by decide

theorem witness_CdsCompletions :
    (acking (oks 3)).cds.acks = List.replicate 2 .ok ++ [.ok] ∧ (acking (oks 3)).cds.delays = 2 + 98 ∧
    (acking (oks 3)).cds.acks = List.replicate 3 .ok ++ [] ∧ (acking (oks 3)).cds.delays = 3 + 97 ∧
    (acking (oks 6)).cds.acks = List.replicate 6 .ok ++ [] ∧ (acking (oks 6)).cds.delays = 6 + 94 ∧
    (acking (oks 12)).cds.acks = List.replicate 12 .ok ++ [] ∧ (acking (oks 12)).cds.delays = 12 + 88 := by decide

theorem witness_WriteStringCompletes :
    ([0x41] : List Byte).length ≤ (acking (oks 12)).cds.params.maxText ∧ ([0x41] : List Byte).length ≤ 255 ∧
    (acking (oks 12)).cds.acks = List.replicate (6 * (1 + ([0x41] : List Byte).length)) .ok ++ [] ∧
    (acking (oks 12)).cds.delays = 6 * (1 + ([0x41] : List Byte).length) + 88 := by decide

theorem witness_MicroOperationCounts :
    msdCommand? .wake = some wakeCommand ∧ cdsCommand? (.strobe 0xA0) = some (strobeCommand 0xA0) ∧
    (strobeCommand 0xA0).ops[3]? = some { loads := [], out := .delay } := ⟨rfl, rfl, rfl⟩

theorem witness_ReservedOperandsAreRefused :
    (0x80 : Byte) &&& 0xFE ≠ 0x00 ∧ (0x02 : Byte) &&& 0xFE ≠ 0x00 ∧
    ({ quiet.cds with params := { quiet.cds.params with maxText := 1 } } : Cds).params.maxText <
      ([0x41, 0x42] : List Byte).length ∧
    quiet.cds.params.maxText < (List.replicate 256 (0x41 : Byte)).length ∧ 255 < (List.replicate 256 (0x41 : Byte)).length := by
  decide +kernel

theorem witness_MsdCommandAbortsAtTheFirstError :
    let s := replying [.ok 0x12, .error]
    msdCommand? (.readWord 0x3B) = some (readWordCommand 0x3B) ∧ (Instr.readWord 0x3B).wf s.cds.params.maxText = true ∧
    (readWordCommand 0x3B).ops[([0x12] : List Byte).length]? = some (.readLo 0x3C .v0) ∧
    s.msd.replies = ([0x12] : List Byte).map .ok ++ .error :: [] := ⟨rfl, rfl, rfl, rfl⟩

theorem witness_CdsCommandAbortsAtTheFirstError :
    let s := acking [.ok, .error]
    cdsCommand? (.strobe 0xA0) = some (strobeCommand 0xA0) ∧ (Instr.strobe 0xA0).wf s.cds.params.maxText = true ∧
    (((strobeCommand 0xA0).capture s.cds.regs).eventsOf s.cds.params.line1Addr (strobeCommand 0xA0).ops)[2 * 1]? =
      some (.raw 0xA8) ∧
    s.cds.acks = List.replicate 1 .ok ++ .error :: [] ∧ s.cds.delays = 1 + 99 := ⟨rfl, rfl, rfl, rfl, rfl⟩

theorem witness_MsdCommandWaitsForAMissingAnswer :
    let s := replying [.ok 0x12]
    msdCommand? (.readWord 0x3B) = some (readWordCommand 0x3B) ∧ (Instr.readWord 0x3B).wf s.cds.params.maxText = true ∧
    ([0x12] : List Byte).length < (readWordCommand 0x3B).ops.length ∧
    s.msd.replies = ([0x12] : List Byte).map .ok := ⟨rfl, rfl, by decide, rfl⟩

/-- A write that waits and a delay that waits. -/
theorem witness_CdsCommandWaitsForAMissingAnswer :
    (let s := acking [.ok]
     cdsCommand? (.strobe 0xA0) = some (strobeCommand 0xA0) ∧ (Instr.strobe 0xA0).wf s.cds.params.maxText = true ∧
     2 < (strobeCommand 0xA0).ops.length ∧ 2 = 2 * 1 ∧ s.cds.acks = List.replicate 1 .ok ∧ s.cds.delays = 1 + 99) ∧
    (let s : State := { quiet with cds := { quiet.cds with acks := [.ok, .error], delays := 0 } }
     1 < (strobeCommand 0xA0).ops.length ∧ 1 = 2 * 0 + 1 ∧ s.cds.acks = List.replicate (0 + 1) .ok ++ [.error] ∧
     s.cds.delays = 0) := ⟨⟨rfl, rfl, by decide, rfl, rfl, rfl⟩, by decide, rfl, rfl, rfl⟩

/-- The three clauses of the boot action, not issued and issued: answered `ok`, answered `error`, and not answered. -/
theorem witness_BootActionComesFirst :
    let due (rs : List Reply) : State :=
      { quiet with msd := { quiet.msd with bootDue := true, replies := rs }, schedule := [.run .msd] }
    let issued (rs : List Reply) : State :=
      { quiet with
        msd := { quiet.msd with ctl := { quiet.msd.ctl with phase := .booting }, replies := rs }
        schedule := [.run .msd] }
    (∀ rs, (due rs).turn = .run .msd ∧ (due rs).busClash .msd = false ∧ (due rs).msd.ctl.phase = .idle ∧
      (due rs).msd.bootDue = true ∧ (due rs).msd.replies = rs) ∧
    (∀ rs, (issued rs).turn = .run .msd ∧ (issued rs).busClash .msd = false ∧ (issued rs).msd.ctl.phase = .booting ∧
      (issued rs).msd.replies = rs) :=
  ⟨fun _ => ⟨rfl, rfl, rfl, rfl, rfl⟩, fun _ => ⟨rfl, rfl, rfl, rfl⟩⟩

theorem witness_ResetClearsOneUnit :
    (midwayThen (.reset .msd)).schedule = .reset .msd :: [] ∧
    (midwayThen (.reset .cds)).schedule = .reset .cds :: [] := ⟨rfl, rfl⟩

theorem witness_StepKeepsTheInvariant :
    (midwayThen (.run .msd)).Inv ∧ (∃ t, step (midwayThen (.run .msd)) = .next t) ∧
    (midwayThen (.reset .cds)).Inv ∧ (∃ t, step (midwayThen (.reset .cds)) = .next t) :=
  ⟨midwayThen_inv _, ⟨_, rfl⟩, midwayThen_inv _, _, rfl⟩

/-- For the statements about every step that is not a reset of the unit. -/
theorem witness_EveryStep :
    (∃ t, step (midwayThen (.ack .ok)) = .next t) ∧ (midwayThen (.ack .ok)).turn ≠ .reset .msd ∧
    (midwayThen (.ack .ok)).turn ≠ .reset .cds := ⟨⟨_, rfl⟩, by decide, by decide⟩

theorem witness_OldRegistersAndFlagsDoNotMatter :
    let s := replying [.ok 0x12]
    let s' : State := { s with msd := { s.msd with
      regs := { s.msd.regs with hi := 0x55 }
      ctl := { s.msd.ctl with flags := { s.msd.ctl.flags with terr := true } } } }
    s ≠ s' ∧ s.forget = s'.forget ∧ (∃ t, exec (.readWord 0x3B) s = .next t) ∧
    ∃ t, exec (.readWord 0x3B) s' = .next t := ⟨by decide, by decide, ⟨_, rfl⟩, _, rfl⟩

theorem witness_LateAnswersContinueAnMsdCommand :
    msdCommand? (.readWord 0x3B) = some (readWordCommand 0x3B) ∧
    ({ quiet.msd with replies := [.ok 0x12] }.start (.readWord 0x3B) (readWordCommand 0x3B)).ctl.isBusy = true := by
  constructor
  · rfl
  · decide

theorem witness_LateAnswersContinueACdsCommand :
    cdsCommand? (.strobe 0xA0) = some (strobeCommand 0xA0) ∧
    ({ quiet.cds with acks := [.ok], delays := 0 }.start (.strobe 0xA0) (strobeCommand 0xA0)).ctl.isBusy = true := by
  constructor
  · rfl
  · decide

theorem witness_DelaysTakeAtLeastTheirTime :
    let s := acking (oks 2)
    cdsCommand? (.strobe 0xA0) = some (strobeCommand 0xA0) ∧ (Instr.strobe 0xA0).wf s.cds.params.maxText = true ∧
    (strobeCommand 0xA0).ops.length = 2 * 2 ∧ s.cds.acks = List.replicate 2 .ok ++ [] ∧ s.cds.delays = 2 + 98 ∧
    ∃ t, exec (.strobe 0xA0) s = .next t := ⟨rfl, rfl, rfl, rfl, rfl, _, rfl⟩

theorem witness_SentByteIsRecoveredFromItsTrace :
    (acking (oks 6)).cds.acks = List.replicate 6 .ok ++ [] ∧ (acking (oks 6)).cds.delays = 6 + 94 ∧
    (0x01 : Byte).getLsbD 2 = false ∧ (0x0F : Byte) &&& 0xF0 = 0x00 ∧ (0xF0 : Byte) &&& 0xF0 ≠ 0x00 := by decide

/-! ## The assembler: the lines of R64 and 95_test_vectors.md PROG3, as text -/

theorem test_assemble_read_word : assembleLine "READ_WORD 0x3B".toList = some (.readWord 0x3B) := by decide +kernel

theorem test_assemble_program_of_prog3 :
    (assembleProgram .cds "CLEAR\nWRITE_STRING \"HI\", 2".toList).map (·.map encode) =
      some [[0x24], [0x23, 0x02, 0x02, 0x48, 0x49]] := by decide +kernel

theorem test_assemble_byte_list_and_default :
    assembleLine "WRITE_STRING [0x48, 0x49], 2".toList = some (.writeString 0x02 [0x48, 0x49]) ∧
    assembleLine "GET_ACCEL_DATA".toList = some (.getAccelData 0x00) ∧
    assembleLine "SET_ACCEL_RANGE ACCEL_RANGE_4G".toList = some (.setAccelRange 0x08) ∧
    assembleLine "READ_WORD 256".toList = none := by decide +kernel

end Sys2Proof.Tests
end

/-! # Encoding: which packets decode (spec 30_encoding.md rules R50 to R55, R59, R61, R62, R67)

The decoder is described once: by the opcode map read backwards, by the shape each format gives the operand bytes, and by
what a packet that decodes is. The obligations are short uses of these lemmas. -/

namespace Sys2Proof

open Sys2Proof.Machine

/-! ## The opcode map (R52) -/

@[simp] theorem mnemonicOf?_code (m : Mnemonic) : mnemonicOf? m.code = some m := by
  cases m <;> rfl

/-- An opcode byte names the mnemonic whose code it is, and no other (R52). -/
theorem mnemonicOf?_eq_some_iff (op : Byte) (m : Mnemonic) : mnemonicOf? op = some m ↔ op = m.code := by
  constructor
  · intro h
    have hcode : (m.code == op) = true := List.find?_some (p := fun m : Mnemonic => m.code == op) h
    exact (eq_of_beq hcode).symm
  · rintro rfl
    exact mnemonicOf?_code m

/-- A mnemonic of the opcode map is found by the number of its opcode byte. -/
theorem exists_mnemonic_of_toNat {u : UnitId} {op : Byte}
    (h : ∃ m ∈ Mnemonic.all, m.unit = u ∧ m.code.toNat = op.toNat) : ∃ m : Mnemonic, m.unit = u ∧ op = m.code := by
  obtain ⟨m, -, hu, hcode⟩ := h
  exact ⟨m, hu, BitVec.eq_of_toNat_eq hcode.symm⟩

/-! ## The shape of a packet (R51, R55, R67) -/

/-- The operand bytes a format asks for, after the opcode (R51, R55). -/
def Format.Fits : Format → List Byte → Prop
  | .p0, rest => rest = []
  | .p1, rest => ∃ a, rest = [a]
  | .p2, rest => ∃ a b, rest = [a, b]
  | .ps, rest => ∃ line n text, rest = line :: n :: text ∧ text.length = n.toNat

/-- A packet has the length a decoder expects of it exactly when its operand bytes fit its format (R51, R67). -/
theorem expectedLength?_eq_length_iff (m : Mnemonic) (rest : List Byte) :
    expectedLength? (m.code :: rest) = some (m.code :: rest).length ↔ m.format.Fits rest := by
  simp only [expectedLength?, mnemonicOf?_code, List.length_cons]
  cases hf : m.format with
  | p0 => simp [Format.Fits, ← List.length_eq_zero_iff, eq_comm]
  | p1 => simp [Format.Fits, ← List.length_eq_one_iff, eq_comm]
  | p2 => simp [Format.Fits, ← List.length_eq_two, eq_comm]
  | ps =>
    match rest with
    | [] => simp [Format.Fits]
    | [_] => simp [Format.Fits]
    | line :: n :: text =>
      have hfits : Format.Fits .ps (line :: n :: text) ↔ text.length = n.toNat := by simp [Format.Fits]
      simp only [hfits, List.length_cons, Option.some_inj]
      omega

/-! ## The decoder, said once -/

/-- What a packet that decodes is: an opcode of the unit, operand bytes that fit its format, and operands that pass the
checks of R62. -/
theorem decode_cons_eq_ok_iff (u : UnitId) (maxText : Nat) (op : Byte) (rest : List Byte) (i : Instr) :
    decode u maxText (op :: rest) = .ok i ↔
      ∃ m : Mnemonic, op = m.code ∧ m.unit = u ∧ m.format.Fits rest ∧ readOperands maxText m rest = .ok i := by
  cases hm : mnemonicOf? op with
  | none =>
    have hno : ∀ m : Mnemonic, op ≠ m.code := fun m h => by simp [h] at hm
    simp [decode, hm, hno]
  | some m =>
    obtain rfl := (mnemonicOf?_eq_some_iff op m).1 hm
    have hcode : ∀ m' : Mnemonic, m.code = m'.code ↔ m = m' := fun m' => by
      rw [← mnemonicOf?_eq_some_iff, hm, Option.some_inj]
    simp only [hcode, exists_eq_left', decode, hm, ← expectedLength?_eq_length_iff, ne_eq, ite_not]
    by_cases hu : m.unit = u
    · rw [if_pos hu]
      split <;> simp_all
    · simp [hu]

/-! ## The operand checks (R62) -/

/-- The reserved bits of a flags byte are clear bit by bit exactly when the mask says so (R54, R62 (c)). -/
theorem and_reservedMask_eq_zero_iff (a : Byte) :
    a &&& 0xFE = 0x00 ↔ ∀ k, 1 ≤ k → k ≤ 7 → a.getLsbD k = false := by
  have hmask : ∀ k, k < 8 → (0xFE : Byte).getLsbD k = decide (1 ≤ k) := by decide
  have hzero : a &&& 0xFE = 0x00 ↔ ∀ k < 8, (a.getLsbD k && (0xFE : Byte).getLsbD k) = false := by
    simp [BitVec.eq_of_getLsbD_eq_iff]
  rw [hzero]
  refine forall_congr' fun k => ?_
  by_cases hk : k < 8
  · rw [hmask k hk]
    simp [hk, Nat.le_of_lt_succ hk, imp_iff_not_or, or_comm]
  · simp [hk, mt Nat.lt_succ_of_le hk]

theorem readOperands_readWord (maxText : Nat) (a : Byte) :
    readOperands maxText .readWord [a] = if a = 0xFF then .error .registerFF else .ok (.readWord a) := rfl

theorem readOperands_getAccelData (maxText : Nat) (a : Byte) :
    readOperands maxText .getAccelData [a] =
      if a &&& 0xFE = 0x00 then .ok (.getAccelData a) else .error .reservedFlags := rfl

theorem readOperands_writeString (maxText : Nat) (line n : Byte) (text : List Byte) :
    readOperands maxText .writeString (line :: n :: text) =
      if maxText < n.toNat then .error .textTooLong else .ok (.writeString line text) := rfl

/-- READ_WORD is refused for the register number 0xFF only (R62 (d)). -/
theorem exists_readOperands_readWord_iff (maxText : Nat) (a : Byte) :
    (∃ i, readOperands maxText .readWord [a] = .ok i) ↔ a ≠ 0xFF := by
  rw [readOperands_readWord]
  split <;> simp_all

/-- GET_ACCEL_DATA is refused for a reserved flag bit only (R62 (c)). -/
theorem exists_readOperands_getAccelData_iff (maxText : Nat) (a : Byte) :
    (∃ i, readOperands maxText .getAccelData [a] = .ok i) ↔ ∀ k, 1 ≤ k → k ≤ 7 → a.getLsbD k = false := by
  rw [readOperands_getAccelData, ← and_reservedMask_eq_zero_iff]
  split <;> simp_all

/-- WRITE_STRING is refused for a length above `MAX_TEXT` only (R62 (b)). -/
theorem exists_readOperands_writeString_iff (maxText : Nat) (line n : Byte) (text : List Byte) :
    (∃ i, readOperands maxText .writeString (line :: n :: text) = .ok i) ↔ n.toNat ≤ maxText := by
  rw [readOperands_writeString, ← Nat.not_lt]
  split <;> simp_all

/-! ## The legal packets are those that decode (R61, R62) -/

/-- A legal packet begins with an opcode of its unit: 0x10 to 0x1A are the MSD's, 0x20 to 0x24 the CDS's (R61). -/
theorem legalPacket_opcode {u : UnitId} {maxText : Nat} {op : Byte} {rest : List Byte}
    (h : legalPacket u maxText (op :: rest)) : ∃ m : Mnemonic, m.unit = u ∧ op = m.code := by
  apply exists_mnemonic_of_toNat
  cases u
  all_goals
    obtain ⟨hlo, hhi, -⟩ := h
    generalize op.toNat = n at hlo hhi ⊢
    interval_cases n <;> decide

/-- The operand bytes of a legal packet fit the format of its opcode (R62 (a)). -/
theorem fits_of_legalPacket {maxText : Nat} {m : Mnemonic} {rest : List Byte}
    (h : legalPacket m.unit maxText (m.code :: rest)) : m.format.Fits rest := by
  cases m
  case writeString =>
    obtain ⟨-, -, -, -, -, hps⟩ := h
    obtain ⟨line, n, text, hrest, hlen, -⟩ := hps rfl
    exact ⟨line, n, text, hrest, hlen⟩
  all_goals
    simp [legalPacket, Mnemonic.unit, Mnemonic.code, List.length_eq_one_iff, List.length_eq_two] at h
    simp [Mnemonic.format, Format.Fits, h]

/-- A packet of the right shape is legal exactly when its operands pass the checks of R62. -/
theorem legalPacket_iff_of_fits (maxText : Nat) {m : Mnemonic} {rest : List Byte} (h : m.format.Fits rest) :
    legalPacket m.unit maxText (m.code :: rest) ↔ ∃ i, readOperands maxText m rest = .ok i := by
  cases m
  case readWord =>
    obtain ⟨a, rfl⟩ := h
    rw [exists_readOperands_readWord_iff]
    simp [legalPacket, Mnemonic.unit, Mnemonic.code]
  case getAccelData =>
    obtain ⟨a, rfl⟩ := h
    rw [exists_readOperands_getAccelData_iff]
    simp [legalPacket, Mnemonic.unit, Mnemonic.code]
  case writeString =>
    obtain ⟨line, n, text, rfl, hlen⟩ := h
    rw [exists_readOperands_writeString_iff]
    simp [legalPacket, Mnemonic.unit, Mnemonic.code, hlen]
  case sendByte =>
    obtain ⟨a, b, rfl⟩ := h
    exact iff_of_true (by simp [legalPacket, Mnemonic.unit, Mnemonic.code]) ⟨_, rfl⟩
  case wake | readTemp | readRawAccelRange | readRawGyroRange | getGyroData | clear =>
    obtain rfl := h
    exact iff_of_true (by simp [legalPacket, Mnemonic.unit, Mnemonic.code]) ⟨_, rfl⟩
  case setAccelRange | setGyroRange | decodeAccelRange | decodeGyroRange | strobe | write4Bits =>
    obtain ⟨a, rfl⟩ := h
    exact iff_of_true (by simp [legalPacket, Mnemonic.unit, Mnemonic.code]) ⟨_, rfl⟩

/-- The packets that decode on a unit's port are exactly the legal ones (R61, R62). -/
theorem legalPacket_iff_exists_decode (u : UnitId) (maxText : Nat) (packet : List Byte) :
    legalPacket u maxText packet ↔ ∃ i, decode u maxText packet = .ok i := by
  match packet with
  | [] => simp [legalPacket, decode]
  | op :: rest =>
    simp only [decode_cons_eq_ok_iff]
    constructor
    · intro h
      obtain ⟨m, rfl, rfl⟩ := legalPacket_opcode h
      have hfits := fits_of_legalPacket h
      obtain ⟨i, hi⟩ := (legalPacket_iff_of_fits maxText hfits).1 h
      exact ⟨i, m, rfl, rfl, hfits, hi⟩
    · rintro ⟨i, m, rfl, rfl, hfits, hi⟩
      exact (legalPacket_iff_of_fits maxText hfits).2 ⟨i, hi⟩

end Sys2Proof

namespace Sys2Proof.Machine

/-! ## What a unit does with a packet (R61, R62, R113) -/

theorem State.execute_of_decode_eq_ok {s : State} {u : UnitId} {packet : List Byte} {i : Instr}
    (h : decode u s.cds.params.maxText packet = .ok i) : s.execute u packet = exec i s := by
  simp [State.execute, h]

theorem State.execute_of_not_legalPacket {s : State} {u : UnitId} {packet : List Byte}
    (h : ¬ legalPacket u s.cds.params.maxText packet) : s.execute u packet = .next (s.illegal u) := by
  rw [legalPacket_iff_exists_decode] at h
  cases hd : decode u s.cds.params.maxText packet with
  | ok i => exact absurd ⟨i, hd⟩ h
  | error e => simp [State.execute, hd]

/-- A refusal adds the response 02 and sets `ILL`, and no event (R56, R113). -/
theorem Ctl.illegal_eq_ended (c : Ctl) :
    c.illegal = c.ended [] { c.flags with ill := true } 0x02 (.bytes []) := by
  simp [Ctl.illegal, Ctl.respond, Ctl.ended, completionByte, Code.bits, flagBit, Warn.none]

/-- Settles O3: a packet is legal exactly when it decodes. -/
theorem exactlyTheLegalPacketsAreExecuted : Obligations.ExactlyTheLegalPacketsAreExecuted := by
  intro s packet
  refine ⟨fun h => ?_, fun h => ?_, fun u h => ?_⟩
  · rw [State.execute_of_not_legalPacket h, ← Ctl.illegal_eq_ended]
    rfl
  · rw [State.execute_of_not_legalPacket h, ← Ctl.illegal_eq_ended]
    rfl
  · obtain ⟨i, hi⟩ := (legalPacket_iff_exists_decode u _ packet).1 h
    exact ⟨i, hi, State.execute_of_decode_eq_ok hi⟩

/-! ## The nibble split (R59) -/

theorem highNibbleMask_getLsbD_high : ∀ k < 4, (0xF0 : Byte).getLsbD (k + 4) = true := by decide

theorem highNibbleMask_getLsbD_low : ∀ k < 4, (0xF0 : Byte).getLsbD k = false := by decide

/-- Bits 7:4 of the high nibbleByte are those of the byte, each ORed with the mode's. -/
theorem highNibble_getLsbD_high (cmd mode : Byte) {k : Nat} (hk : k < 4) :
    (highNibble cmd mode).getLsbD (k + 4) = (cmd.getLsbD (k + 4) || mode.getLsbD (k + 4)) := by
  rw [highNibble, BitVec.getLsbD_or, BitVec.getLsbD_and, highNibbleMask_getLsbD_high k hk, Bool.and_true]

/-- Bits 3:0 of the high nibbleByte are the mode's. -/
theorem highNibble_getLsbD_low (cmd mode : Byte) {k : Nat} (hk : k < 4) :
    (highNibble cmd mode).getLsbD k = mode.getLsbD k := by
  rw [highNibble, BitVec.getLsbD_or, BitVec.getLsbD_and, highNibbleMask_getLsbD_low k hk, Bool.and_false,
    Bool.false_or]

/-- Bits 7:4 of the low nibbleByte are bits 3:0 of the byte, each ORed with the mode's. -/
theorem lowNibble_getLsbD_high (cmd mode : Byte) {k : Nat} (hk : k < 4) :
    (lowNibble cmd mode).getLsbD (k + 4) = (cmd.getLsbD k || mode.getLsbD (k + 4)) := by
  have hshift : (cmd <<< 4).getLsbD (k + 4) = cmd.getLsbD k := by
    rw [BitVec.getLsbD_shiftLeft, Nat.add_sub_cancel]
    simp [show k + 4 < 8 by omega]
  rw [lowNibble, BitVec.getLsbD_or, BitVec.getLsbD_and, hshift, highNibbleMask_getLsbD_high k hk, Bool.and_true]

/-- Bits 3:0 of the low nibbleByte are the mode's. -/
theorem lowNibble_getLsbD_low (cmd mode : Byte) {k : Nat} (hk : k < 4) :
    (lowNibble cmd mode).getLsbD k = mode.getLsbD k := by
  rw [lowNibble, BitVec.getLsbD_or, BitVec.getLsbD_and, highNibbleMask_getLsbD_low k hk, Bool.and_false,
    Bool.false_or]

/-- With a mode that has no high bit, the high nibble of the byte is kept. -/
theorem highNibble_and_mask (cmd : Byte) {mode : Byte} (hmode : mode &&& 0xF0 = 0x00) :
    highNibble cmd mode &&& 0xF0 = cmd &&& 0xF0 := by
  rw [highNibble, BitVec.and_or_distrib_right, hmode, BitVec.and_assoc, BitVec.and_self]
  exact BitVec.or_zero

/-- Settles O16: the formulas are the definitions, and the bits follow from the mask 0xF0. -/
theorem nibbleSplit : Obligations.NibbleSplit := by
  intro cmd mode
  refine ⟨rfl, rfl, fun k hk => ?_, fun hmode => ?_⟩
  · exact ⟨highNibble_getLsbD_high cmd mode hk, lowNibble_getLsbD_high cmd mode hk,
      highNibble_getLsbD_low cmd mode hk, lowNibble_getLsbD_low cmd mode hk⟩
  · apply highNibble_and_mask
    rcases hmode with rfl | rfl <;> decide

end Sys2Proof.Machine

namespace Sys2Proof.Machine

/-! ## Word assembly and sign (R80, R81) -/

/-- The low byte lies below the shifted high byte, so the OR is the sum. -/
theorem toNat_asm16 (hi lo : Byte) : (asm16 hi lo).toNat = 256 * hi.toNat + lo.toNat := by
  have hhi := hi.isLt
  have hlo := lo.isLt
  have hshift : (hi.setWidth 16 <<< 8).toNat = hi.toNat <<< 8 := by
    simp only [BitVec.toNat_shiftLeft, BitVec.toNat_setWidth, Nat.shiftLeft_eq]
    omega
  have hlow : (lo.setWidth 16).toNat = lo.toNat := by
    rw [BitVec.toNat_setWidth]
    omega
  calc (asm16 hi lo).toNat
      = hi.toNat <<< 8 ||| lo.toNat := by rw [asm16, BitVec.toNat_or, hshift, hlow]
    _ = hi.toNat <<< 8 + lo.toNat := (Nat.shiftLeft_add_eq_or_of_lt hlo _).symm
    _ = 256 * hi.toNat + lo.toNat := by rw [Nat.shiftLeft_eq, Nat.mul_comm]

/-- Settles O12: the formula is the definition, and the OR is the sum. -/
theorem wordAssemblyIsHighTimes256PlusLow : Obligations.WordAssemblyIsHighTimes256PlusLow := fun hi lo =>
  ⟨rfl, toNat_asm16 hi lo, Nat.le_of_lt_succ (asm16 hi lo).isLt⟩

/-- Below the sign bit `s16` keeps the value. -/
theorem s16_of_lt {v : Word} (h : v.toNat < 32768) : s16 v = v.toNat := if_pos h

/-- With the sign bit set `s16` takes 65536 away. -/
theorem s16_of_le {v : Word} (h : 32768 ≤ v.toNat) : s16 v = (v.toNat : Int) - 65536 := if_neg (Nat.not_lt.2 h)

/-- `s16` is the library's two's-complement reading. -/
theorem s16_eq_toInt (v : Word) : s16 v = v.toInt := by
  rw [BitVec.toInt_eq_toNat_cond]
  rcases Nat.lt_or_ge v.toNat 32768 with h | h
  · rw [s16_of_lt h, if_pos (by omega)]
  · rw [s16_of_le h, if_neg (by omega)]
    rfl

theorem s16_injective : Function.Injective s16 := fun v w h => by
  rw [← ofInt_s16 v, h, ofInt_s16]

/-- On the `s16` range, the 16-bit two's complement is read back. -/
theorem s16_ofInt {x : Int} (hlo : -32768 ≤ x) (hhi : x ≤ 32767) : s16 (BitVec.ofInt 16 x) = x := by
  rw [s16_eq_toInt]
  exact BitVec.toInt_ofInt_eq_self (by decide) hlo (Int.lt_add_one_of_le hhi)

/-- The range of `s16` is exactly -32768 to 32767. -/
theorem exists_s16_eq_iff (x : Int) : (∃ v : Word, s16 v = x) ↔ -32768 ≤ x ∧ x ≤ 32767 := by
  constructor
  · rintro ⟨v, rfl⟩
    exact s16_range v
  · rintro ⟨hlo, hhi⟩
    exact ⟨BitVec.ofInt 16 x, s16_ofInt hlo hhi⟩

theorem s16_emod (v : Word) : s16 v % 65536 = v.toNat := by
  have hv := v.isLt
  rcases Nat.lt_or_ge v.toNat 32768 with h | h
  · rw [s16_of_lt h]
    omega
  · rw [s16_of_le h]
    omega

/-- Settles O13: the two branches, then the library's reading, and the range by reading 16-bit values back. -/
theorem signedReinterpretation : Obligations.SignedReinterpretation := by
  refine ⟨fun _ => s16_of_lt, fun v h => ⟨s16_of_le h, ?_⟩, s16_eq_toInt, fun _ _ h => s16_injective h,
    exists_s16_eq_iff, s16_emod⟩
  rw [s16_of_le h, Int.neg_sub]

/-! ## The range and scale tables (R84 to R86) -/

/-- A table that compares the whole byte with four codes gives every other byte the last entry. -/
theorem ite_four_codes_of_not_mem {α : Type} {raw a b c d : Byte} {p q r s e : α}
    (h : raw ∉ [a, b, c, d]) :
    (if raw = a then p else if raw = b then q else if raw = c then r else if raw = d then s else e) = e := by
  simp only [List.mem_cons, List.not_mem_nil, or_false, not_or] at h
  obtain ⟨ha, hb, hc, hd⟩ := h
  rw [if_neg ha, if_neg hb, if_neg hc, if_neg hd]

section
variable {raw : Byte} (h : raw ∉ ([0x00, 0x08, 0x10, 0x18] : List Byte))
include h

theorem accelRange_of_unknown : accelRange raw = -1 := ite_four_codes_of_not_mem h

theorem gyroRange_of_unknown : gyroRange raw = -1 := ite_four_codes_of_not_mem h

theorem accelScale_of_unknown : accelScale raw = (16384, true) := ite_four_codes_of_not_mem h

theorem gyroScale_of_unknown : gyroScale raw = (131, true) := ite_four_codes_of_not_mem h

end

/-- Settles O14: the four codes by evaluation, every other byte by the last entry of the tables. -/
theorem rangeLookup : Obligations.RangeLookup :=
  ⟨by decide, by decide, fun _ h => ⟨accelRange_of_unknown h, gyroRange_of_unknown h⟩⟩

/-- The modifiers of the four gyroscope codes, as the decimals of R86. -/
theorem gyroScale_codes :
    gyroScale 0x00 = (131, false) ∧ gyroScale 0x08 = (655 / 10, false) ∧ gyroScale 0x10 = (328 / 10, false) ∧
      gyroScale 0x18 = (164 / 10, false) := by
  have h500 : (131 / 2 : Rat) = 655 / 10 := by norm_num
  have h1000 : (164 / 5 : Rat) = 328 / 10 := by norm_num
  have h2000 : (82 / 5 : Rat) = 164 / 10 := by norm_num
  rw [← h500, ← h1000, ← h2000]
  exact ⟨rfl, rfl, rfl, rfl⟩

/-- Settles O15: the four codes by the tables' entries, every other byte by the fallback. -/
theorem scaleModifiers : Obligations.ScaleModifiers :=
  ⟨⟨rfl, rfl, rfl, rfl⟩, gyroScale_codes, fun _ h => ⟨accelScale_of_unknown h, gyroScale_of_unknown h⟩⟩

end Sys2Proof.Machine

namespace Sys2Proof.Machine

/-! ## The three written forms (R96) -/

theorem enable_getLsbD : ∀ k < 8, enable.getLsbD k = decide (k = 2) := by decide

theorem not_enable_getLsbD : ∀ k < 8, (~~~enable).getLsbD k = decide (k ≠ 2) := by decide

theorem backlight_getLsbD : ∀ k < 8, backlight.getLsbD k = decide (k = 3) := by decide

/-- The two ORed flags as one constant. -/
theorem Form.byte_high_eq_or (n : Byte) : Form.high.byte n = n ||| 0x0C := BitVec.or_assoc n enable backlight

/-- Raising the enable flag after the settle write gives the high form. -/
theorem Form.byte_high_eq_settle_or_enable (n : Byte) : Form.high.byte n = Form.settle.byte n ||| enable := by
  rw [Form.byte, Form.byte, BitVec.or_assoc, BitVec.or_assoc, BitVec.or_comm enable]

theorem Form.byte_high_enable (n : Byte) : (Form.high.byte n).getLsbD 2 = true := by
  rw [Form.byte_high_eq_settle_or_enable, BitVec.getLsbD_or, enable_getLsbD 2 (by decide)]
  exact Bool.or_true _

theorem Form.byte_low_enable (n : Byte) : (Form.low.byte n).getLsbD 2 = false := by
  rw [Form.byte, BitVec.getLsbD_or, BitVec.getLsbD_and, not_enable_getLsbD 2 (by decide),
    backlight_getLsbD 2 (by decide)]
  exact (Bool.or_false _).trans (Bool.and_false _)

/-- Off the enable and backlight bits, every form keeps the nibbleByte. -/
theorem Form.byte_getLsbD_of_ne (f : Form) (n : Byte) {k : Nat} (hk : k < 8) (h2 : k ≠ 2) (h3 : k ≠ 3) :
    (f.byte n).getLsbD k = n.getLsbD k := by
  have he : enable.getLsbD k = false := by rw [enable_getLsbD k hk, decide_eq_false h2]
  have hne : (~~~enable).getLsbD k = true := by rw [not_enable_getLsbD k hk, decide_eq_true h2]
  have hb : backlight.getLsbD k = false := by rw [backlight_getLsbD k hk, decide_eq_false h3]
  cases f with
  | settle => rw [Form.byte, BitVec.getLsbD_or, hb, Bool.or_false]
  | high => rw [Form.byte, BitVec.getLsbD_or, BitVec.getLsbD_or, he, hb, Bool.or_false, Bool.or_false]
  | low => rw [Form.byte, BitVec.getLsbD_or, BitVec.getLsbD_and, hne, hb, Bool.and_true, Bool.or_false]

/-- Clearing the enable bit changes nothing where it is clear already. -/
theorem and_not_enable_of_clear {n : Byte} (h : n.getLsbD 2 = false) : n &&& ~~~enable = n := by
  refine BitVec.eq_of_getLsbD_eq fun k hk => ?_
  rw [BitVec.getLsbD_and, not_enable_getLsbD k hk]
  by_cases h2 : k = 2
  · rw [h2, h, Bool.false_and]
  · rw [decide_eq_true h2, Bool.and_true]

/-- Settles O17: the formulas are the definition, and the bits follow from those of the two flags. -/
theorem writtenForms : Obligations.WrittenForms := by
  intro n
  refine ⟨rfl, Form.byte_high_eq_or n, rfl, fun f => f.byte_backlight n, Form.byte_high_enable n,
    Form.byte_low_enable n, fun f k hk => ?_, fun h => ⟨?_, Form.byte_high_eq_settle_or_enable n⟩⟩
  · have hkept : ∀ k ∈ [0, 1, 4, 5, 6, 7], k < 8 ∧ k ≠ 2 ∧ k ≠ 3 := by decide
    obtain ⟨hlt, h2, h3⟩ := hkept k hk
    exact f.byte_getLsbD_of_ne n hlt h2 h3
  · rw [Form.byte, Form.byte, and_not_enable_of_clear h]

end Sys2Proof.Machine

/-! # Encoding: the round trips (spec 30_encoding.md rules R50 to R55, R61, R62) -/

namespace Sys2Proof

open Sys2Proof.Machine

/-- The packet of a well-formed command has the length a decoder expects of it (R51, R67). -/
theorem expectedLength?_encode {maxText : Nat} {i : Instr} (h : i.wf maxText = true) :
    expectedLength? (encode i) = some (encode i).length := by
  cases i with
  | writeString line text => exact Laws.EncodedLength.writeString line text maxText h
  | _ => rfl

/-- The operand bytes of a well-formed command fit its format. -/
theorem Instr.fits_operandBytes {maxText : Nat} {i : Instr} (h : i.wf maxText = true) :
    i.mnemonic.format.Fits i.operandBytes :=
  (expectedLength?_eq_length_iff i.mnemonic i.operandBytes).1 (expectedLength?_encode h)

/-- The operand checks of R62 pass for a well-formed command. -/
theorem readOperands_operandBytes {maxText : Nat} {i : Instr} (h : i.wf maxText = true) :
    readOperands maxText i.mnemonic i.operandBytes = .ok i := by
  cases i with
  | readWord a =>
    have ha : a ≠ 0xFF := by simpa [Instr.wf] using h
    exact if_neg ha
  | getAccelData a =>
    have ha : a &&& 0xFE = 0x00 := by simpa [Instr.wf] using h
    exact if_pos ha
  | writeString line text =>
    obtain ⟨hmax, hbyte⟩ : text.length ≤ maxText ∧ text.length ≤ 255 := by simpa [Instr.wf] using h
    refine if_neg ?_
    rw [BitVec.toNat_ofNat]
    omega
  | _ => rfl

/-- Settles O1: the packet has the opcode, the shape and the operands that the decoder asks for. -/
theorem decodeOfEncodeIsTheCommand : Obligations.DecodeOfEncodeIsTheCommand := fun _ _ h =>
  (decode_cons_eq_ok_iff _ _ _ _ _).2 ⟨_, rfl, rfl, Instr.fits_operandBytes h, readOperands_operandBytes h⟩

/-- Operand bytes that fit the format and pass the checks of R62 are those of the command read from them, which is
well-formed. -/
theorem eq_operandBytes_of_readOperands {maxText : Nat} {m : Mnemonic} {rest : List Byte} {i : Instr}
    (hfits : m.format.Fits rest) (h : readOperands maxText m rest = .ok i) :
    i.mnemonic = m ∧ i.operandBytes = rest ∧ i.wf maxText = true := by
  cases m
  case readWord =>
    obtain ⟨a, rfl⟩ := hfits
    rw [readOperands_readWord] at h
    split at h
    · cases h
    · cases h
      exact ⟨rfl, rfl, by simpa [Instr.wf]⟩
  case getAccelData =>
    obtain ⟨a, rfl⟩ := hfits
    rw [readOperands_getAccelData] at h
    split at h
    · cases h
      exact ⟨rfl, rfl, by simpa [Instr.wf]⟩
    · cases h
  case writeString =>
    obtain ⟨line, n, text, rfl, hlen⟩ := hfits
    rw [readOperands_writeString] at h
    split at h
    · cases h
    · cases h
      have hn := n.isLt
      exact ⟨rfl, by simp [Instr.operandBytes, hlen], by simp [Instr.wf, hlen]; omega⟩
  case sendByte =>
    obtain ⟨a, b, rfl⟩ := hfits
    cases h
    exact ⟨rfl, rfl, rfl⟩
  case wake | readTemp | readRawAccelRange | readRawGyroRange | getGyroData | clear =>
    obtain rfl := hfits
    cases h
    exact ⟨rfl, rfl, rfl⟩
  case setAccelRange | setGyroRange | decodeAccelRange | decodeGyroRange | strobe | write4Bits =>
    obtain ⟨a, rfl⟩ := hfits
    cases h
    exact ⟨rfl, rfl, rfl⟩

/-- Settles O2: the opcode gives the mnemonic back, and the operand bytes the operands. -/
theorem decodedPacketIsItsOwnEncoding : Obligations.DecodedPacketIsItsOwnEncoding := by
  intro u maxText packet i h
  match packet with
  | [] => simp [decode] at h
  | op :: rest =>
    obtain ⟨m, rfl, rfl, hfits, hread⟩ := (decode_cons_eq_ok_iff _ _ _ _ _).1 h
    obtain ⟨rfl, rfl, hwf⟩ := eq_operandBytes_of_readOperands hfits hread
    exact ⟨rfl, hwf, rfl⟩

/-- Settles O4: each row by evaluation. -/
theorem packetsOfTheOpcodeMapDecode : Obligations.PacketsOfTheOpcodeMapDecode := by
  unfold Obligations.PacketsOfTheOpcodeMapDecode
  decide

end Sys2Proof

/-! # What a command and a step do, said once

Every statement about all commands or all steps below goes through three facts: a well-formed command is started on its
unit and any other is refused (R62, R113); a step does one `Move` to each unit or resets it (R130); and a run of
micro-operations only adds to what the unit has recorded (R8, R18, R43). -/

namespace Sys2Proof.Machine

/-! ## exec -/

/-- Every command of the MSD's has its micro-operations. -/
theorem exists_msdCommand {i : Instr} (h : i.unit = .msd) : ∃ c, msdCommand? i = some c := by
  cases i
  case strobe | write4Bits | sendByte | writeString | clear => cases h
  all_goals exact ⟨_, rfl⟩

/-- Every command of the CDS's has its micro-operations. -/
theorem exists_cdsCommand {i : Instr} (h : i.unit = .cds) : ∃ k, cdsCommand? i = some k := by
  cases i
  case strobe | write4Bits | sendByte | writeString | clear => exact ⟨_, rfl⟩
  all_goals cases h

/-- A command that is not well-formed is refused on its unit's port (R62, R113, log entry 31). -/
theorem exec_eq_illegal {i : Instr} {s : State} (h : i.wf s.cds.params.maxText = false) :
    exec i s = .next (s.illegal i.unit) := by
  cases i with
  | readWord a =>
    have ha : a = 0xFF := by simpa [Instr.wf] using h
    simp [exec, execReadWord, ha, Instr.unit, Instr.mnemonic, Mnemonic.unit]
  | getAccelData a =>
    have ha : ¬ a &&& 0xFE = 0x00 := by simpa [Instr.wf] using h
    simp only [exec, execGetAccelData, if_neg ha, Instr.unit, Instr.mnemonic, Mnemonic.unit]
  | writeString line text =>
    have ht : ¬ (text.length ≤ s.cds.params.maxText ∧ text.length ≤ 255) := by
      simpa [Instr.wf] using h
    simp [exec, execWriteString, ht, Instr.unit, Instr.mnemonic, Mnemonic.unit]
  | _ => cases h

/-- What exec does with a command of the MSD's: it starts it, or refuses it. -/
theorem exec_msd_next {i : Instr} {s t : State} (hi : i.unit = .msd) (h : exec i s = .next t) :
    (∃ c, msdCommand? i = some c ∧ t = s.startMsd i c) ∨ t = s.illegal .msd := by
  rcases exec_msd_cases i hi with ⟨c, hc, hs⟩ | hs
  · rw [hs s] at h
    cases h
    exact .inl ⟨c, hc, rfl⟩
  · rw [hs s] at h
    cases h
    exact .inr rfl

/-- What exec does with a command of the CDS's: it starts it, or refuses it. -/
theorem exec_cds_next {i : Instr} {s t : State} (hi : i.unit = .cds) (h : exec i s = .next t) :
    (∃ k, cdsCommand? i = some k ∧ t = s.startCds i k) ∨ t = s.illegal .cds := by
  rcases exec_cds_cases i s hi with ⟨k, hk, hs⟩ | hs
  · rw [hs] at h
    cases h
    exact .inl ⟨k, hk, rfl⟩
  · rw [hs] at h
    cases h
    exact .inr rfl

/-- Settles O10: a command is started, or refused as illegal. -/
theorem execAlwaysAnswersNext : Obligations.ExecAlwaysAnswersNext := by
  intro i s
  cases hu : i.unit with
  | msd =>
    rcases exec_msd_cases i hu with ⟨c, -, hs⟩ | hs
    · exact ⟨_, hs s⟩
    · exact ⟨_, hs s⟩
  | cds =>
    rcases exec_cds_cases i s hu with ⟨k, -, hs⟩ | hs
    · exact ⟨_, hs⟩
    · exact ⟨_, hs⟩

/-- Settles O41: the operands named are those that are not well-formed. -/
theorem reservedOperandsAreRefused : Obligations.ReservedOperandsAreRefused := by
  intro s a line text
  rw [← Ctl.illegal_eq_ended, ← Ctl.illegal_eq_ended]
  refine ⟨exec_eq_illegal rfl, fun ha => exec_eq_illegal ?_, fun ht => exec_eq_illegal ?_⟩
  · simpa [Instr.wf] using ha
  · simp only [Instr.wf, Bool.and_eq_false_iff, decide_eq_false_iff_not, Nat.not_le]
    exact ht

/-! ## What a step does to one unit -/

/-- What a step that does not reset the MSD does to it. -/
inductive Msd.Move (m : Msd) : Msd → Prop
  /-- nothing -/
  | stay : Msd.Move m m
  /-- its boot action (R135) -/
  | boot (h : m.ctl.phase = .booting ∨ (m.ctl.phase = .idle ∧ m.bootDue = true)) : Msd.Move m m.bootTurn
  /-- the rest of the command in progress (R17) -/
  | resume (i : Instr) (h : m.ctl.phase = .busy i) : Msd.Move m (m.resumeTurn i)
  /-- the refusal of the next packet (R113) -/
  | refuse (hidle : m.ctl.phase = .idle) (hboot : m.bootDue = false) : Msd.Move m m.takePacket.illegal
  /-- the command of the next packet (R12) -/
  | start (i : Instr) (c : MsdCommand) (hidle : m.ctl.phase = .idle) (hboot : m.bootDue = false)
      (hc : msdCommand? i = some c) : Msd.Move m (m.takePacket.start i c)
  /-- a packet presented (R12) -/
  | present (packet : List Byte) : Msd.Move m { m with ctl := { m.ctl with port := m.ctl.port ++ [packet] } }
  /-- an answer of its transport (R47) -/
  | answer (r : Reply) : Msd.Move m { m with replies := m.replies ++ [r] }

/-- What a step that does not reset the CDS does to it. -/
inductive Cds.Move (c : Cds) : Cds → Prop
  /-- nothing -/
  | stay : Cds.Move c c
  /-- the rest of the command in progress (R17) -/
  | resume (i : Instr) (h : c.ctl.phase = .busy i) : Cds.Move c (c.resumeTurn i)
  /-- the refusal of the next packet (R113) -/
  | refuse (hidle : c.ctl.phase = .idle) : Cds.Move c c.takePacket.illegal
  /-- the command of the next packet (R12) -/
  | start (i : Instr) (k : CdsCommand) (hidle : c.ctl.phase = .idle) (hwf : i.wf c.params.maxText = true)
      (hk : cdsCommand? i = some k) : Cds.Move c (c.takePacket.start i k)
  /-- a packet presented (R12) -/
  | present (packet : List Byte) : Cds.Move c { c with ctl := { c.ctl with port := c.ctl.port ++ [packet] } }
  /-- an answer of its transport (R47) -/
  | acknowledge (a : Ack) : Cds.Move c { c with acks := c.acks ++ [a] }
  /-- an answer of the delay primitive (R120) -/
  | delayAnswer : Cds.Move c { c with delays := c.delays + 1 }

/-- A packet taken by the MSD is refused, or it is that of a command, which is started. -/
theorem State.execute_msd_next {s t : State} {packet : List Byte} (h : s.execute .msd packet = .next t) :
    t = s.illegal .msd ∨ ∃ i c, msdCommand? i = some c ∧ t = s.startMsd i c := by
  rcases State.execute_cases h with ⟨i, hd, he⟩ | ⟨e, -, ht⟩
  · obtain ⟨hu, hwf, -⟩ := decodedPacketIsItsOwnEncoding _ _ _ _ hd
    obtain ⟨c, hc⟩ := exists_msdCommand hu
    rw [exec_eq_startMsd i c s hc hwf] at he
    cases he
    exact .inr ⟨i, c, hc, rfl⟩
  · exact .inl ht

/-- A packet taken by the CDS is refused, or it is that of a well-formed command, which is started. -/
theorem State.execute_cds_next {s t : State} {packet : List Byte} (h : s.execute .cds packet = .next t) :
    t = s.illegal .cds ∨
      ∃ i k, cdsCommand? i = some k ∧ i.wf s.cds.params.maxText = true ∧ t = s.startCds i k := by
  rcases State.execute_cases h with ⟨i, hd, he⟩ | ⟨e, -, ht⟩
  · obtain ⟨hu, hwf, -⟩ := decodedPacketIsItsOwnEncoding _ _ _ _ hd
    obtain ⟨k, hk⟩ := exists_cdsCommand hu
    rw [exec_eq_startCds i k s hk hwf] at he
    cases he
    exact .inr ⟨i, k, hk, hwf, rfl⟩
  · exact .inl ht

/-- The MSD's turn makes a move of the MSD and leaves the CDS alone. -/
theorem State.msdTurn_move {s t : State} (h : s.msdTurn = .next t) : s.msd.Move t.msd ∧ t.cds = s.cds := by
  rcases State.msdTurn_cases h with
    ⟨hp, rfl⟩ | ⟨i, hp, rfl⟩ | ⟨-, -, -, rfl⟩ | ⟨hp, hb, packet, rest, -, he⟩
  · exact ⟨.boot hp, rfl⟩
  · exact ⟨.resume i hp, rfl⟩
  · exact ⟨.stay, rfl⟩
  · rcases State.execute_msd_next he with rfl | ⟨i, c, hc, rfl⟩
    · exact ⟨.refuse hp hb, rfl⟩
    · exact ⟨.start i c hp hb hc, rfl⟩

/-- The CDS's turn makes a move of the CDS and leaves the MSD alone. -/
theorem State.cdsTurn_move {s t : State} (h : s.cdsTurn = .next t) : s.cds.Move t.cds ∧ t.msd = s.msd := by
  rcases State.cdsTurn_cases h with ⟨i, hp, rfl⟩ | ⟨-, rfl⟩ | ⟨hp, packet, rest, -, he⟩
  · exact ⟨.resume i hp, rfl⟩
  · exact ⟨.stay, rfl⟩
  · rcases State.execute_cds_next he with rfl | ⟨i, k, hk, hwf, rfl⟩
    · exact ⟨.refuse hp, rfl⟩
    · exact ⟨.start i k hp hwf hk, rfl⟩

/-- A step resets the MSD or makes one of its moves. -/
theorem step_msd_move {s t : State} (h : step s = .next t) :
    (s.turn = .reset .msd ∧ t.msd = Msd.reset s.msd.params s.msd.ctl.port s.msd.replies) ∨ s.msd.Move t.msd := by
  rcases step_cases h with ⟨-, -, h⟩ | ⟨-, -, h⟩ | ⟨u, packet, -, rfl⟩ | ⟨r, -, rfl⟩ | ⟨a, -, rfl⟩ | ⟨-, rfl⟩ |
    ⟨u, hu, rfl⟩
  · exact .inr (State.msdTurn_move h).1
  · rw [(State.cdsTurn_move h).2]
    exact .inr .stay
  · cases u
    · exact .inr (.present packet)
    · exact .inr .stay
  · exact .inr (.answer r)
  · exact .inr .stay
  · exact .inr .stay
  · cases u
    · exact .inl ⟨hu, rfl⟩
    · exact .inr .stay

/-- A step resets the CDS or makes one of its moves. -/
theorem step_cds_move {s t : State} (h : step s = .next t) :
    (s.turn = .reset .cds ∧ t.cds = Cds.reset s.cds.params s.cds.ctl.port s.cds.acks s.cds.delays) ∨
      s.cds.Move t.cds := by
  rcases step_cases h with ⟨-, -, h⟩ | ⟨-, -, h⟩ | ⟨u, packet, -, rfl⟩ | ⟨r, -, rfl⟩ | ⟨a, -, rfl⟩ | ⟨-, rfl⟩ |
    ⟨u, hu, rfl⟩
  · rw [(State.msdTurn_move h).2]
    exact .inr .stay
  · exact .inr (State.cdsTurn_move h).1
  · cases u
    · exact .inr .stay
    · exact .inr (.present packet)
  · exact .inr .stay
  · exact .inr (.acknowledge a)
  · exact .inr .delayAnswer
  · cases u
    · exact .inr .stay
    · exact .inl ⟨hu, rfl⟩

/-! ## What a run leaves unchanged, and what only grows -/

theorem Flags.le_refl (a : Flags) : a.le a := ⟨id, id, id, id⟩

theorem Flags.le_trans {a b c : Flags} (hab : a.le b) (hbc : b.le c) : a.le c := by
  obtain ⟨h1, h2, h3, h4⟩ := hab
  obtain ⟨k1, k2, k3, k4⟩ := hbc
  exact ⟨k1 ∘ h1, k2 ∘ h2, k3 ∘ h3, k4 ∘ h4⟩

/-- What a control part has recorded only grows: the trace and the responses at their ends (R8), the sticky flags by being
set (R18). -/
structure Ctl.Grows (c c' : Ctl) : Prop where
  trace : c.trace <+: c'.trace
  responses : c.responses <+: c'.responses
  flags : c.flags.le c'.flags

theorem Ctl.Grows.refl (c : Ctl) : c.Grows c := ⟨List.prefix_rfl, List.prefix_rfl, Flags.le_refl _⟩

theorem Ctl.Grows.of_eq {c c' : Ctl} (htrace : c'.trace = c.trace) (hresponses : c'.responses = c.responses)
    (hflags : c'.flags = c.flags) : c.Grows c' :=
  ⟨htrace ▸ List.prefix_rfl, hresponses ▸ List.prefix_rfl, hflags ▸ Flags.le_refl _⟩

theorem Ctl.Grows.trans {c c' c'' : Ctl} (h : c.Grows c') (h' : c'.Grows c'') : c.Grows c'' :=
  ⟨h.trace.trans h'.trace, h.responses.trans h'.responses, Flags.le_trans h.flags h'.flags⟩

theorem Ctl.accept_grows (c : Ctl) (i : Instr) : c.Grows (c.accept i) := .of_eq rfl rfl rfl

theorem Ctl.log_grows (c : Ctl) (e : Event) : c.Grows (c.log e) :=
  ⟨List.prefix_append _ _, List.prefix_rfl, Flags.le_refl _⟩

theorem Ctl.advance_grows (c : Ctl) : c.Grows c.advance := .of_eq rfl rfl rfl

theorem Ctl.respond_grows (c : Ctl) (code : Code) (p : Payload) : c.Grows (c.respond code p) :=
  ⟨List.prefix_rfl, List.prefix_append _ _, Flags.le_refl _⟩

theorem Ctl.abort_grows (c : Ctl) : c.Grows c.abort :=
  ⟨List.prefix_rfl, List.prefix_append _ _, fun _ => rfl, id, id, id⟩

theorem Ctl.illegal_grows (c : Ctl) : c.Grows c.illegal :=
  ⟨List.prefix_rfl, List.prefix_append _ _, id, id, id, fun _ => rfl⟩

theorem Ctl.warnUnkCfg_grows (c : Ctl) : c.Grows c.warnUnkCfg :=
  ⟨List.prefix_rfl, List.prefix_rfl, id, fun _ => rfl, id, id⟩

theorem Ctl.warnBadLine_grows (c : Ctl) : c.Grows c.warnBadLine :=
  ⟨List.prefix_rfl, List.prefix_rfl, id, id, fun _ => rfl, id⟩

theorem Msd.finish_grows (m : Msd) (a : Bool × Payload) : m.ctl.Grows (m.finish a).ctl := by
  rw [Msd.finish_ctl]
  split
  · exact m.ctl.warnUnkCfg_grows.trans (Ctl.respond_grows _ _ _)
  · exact Ctl.respond_grows _ _ _

theorem Msd.finish_responses (m : Msd) (a : Bool × Payload) : (m.finish a).ctl.responses =
    m.ctl.responses ++ [⟨completionByte .ok { m.ctl.warn with unkCfg := m.ctl.warn.unkCfg || a.1 }, a.2⟩] := by
  rcases a with ⟨_ | _, p⟩ <;> simp

/-- A run changes no parameter, leaves the boot action and the port alone, and records only more. -/
theorem Msd.run_frame (answer : MsdParams → MsdRegs → Bool × Payload) (ops : List MsdMicro) (m : Msd) :
    (Msd.run answer ops m).params = m.params ∧ (Msd.run answer ops m).bootDue = m.bootDue ∧
      (Msd.run answer ops m).ctl.port = m.ctl.port ∧ m.ctl.Grows (Msd.run answer ops m).ctl := by
  refine Msd.run_induction (Q := fun m' => m'.params = m.params ∧ m'.bootDue = m.bootDue ∧
      m'.ctl.port = m.ctl.port ∧ m.ctl.Grows m'.ctl)
    (fun _ m' => m'.params = m.params ∧ m'.bootDue = m.bootDue ∧ m'.ctl.port = m.ctl.port ∧ m.ctl.Grows m'.ctl)
    ?_ ?_ ?_ ?_ ops m ⟨rfl, rfl, rfl, Ctl.Grows.refl _⟩
  · rintro m' ⟨hparams, hboot, hport, hgrows⟩
    refine ⟨hparams, hboot, ?_, hgrows.trans (m'.finish_grows _)⟩
    rw [Msd.finish_ctl, Ctl.respond_port, ← hport]
    split <;> rfl
  · exact fun _ _ m' h _ => h
  · rintro op _ m' rs ⟨hparams, hboot, hport, hgrows⟩ -
    exact ⟨hparams, hboot, hport, hgrows.trans ((Ctl.log_grows _ _).trans (Ctl.abort_grows _))⟩
  · rintro op _ m' b rs ⟨hparams, hboot, hport, hgrows⟩ -
    exact ⟨hparams, hboot, hport, hgrows.trans ((Ctl.log_grows _ _).trans (Ctl.advance_grows _))⟩

/-- A run changes no parameter, leaves the port alone, and records only more. -/
theorem Cds.run_frame (ops : List CdsMicro) (c : Cds) :
    (Cds.run ops c).params = c.params ∧ (Cds.run ops c).ctl.port = c.ctl.port ∧ c.ctl.Grows (Cds.run ops c).ctl := by
  refine Cds.run_induction (Q := fun c' => c'.params = c.params ∧ c'.ctl.port = c.ctl.port ∧ c.ctl.Grows c'.ctl)
    (fun _ c' => c'.params = c.params ∧ c'.ctl.port = c.ctl.port ∧ c.ctl.Grows c'.ctl)
    ?_ ?_ ?_ ?_ ?_ ops c ⟨rfl, rfl, Ctl.Grows.refl _⟩
  · rintro c' ⟨hparams, hport, hgrows⟩
    exact ⟨hparams, hport, hgrows.trans (Ctl.respond_grows _ _ _)⟩
  · exact fun _ _ c' h _ => h
  · rintro op _ c' f as ⟨hparams, hport, hgrows⟩ - -
    exact ⟨hparams, hport, hgrows.trans ((Ctl.log_grows _ _).trans (Ctl.abort_grows _))⟩
  · rintro op _ c' f as ⟨hparams, hport, hgrows⟩ - -
    exact ⟨hparams, hport, hgrows.trans ((Ctl.log_grows _ _).trans (Ctl.advance_grows _))⟩
  · rintro op _ c' n ⟨hparams, hport, hgrows⟩ - -
    exact ⟨hparams, hport, hgrows.trans ((Ctl.log_grows _ _).trans (Ctl.advance_grows _))⟩

/-- A run is over with one response more, or its unit is as BUSY as it was, with no answer left. -/
theorem Msd.run_ends_or_waits (answer : MsdParams → MsdRegs → Bool × Payload) (ops : List MsdMicro) (m : Msd) :
    ((Msd.run answer ops m).ctl.phase = .idle ∧ (Msd.run answer ops m).ctl.upc = 0 ∧
        ∃ r, (Msd.run answer ops m).ctl.responses = m.ctl.responses ++ [r]) ∨
      ((Msd.run answer ops m).ctl.phase = m.ctl.phase ∧ (Msd.run answer ops m).ctl.responses = m.ctl.responses ∧
        (Msd.run answer ops m).replies = []) := by
  refine Msd.run_induction
    (Q := fun m' => (m'.ctl.phase = .idle ∧ m'.ctl.upc = 0 ∧ ∃ r, m'.ctl.responses = m.ctl.responses ++ [r]) ∨
      (m'.ctl.phase = m.ctl.phase ∧ m'.ctl.responses = m.ctl.responses ∧ m'.replies = []))
    (fun _ m' => m'.ctl.phase = m.ctl.phase ∧ m'.ctl.responses = m.ctl.responses) ?_ ?_ ?_ ?_ ops m ⟨rfl, rfl⟩
  · rintro m' ⟨-, hresponses⟩
    exact .inl ⟨rfl, rfl, _, (m'.finish_responses _).trans (congrArg (· ++ _) hresponses)⟩
  · rintro _ _ m' ⟨hphase, hresponses⟩ hreplies
    exact .inr ⟨hphase, hresponses, hreplies⟩
  · rintro _ _ m' rs ⟨-, hresponses⟩ -
    exact .inl ⟨rfl, rfl, _, congrArg (· ++ _) hresponses⟩
  · exact fun _ _ m' b rs h _ => h

/-- A run is over with one response more, or its unit is as BUSY as it was, with no answer left of the kind it waits
for. -/
theorem Cds.run_ends_or_waits (ops : List CdsMicro) (c : Cds) :
    ((Cds.run ops c).ctl.phase = .idle ∧ (Cds.run ops c).ctl.upc = 0 ∧
        ∃ r, (Cds.run ops c).ctl.responses = c.ctl.responses ++ [r]) ∨
      ((Cds.run ops c).ctl.phase = c.ctl.phase ∧ (Cds.run ops c).ctl.responses = c.ctl.responses ∧
        ((Cds.run ops c).acks = [] ∨ (Cds.run ops c).delays = 0)) := by
  refine Cds.run_induction
    (Q := fun c' => (c'.ctl.phase = .idle ∧ c'.ctl.upc = 0 ∧ ∃ r, c'.ctl.responses = c.ctl.responses ++ [r]) ∨
      (c'.ctl.phase = c.ctl.phase ∧ c'.ctl.responses = c.ctl.responses ∧ (c'.acks = [] ∨ c'.delays = 0)))
    (fun _ c' => c'.ctl.phase = c.ctl.phase ∧ c'.ctl.responses = c.ctl.responses) ?_ ?_ ?_ ?_ ?_ ops c ⟨rfl, rfl⟩
  · rintro c' ⟨-, hresponses⟩
    exact .inl ⟨rfl, rfl, _, congrArg (· ++ _) hresponses⟩
  · rintro _ _ c' ⟨hphase, hresponses⟩ hanswers
    exact .inr ⟨hphase, hresponses, hanswers⟩
  · rintro _ _ c' f as ⟨-, hresponses⟩ - -
    exact .inl ⟨rfl, rfl, _, congrArg (· ++ _) hresponses⟩
  · exact fun _ _ c' f as h _ _ => h
  · exact fun _ _ c' n h _ _ => h

/-! ## What a start and a move leave unchanged -/

theorem Msd.start_frame (m : Msd) (i : Instr) (c : MsdCommand) :
    (m.start i c).params = m.params ∧ (m.start i c).bootDue = m.bootDue ∧ (m.start i c).ctl.port = m.ctl.port ∧
      m.ctl.Grows (m.start i c).ctl := by
  obtain ⟨hparams, hboot, hport, hgrows⟩ :=
    Msd.run_frame c.answer c.ops { m with ctl := m.ctl.accept i, regs := c.capture m.regs }
  exact ⟨hparams, hboot, hport, (m.ctl.accept_grows i).trans hgrows⟩

theorem Cds.start_frame (c : Cds) (i : Instr) (k : CdsCommand) :
    (c.start i k).params = c.params ∧ (c.start i k).ctl.port = c.ctl.port ∧ c.ctl.Grows (c.start i k).ctl := by
  obtain ⟨hparams, hport, hgrows⟩ := Cds.run_frame k.ops
    { c with ctl := if k.badLine then (c.ctl.accept i).warnBadLine else c.ctl.accept i, regs := k.capture c.regs }
  refine ⟨hparams, hport.trans ?_, Ctl.Grows.trans ?_ hgrows⟩
  · simp only
    split <;> rfl
  · simp only
    split
    · exact (c.ctl.accept_grows i).trans (Ctl.warnBadLine_grows _)
    · exact c.ctl.accept_grows i

theorem Msd.takePacket_grows (m : Msd) : m.ctl.Grows m.takePacket.ctl := .of_eq rfl rfl rfl

theorem Cds.takePacket_grows (c : Cds) : c.ctl.Grows c.takePacket.ctl := .of_eq rfl rfl rfl

theorem Msd.bootTurn_frame (m : Msd) :
    m.bootTurn.params = m.params ∧ m.bootTurn.ctl.port = m.ctl.port ∧ m.ctl.Grows m.bootTurn.ctl := by
  rcases m.bootTurn_cases with ⟨-, h⟩ | ⟨rs, -, h⟩ | ⟨b, rs, -, h⟩ <;> rw [h]
  · exact ⟨rfl, rfl, .of_eq rfl rfl rfl⟩
  · exact ⟨rfl, rfl, List.prefix_append _ _, List.prefix_rfl, fun _ => rfl, id, id, id⟩
  · exact ⟨rfl, rfl, List.prefix_append _ _, List.prefix_rfl, Flags.le_refl _⟩

theorem Msd.resumeTurn_frame (m : Msd) (i : Instr) :
    (m.resumeTurn i).params = m.params ∧ (m.resumeTurn i).bootDue = m.bootDue ∧
      (m.resumeTurn i).ctl.port = m.ctl.port ∧ m.ctl.Grows (m.resumeTurn i).ctl := by
  unfold Msd.resumeTurn
  split
  · exact ⟨rfl, rfl, rfl, Ctl.Grows.refl _⟩
  · exact Msd.run_frame _ _ _

theorem Cds.resumeTurn_frame (c : Cds) (i : Instr) :
    (c.resumeTurn i).params = c.params ∧ (c.resumeTurn i).ctl.port = c.ctl.port ∧
      c.ctl.Grows (c.resumeTurn i).ctl := by
  unfold Cds.resumeTurn
  split
  · exact ⟨rfl, rfl, Ctl.Grows.refl _⟩
  · exact Cds.run_frame _ _

/-- A move changes no parameter and records only more. -/
theorem Msd.Move.frame {m m' : Msd} (h : m.Move m') : m'.params = m.params ∧ m.ctl.Grows m'.ctl := by
  cases h with
  | stay => exact ⟨rfl, Ctl.Grows.refl _⟩
  | boot _ =>
    obtain ⟨hparams, -, hgrows⟩ := m.bootTurn_frame
    exact ⟨hparams, hgrows⟩
  | resume i _ =>
    obtain ⟨hparams, -, -, hgrows⟩ := m.resumeTurn_frame i
    exact ⟨hparams, hgrows⟩
  | refuse _ _ => exact ⟨rfl, m.takePacket_grows.trans (Ctl.illegal_grows _)⟩
  | start i c _ _ _ =>
    obtain ⟨hparams, -, -, hgrows⟩ := m.takePacket.start_frame i c
    exact ⟨hparams, m.takePacket_grows.trans hgrows⟩
  | present packet => exact ⟨rfl, .of_eq rfl rfl rfl⟩
  | answer r => exact ⟨rfl, Ctl.Grows.refl _⟩

/-- A move changes no parameter and records only more. -/
theorem Cds.Move.frame {c c' : Cds} (h : c.Move c') : c'.params = c.params ∧ c.ctl.Grows c'.ctl := by
  cases h with
  | stay => exact ⟨rfl, Ctl.Grows.refl _⟩
  | resume i _ =>
    obtain ⟨hparams, -, hgrows⟩ := c.resumeTurn_frame i
    exact ⟨hparams, hgrows⟩
  | refuse _ => exact ⟨rfl, c.takePacket_grows.trans (Ctl.illegal_grows _)⟩
  | start i k _ _ _ =>
    obtain ⟨hparams, -, hgrows⟩ := c.takePacket.start_frame i k
    exact ⟨hparams, c.takePacket_grows.trans hgrows⟩
  | present packet => exact ⟨rfl, .of_eq rfl rfl rfl⟩
  | acknowledge a => exact ⟨rfl, Ctl.Grows.refl _⟩
  | delayAnswer => exact ⟨rfl, Ctl.Grows.refl _⟩

/-- What the MSD has recorded only grows in a step that does not reset it. -/
theorem step_msd_grows {s t : State} (h : step s = .next t) (hr : s.turn ≠ .reset .msd) :
    s.msd.ctl.Grows t.msd.ctl := by
  rcases step_msd_move h with ⟨hreset, -⟩ | hmove
  · exact absurd hreset hr
  · exact hmove.frame.2

/-- What the CDS has recorded only grows in a step that does not reset it. -/
theorem step_cds_grows {s t : State} (h : step s = .next t) (hr : s.turn ≠ .reset .cds) :
    s.cds.ctl.Grows t.cds.ctl := by
  rcases step_cds_move h with ⟨hreset, -⟩ | hmove
  · exact absurd hreset hr
  · exact hmove.frame.2

/-- Settles O51: a reset keeps the parameters, and so does every move. -/
theorem parametersNeverChange : Obligations.ParametersNeverChange := by
  intro s t h
  constructor
  · rcases step_msd_move h with ⟨-, hm⟩ | hmove
    · rw [hm, Msd.reset]
    · exact hmove.frame.1
  · rcases step_cds_move h with ⟨-, hc⟩ | hmove
    · rw [hc, Cds.reset]
    · exact hmove.frame.1

/-- Settles O52: every move of a unit records only more. -/
theorem stickyFlagsClearedOnlyByReset : Obligations.StickyFlagsClearedOnlyByReset := fun _ _ h =>
  ⟨fun hr => (step_msd_grows h hr).flags, fun hr => (step_cds_grows h hr).flags⟩

/-- Settles O53: every move of a unit records only more. -/
theorem tracesAndResponsesOnlyGrow : Obligations.TracesAndResponsesOnlyGrow := fun _ _ h =>
  ⟨fun hr => ⟨(step_msd_grows h hr).trace, (step_msd_grows h hr).responses⟩,
    fun hr => ⟨(step_cds_grows h hr).trace, (step_cds_grows h hr).responses⟩⟩

end Sys2Proof.Machine

namespace Sys2Proof.Machine

/-! # Registers and the completion byte (R18, R21, R56) -/

/-- The fields of the completion byte, and the size that leaves bits 7:6 at 0. -/
theorem completionByte_bits (code : Code) (w : Warn) :
    completionByte code w &&& 0x0F = code.bits ∧ (completionByte code w).getLsbD 4 = w.unkCfg ∧
      (completionByte code w).getLsbD 5 = w.badLine ∧ (completionByte code w).toNat < 2 ^ 6 := by
  rcases w with ⟨unkCfg, badLine⟩
  revert unkCfg badLine
  cases code <;> decide

/-- A bit above the size of a byte's value is 0. -/
theorem getLsbD_of_toNat_lt {b : Byte} {n k : Nat} (h : b.toNat < 2 ^ n) (hk : n ≤ k) : b.getLsbD k = false :=
  Nat.testBit_lt_two_pow (h.trans_le (Nat.pow_le_pow_right (by decide) hk))

@[simp] theorem Response.code_mk (code : Code) (w : Warn) (p : Payload) :
    Response.code ⟨completionByte code w, p⟩ = code.bits := by
  obtain ⟨h, -⟩ := completionByte_bits code w
  exact h

@[simp] theorem Response.unkCfg_mk (code : Code) (w : Warn) (p : Payload) :
    Response.unkCfg ⟨completionByte code w, p⟩ = w.unkCfg := by
  obtain ⟨-, h, -⟩ := completionByte_bits code w
  exact h

@[simp] theorem Response.badLine_mk (code : Code) (w : Warn) (p : Payload) :
    Response.badLine ⟨completionByte code w, p⟩ = w.badLine := by
  obtain ⟨-, -, h, -⟩ := completionByte_bits code w
  exact h

/-- `STATUS` as a function of its five bits. -/
def statusByte (busy : Bool) (f : Flags) : Byte :=
  flagBit busy 0x01 ||| flagBit f.terr 0x02 ||| flagBit f.unk 0x04 ||| flagBit f.badline 0x08 ||| flagBit f.ill 0x10

theorem Ctl.status_eq (c : Ctl) : c.status = statusByte c.isBusy c.flags := rfl

theorem statusByte_bits (busy : Bool) (f : Flags) :
    (statusByte busy f).getLsbD 0 = busy ∧ (statusByte busy f).getLsbD 1 = f.terr ∧
      (statusByte busy f).getLsbD 2 = f.unk ∧ (statusByte busy f).getLsbD 3 = f.badline ∧
      (statusByte busy f).getLsbD 4 = f.ill ∧ (statusByte busy f).toNat < 2 ^ 5 := by
  rcases f with ⟨terr, unk, badline, ill⟩
  revert busy terr unk badline ill
  decide

/-- Settles O19: the bits of the five flags by cases, the reserved bits by the size of the byte. -/
theorem registerLayouts : Obligations.RegisterLayouts := by
  refine ⟨fun c => ?_, fun c k => ?_, fun code w => ?_⟩
  · rw [Ctl.status_eq]
    obtain ⟨hbusy, hterr, hunk, hbadline, hill, hsmall⟩ := statusByte_bits c.isBusy c.flags
    exact ⟨hbusy, hterr, hunk, hbadline, hill, fun _ hk => getLsbD_of_toNat_lt hsmall hk⟩
  · rcases Nat.lt_or_ge k 8 with hk | hk
    · exact backlight_getLsbD k hk
    · rw [BitVec.getLsbD_of_ge _ _ hk, decide_eq_false (by omega)]
  · obtain ⟨hcode, hunkCfg, hbadLine, hsmall⟩ := completionByte_bits code w
    exact ⟨hcode, hunkCfg, hbadLine, fun _ hk => getLsbD_of_toNat_lt hsmall hk⟩

/-- Settles O18: the entries of the table, and its last one for every other line. -/
theorem lineAddressTable : Obligations.LineAddressTable := by
  intro line1
  refine ⟨rfl, rfl, rfl, rfl, fun line h => ite_four_codes_of_not_mem ?_, rfl⟩
  rintro hmem
  simp only [List.mem_cons, List.not_mem_nil, or_false] at hmem
  rcases hmem with rfl | rfl | rfl | rfl <;> revert h <;> decide

/-! # The shape of the commands (R17, R103) -/

/-- The micro-operations of a list of writes, each with the register transfers before it and the delay after it
(R103 (a)). -/
def writeOps (ws : List (List CdsLoad × Form)) : List CdsMicro := ws.flatMap fun w => writeForm w.1 w.2

theorem writeOps_cons (w : List CdsLoad × Form) (ws : List (List CdsLoad × Form)) :
    writeOps (w :: ws) = ⟨w.1, .raw w.2⟩ :: ⟨[], .delay⟩ :: writeOps ws := rfl

theorem writeOps_append (ws ws' : List (List CdsLoad × Form)) : writeOps (ws ++ ws') = writeOps ws ++ writeOps ws' :=
  List.flatMap_append

theorem writeOps_flatMap {α : Type} (xs : List α) (f : α → List (List CdsLoad × Form)) :
    writeOps (xs.flatMap f) = xs.flatMap fun x => writeOps (f x) := List.flatMap_assoc

theorem length_writeOps (ws : List (List CdsLoad × Form)) : (writeOps ws).length = 2 * ws.length := by
  induction ws with
  | nil => rfl
  | cons w ws ih =>
    rw [writeOps_cons, List.length_cons, List.length_cons, ih, List.length_cons]
    omega

/-- The six writes of one `sendByte` (R99). -/
def sendByteWrites (src : CdsLoad) : List (List CdsLoad × Form) :=
  [([src, .highHalf], .settle), ([], .high), ([], .low), ([.lowHalf], .settle), ([], .high), ([], .low)]

theorem sendByteOps_eq_writeOps (src : CdsLoad) : sendByteOps src = writeOps (sendByteWrites src) := rfl

/-- Every CDS command is a list of writes with a delay after each. -/
theorem exists_writeOps {i : Instr} {k : CdsCommand} (h : cdsCommand? i = some k) : ∃ ws, k.ops = writeOps ws := by
  cases i <;> cases h
  case strobe a => exact ⟨[([], .high), ([], .low)], rfl⟩
  case write4Bits a => exact ⟨[([], .settle), ([], .high), ([], .low)], rfl⟩
  case sendByte a b => exact ⟨sendByteWrites (.byte a b), rfl⟩
  case writeString line text =>
    refine ⟨sendByteWrites .lineAddress ++
      (List.range text.length).flatMap fun k => sendByteWrites (.textByte k), ?_⟩
    rw [writeOps_append, writeOps_flatMap]
    rfl
  case clear =>
    exact ⟨sendByteWrites (.byte clearDisplay modeCommand) ++ sendByteWrites (.byte returnHome modeCommand), rfl⟩

/-- Writes stand at the even places, delays at the odd ones. -/
theorem out_eq_delay_iff_of_writeOps (ws : List (List CdsLoad × Form)) :
    ∀ (n : Nat) (op : CdsMicro), (writeOps ws)[n]? = some op → (op.out = .delay ↔ n % 2 = 1) := by
  induction ws with
  | nil => intro n op h; cases h
  | cons w ws ih =>
    intro n op h
    rw [writeOps_cons] at h
    match n, h with
    | 0, h => cases h; simp
    | 1, h => cases h; simp
    | n + 2, h => rw [ih n op h, Nat.add_mod_right]

/-- Writes stand at the even places of a CDS command, delays at the odd ones (R103 (a)). -/
theorem out_eq_delay_iff {i : Instr} {k : CdsCommand} {n : Nat} {op : CdsMicro} (h : cdsCommand? i = some k)
    (hop : k.ops[n]? = some op) : op.out = .delay ↔ n % 2 = 1 := by
  obtain ⟨ws, hws⟩ := exists_writeOps h
  exact out_eq_delay_iff_of_writeOps ws n op (hws ▸ hop)

/-- At an even place of a CDS command stands a write. -/
theorem exists_out_eq_raw {i : Instr} {k : CdsCommand} {n : Nat} {op : CdsMicro} (h : cdsCommand? i = some k)
    (hop : k.ops[n]? = some op) (hn : n % 2 = 0) : ∃ f, op.out = .raw f := by
  cases ho : op.out with
  | raw f => exact ⟨f, rfl⟩
  | delay =>
    have hodd := (out_eq_delay_iff h hop).1 ho
    omega

theorem length_ops_even {i : Instr} {k : CdsCommand} (h : cdsCommand? i = some k) : k.ops.length % 2 = 0 := by
  obtain ⟨ws, hws⟩ := exists_writeOps h
  rw [hws, length_writeOps, Nat.mul_mod_right]

theorem length_sendByteOps (src : CdsLoad) : (sendByteOps src).length = 12 := rfl

theorem length_writeString_ops (line : Byte) (text : List Byte) :
    (writeStringCommand line text).ops.length = 12 * (1 + text.length) := by
  have htext : ((List.range text.length).flatMap fun k => sendByteOps (.textByte k)).length = text.length * 12 := by
    simp [List.length_flatMap, length_sendByteOps]
  rw [writeStringCommand, List.length_append, htext, length_sendByteOps]
  omega

/-- Settles O40: the lists of the commands, WRITE_STRING's by its text, and the places of the delays. -/
theorem microOperationCounts : Obligations.MicroOperationCounts := by
  refine ⟨fun i c h => ?_, fun i k h => ?_, fun i k n op h hop => out_eq_delay_iff h hop⟩
  · cases i <;> cases h <;> rfl
  · cases i with
    | writeString line text =>
      cases h
      exact length_writeString_ops line text
    | _ => cases h <;> rfl

/-! ## The register transfers of the commands -/

/-- The register transfers that a CDS command makes (R99 to R102). -/
def LoadsOf : Instr → CdsLoad → Prop
  | .sendByte a b, l => l = .byte a b ∨ l = .highHalf ∨ l = .lowHalf
  | .writeString _ text, l =>
    l = .lineAddress ∨ (∃ n, n < text.length ∧ l = .textByte n) ∨ l = .highHalf ∨ l = .lowHalf
  | .clear, l => (∃ a b, l = .byte a b) ∨ l = .highHalf ∨ l = .lowHalf
  | _, _ => False

theorem mem_loads_of_mem_sendByteOps {src l : CdsLoad} {op : CdsMicro} (hop : op ∈ sendByteOps src)
    (hl : l ∈ op.loads) : l = src ∨ l = .highHalf ∨ l = .lowHalf := by
  rcases loads_of_mem_sendByteOps hop with h | h | h <;> rw [h] at hl
  · cases hl
  · rcases List.mem_pair.1 hl with rfl | rfl
    · exact .inl rfl
    · exact .inr (.inl rfl)
  · exact .inr (.inr (List.mem_singleton.1 hl))

theorem loads_of_mem_strobeOps : ∀ op ∈ strobeOps, op.loads = [] := by decide

theorem loads_of_mem_write4BitsOps : ∀ op ∈ write4BitsOps [], op.loads = [] := by decide

/-- The register transfers of the micro-operations of a command are those named for it. -/
theorem loads_of_mem_ops {i : Instr} {k : CdsCommand} {op : CdsMicro} {l : CdsLoad} (h : cdsCommand? i = some k)
    (hop : op ∈ k.ops) (hl : l ∈ op.loads) : LoadsOf i l := by
  cases i <;> cases h
  case strobe a =>
    rw [loads_of_mem_strobeOps op hop] at hl
    cases hl
  case write4Bits a =>
    rw [loads_of_mem_write4BitsOps op hop] at hl
    cases hl
  case sendByte a b => exact mem_loads_of_mem_sendByteOps hop hl
  case writeString line text =>
    rcases List.mem_append.1 hop with hop | hop
    · rcases mem_loads_of_mem_sendByteOps hop hl with h | h
      · exact .inl h
      · exact .inr (.inr h)
    · obtain ⟨n, hn, hop⟩ := List.mem_flatMap.1 hop
      rcases mem_loads_of_mem_sendByteOps hop hl with h | h
      · exact .inr (.inl ⟨n, List.mem_range.1 hn, h⟩)
      · exact .inr (.inr h)
  case clear =>
    rcases List.mem_append.1 hop with hop | hop
    all_goals
      rcases mem_loads_of_mem_sendByteOps hop hl with h | h
      · exact .inl ⟨_, _, h⟩
      · exact .inr h

end Sys2Proof.Machine

namespace Sys2Proof.Machine

/-! # The invariant of the MSD is kept

The clauses of the invariant fall in two: those of the phase, and those of what the unit has recorded. The second hold
also in the middle of a run and are stated of the recorded parts alone, so that a change of the phase does not touch
them. -/

/-- What the MSD's invariant says of flags, warnings, trace and responses. -/
structure MsdRecord (flags : Flags) (warn : Warn) (trace : List Event) (responses : List Response) : Prop where
  no_warn : warn = Warn.none
  no_badline : flags.badline = false
  terr_iff : flags.terr =
    (responses.any (fun r => r.code == 1) || trace.head? == some (.wrErr 0x6B 0x00))
  ill_iff : flags.ill = responses.any (fun r => r.code == 2)
  unk_iff : flags.unk = responses.any Response.unkCfg
  completions : ∀ r ∈ responses, r.completion ∈ ([0x00, 0x10, 0x01, 0x02] : List Byte)
  events : ∀ e ∈ trace, e.isMsd = true

/-- The decoded words are `s16` values (R13). -/
structure MsdRegs.InRange (r : MsdRegs) : Prop where
  v0 : -32768 ≤ r.v0 ∧ r.v0 ≤ 32767
  v1 : -32768 ≤ r.v1 ∧ r.v1 ≤ 32767
  v2 : -32768 ≤ r.v2 ∧ r.v2 ≤ 32767

theorem Msd.Inv.record {m : Msd} (h : m.Inv) : MsdRecord m.ctl.flags m.ctl.warn m.ctl.trace m.ctl.responses :=
  ⟨h.no_warn, h.no_badline, h.terr_iff, h.ill_iff, h.unk_iff, h.completions, h.events⟩

theorem Msd.Inv.inRange {m : Msd} (h : m.Inv) : m.regs.InRange := ⟨h.v0_range, h.v1_range, h.v2_range⟩

/-- The invariant of an MSD whose boot action is over and that is IDLE. -/
theorem Msd.Inv.of_idle {m : Msd} (hphase : m.ctl.phase = .idle) (hupc : m.ctl.upc = 0) (hboot : m.bootDue = false)
    (hrecord : MsdRecord m.ctl.flags m.ctl.warn m.ctl.trace m.ctl.responses) (hregs : m.regs.InRange) : m.Inv where
  idle_upc _ := hupc
  busy_upc i h := by rw [hphase] at h; cases h
  before_boot h := by rw [hboot] at h; cases h
  booting h := by rw [hphase] at h; cases h
  no_warn := hrecord.no_warn
  v0_range := hregs.v0
  v1_range := hregs.v1
  v2_range := hregs.v2
  no_badline := hrecord.no_badline
  terr_iff := hrecord.terr_iff
  ill_iff := hrecord.ill_iff
  unk_iff := hrecord.unk_iff
  completions := hrecord.completions
  events := hrecord.events

/-- The invariant of an MSD that is BUSY with a command. -/
theorem Msd.Inv.of_busy {m : Msd} {i : Instr} {c : MsdCommand} (hphase : m.ctl.phase = .busy i)
    (hoperands : m.holdsOperands i) (hc : msdCommand? i = some c) (hupc : m.ctl.upc < c.ops.length)
    (hboot : m.bootDue = false) (hrecord : MsdRecord m.ctl.flags m.ctl.warn m.ctl.trace m.ctl.responses)
    (hregs : m.regs.InRange) : m.Inv where
  idle_upc h := by rw [hphase] at h; cases h
  busy_upc i' h := by
    rw [hphase] at h
    cases h
    exact ⟨hoperands, c, hc, hupc⟩
  before_boot h := by rw [hboot] at h; cases h
  booting h := by rw [hphase] at h; cases h
  no_warn := hrecord.no_warn
  v0_range := hregs.v0
  v1_range := hregs.v1
  v2_range := hregs.v2
  no_badline := hrecord.no_badline
  terr_iff := hrecord.terr_iff
  ill_iff := hrecord.ill_iff
  unk_iff := hrecord.unk_iff
  completions := hrecord.completions
  events := hrecord.events

theorem MsdRegs.reset_inRange : MsdRegs.reset.InRange := ⟨by decide, by decide, by decide⟩

/-- The MSD right after a reset meets its invariant (R26). -/
theorem Msd.reset_inv (params : MsdParams) (port : List (List Byte)) (replies : List Reply) :
    (Msd.reset params port replies).Inv where
  idle_upc _ := rfl
  busy_upc _ h := by cases h
  before_boot _ := ⟨rfl, rfl, rfl, rfl⟩
  booting h := by cases h
  no_warn := rfl
  v0_range := MsdRegs.reset_inRange.v0
  v1_range := MsdRegs.reset_inRange.v1
  v2_range := MsdRegs.reset_inRange.v2
  no_badline := rfl
  terr_iff := rfl
  ill_iff := rfl
  unk_iff := rfl
  completions _ h := by cases h
  events _ h := by cases h

/-! ## What a micro-operation and a response add to the record -/

theorem MsdRegs.okEvent_isMsd (r : MsdRegs) (op : MsdMicro) (b : Byte) :
    (r.okEvent op b).isMsd = true ∧ (r.okEvent op b).isError = false := by
  cases op <;> exact ⟨rfl, rfl⟩

theorem MsdRegs.errEvent_isMsd (r : MsdRegs) (op : MsdMicro) : (r.errEvent op).isMsd = true := by
  cases op <;> rfl

section
variable {flags : Flags} {warn : Warn} {trace : List Event} {responses : List Response}
  (h : MsdRecord flags warn trace responses)
include h

/-- An event that is no failure is added. -/
theorem MsdRecord.log {e : Event} (he : e.isMsd = true) (hok : e.isError = false) :
    MsdRecord flags warn (trace ++ [e]) responses := by
  refine { h with terr_iff := ?_, events := ?_ }
  · rw [h.terr_iff]
    cases trace with
    | nil => cases e <;> cases hok <;> rfl
    | cons e' trace => rfl
  · exact List.forall_mem_append.2 ⟨h.events, List.forall_mem_singleton.2 he⟩

/-- A command ends OK, perhaps with the warning UNK_CFG (R111). -/
theorem MsdRecord.respond_ok (unk : Bool) (p : Payload) :
    MsdRecord { flags with unk := flags.unk || unk } Warn.none trace
      (responses ++ [⟨completionByte .ok { warn with unkCfg := warn.unkCfg || unk }, p⟩]) where
  no_warn := rfl
  no_badline := h.no_badline
  terr_iff := by simp [h.terr_iff, Code.bits]
  ill_iff := by simp [h.ill_iff, Code.bits]
  unk_iff := by simp [h.unk_iff, h.no_warn, Warn.none]
  completions := by
    have hnew : completionByte .ok { Warn.none with unkCfg := Warn.none.unkCfg || unk } ∈
        ([0x00, 0x10, 0x01, 0x02] : List Byte) := by cases unk <;> decide
    rw [h.no_warn]
    exact List.forall_mem_append.2 ⟨h.completions, List.forall_mem_singleton.2 hnew⟩
  events := h.events

/-- A command aborts with the failed transaction in the trace (R116). -/
theorem MsdRecord.abort {e : Event} (he : e.isMsd = true) (p : Payload) :
    MsdRecord { flags with terr := true } Warn.none (trace ++ [e])
      (responses ++ [⟨completionByte .transportError warn, p⟩]) where
  no_warn := rfl
  no_badline := h.no_badline
  terr_iff := by simp [Code.bits]
  ill_iff := by simp [h.ill_iff, Code.bits]
  unk_iff := by simp [h.unk_iff, h.no_warn, Warn.none]
  completions := by
    rw [h.no_warn]
    exact List.forall_mem_append.2 ⟨h.completions, List.forall_mem_singleton.2 (by dsimp only; decide)⟩
  events := List.forall_mem_append.2 ⟨h.events, List.forall_mem_singleton.2 he⟩

/-- A packet is refused (R113). -/
theorem MsdRecord.illegal (p : Payload) :
    MsdRecord { flags with ill := true } Warn.none trace
      (responses ++ [⟨completionByte .illegalCommand Warn.none, p⟩]) where
  no_warn := rfl
  no_badline := h.no_badline
  terr_iff := by simp [h.terr_iff, Code.bits]
  ill_iff := by simp [Code.bits]
  unk_iff := by simp [h.unk_iff, Warn.none]
  completions := List.forall_mem_append.2 ⟨h.completions, List.forall_mem_singleton.2 (by dsimp only; decide)⟩
  events := h.events

end

/-- A read latches an `s16` value (R71, R81). -/
theorem MsdRegs.InRange.latch {r : MsdRegs} (h : r.InRange) (op : MsdMicro) (b : Byte) : (r.latch op b).InRange := by
  cases op with
  | readHi reg => exact ⟨h.v0, h.v1, h.v2⟩
  | readLo reg dst =>
    have hs := s16_range (asm16 r.hi b)
    cases dst
    · exact ⟨hs, h.v1, h.v2⟩
    · exact ⟨h.v0, hs, h.v2⟩
    · exact ⟨h.v0, h.v1, hs⟩
  | readRng reg => exact ⟨h.v0, h.v1, h.v2⟩
  | write reg src => exact h

/-! ## A run keeps the invariant -/

/-- The MSD in the middle of the command `i`, with the micro-operations `ops` to come. -/
structure Msd.Running (i : Instr) (c : MsdCommand) (ops : List MsdMicro) (m : Msd) : Prop where
  phase : m.ctl.phase = .busy i
  bootDue : m.bootDue = false
  operands : m.holdsOperands i
  upc : m.ctl.upc + ops.length = c.ops.length
  record : MsdRecord m.ctl.flags m.ctl.warn m.ctl.trace m.ctl.responses
  regs : m.regs.InRange

theorem Msd.finish_flags (m : Msd) (a : Bool × Payload) :
    (m.finish a).ctl.flags = { m.ctl.flags with unk := m.ctl.flags.unk || a.1 } := by
  rcases a with ⟨_ | _, p⟩ <;> simp

theorem Msd.finish_trace (m : Msd) (a : Bool × Payload) : (m.finish a).ctl.trace = m.ctl.trace := by
  rcases a with ⟨_ | _, p⟩ <;> rfl

/-- However a run ends, the invariant holds at its end. -/
theorem Msd.Running.run_inv {i : Instr} {c : MsdCommand} {ops : List MsdMicro} {m : Msd} (hc : msdCommand? i = some c)
    (h : m.Running i c ops) : (Msd.run c.answer ops m).Inv := by
  refine Msd.run_induction (Q := Msd.Inv) (Msd.Running i c) ?_ ?_ ?_ ?_ ops m h
  · intro m h
    refine .of_idle rfl rfl h.bootDue ?_ h.regs
    rw [Msd.finish_flags, Msd.finish_trace, Msd.finish_responses]
    exact h.record.respond_ok _ _
  · intro op ops m h _
    have hupc := h.upc
    rw [List.length_cons] at hupc
    exact .of_busy h.phase h.operands hc (by omega) h.bootDue h.record h.regs
  · intro op ops m rs h _
    exact .of_idle rfl rfl h.bootDue (h.record.abort (m.regs.errEvent_isMsd op) _) h.regs
  · intro op ops m b rs h _
    obtain ⟨hmsd, hok⟩ := m.regs.okEvent_isMsd op b
    refine ⟨h.phase, h.bootDue, ?_, ?_, h.record.log hmsd hok, h.regs.latch op b⟩
    · simpa [Msd.holdsOperands] using h.operands
    · have hupc := h.upc
      simp only [List.length_cons, Msd.advance_ctl, Msd.done_ctl, Ctl.advance_upc, Ctl.log_upc] at hupc ⊢
      omega

/-- The capture of a command's operand holds it in OPA, and writes no other register (R46). -/
theorem capture_holds {i : Instr} {c : MsdCommand} (h : msdCommand? i = some c) (r : MsdRegs) :
    (i.operandBytes = [] ∨ i.operandBytes = [(c.capture r).opa]) ∧
      (c.capture r).v0 = r.v0 ∧ (c.capture r).v1 = r.v1 ∧ (c.capture r).v2 = r.v2 := by
  cases i <;> cases h
  case wake | readTemp | readRawAccelRange | readRawGyroRange | getGyroData => exact ⟨.inl rfl, rfl, rfl, rfl⟩
  all_goals exact ⟨.inr rfl, rfl, rfl, rfl⟩

/-- A command started by an IDLE MSD keeps the invariant. -/
theorem Msd.Inv.start {m : Msd} (h : m.Inv) {i : Instr} {c : MsdCommand} (hboot : m.bootDue = false)
    (hc : msdCommand? i = some c) : (m.start i c).Inv := by
  obtain ⟨hoperands, hv0, hv1, hv2⟩ := capture_holds hc m.regs
  refine Msd.Running.run_inv (i := i) hc ⟨rfl, hboot, hoperands, Nat.zero_add _, ?_, ?_⟩
  · exact { h.record with no_warn := rfl }
  · exact ⟨hv0 ▸ h.v0_range, hv1 ▸ h.v1_range, hv2 ▸ h.v2_range⟩

/-- The boot action is over once its write is issued: what is BUSY with a command has no boot action due. -/
theorem Msd.Inv.bootDue_of_busy {m : Msd} (h : m.Inv) {i : Instr} (hphase : m.ctl.phase = .busy i) :
    m.bootDue = false := by
  by_contra hboot
  obtain ⟨hidle, -⟩ := h.before_boot (by simpa using hboot)
  rw [hphase] at hidle
  cases hidle

/-- The rest of a command keeps the invariant. -/
theorem Msd.Inv.resumeTurn {m : Msd} (h : m.Inv) {i : Instr} (hphase : m.ctl.phase = .busy i) :
    (m.resumeTurn i).Inv := by
  obtain ⟨hoperands, c, hc, hupc⟩ := h.busy_upc i hphase
  have hturn : m.resumeTurn i = m.resume c := by rw [Msd.resumeTurn, hc]
  rw [hturn]
  refine Msd.Running.run_inv (i := i) hc ⟨hphase, h.bootDue_of_busy hphase, hoperands, ?_, h.record, h.inRange⟩
  rw [List.length_drop]
  omega

/-- The boot action keeps the invariant (R135, R140). -/
theorem Msd.Inv.bootTurn {m : Msd} (h : m.Inv)
    (hphase : m.ctl.phase = .booting ∨ (m.ctl.phase = .idle ∧ m.bootDue = true)) : m.bootTurn.Inv := by
  obtain ⟨hupc, htrace, hresponses, hflags⟩ :
      m.ctl.upc = 0 ∧ m.ctl.trace = [] ∧ m.ctl.responses = [] ∧ m.ctl.flags = Flags.none := by
    rcases hphase with hphase | ⟨hphase, hboot⟩
    · exact h.booting hphase
    · exact ⟨h.idle_upc hphase, (h.before_boot hboot).2⟩
  rcases m.bootTurn_cases with ⟨-, hm⟩ | ⟨rs, -, hm⟩ | ⟨b, rs, -, hm⟩ <;> rw [hm]
  · exact { h with
      idle_upc := by rintro ⟨⟩
      busy_upc := by rintro i ⟨⟩
      before_boot := by rintro ⟨⟩
      booting := fun _ => ⟨hupc, htrace, hresponses, hflags⟩ }
  · refine .of_idle rfl hupc rfl ?_ h.inRange
    exact { h.record with
      terr_iff := by simp [htrace]
      events := by simp [htrace, Event.isMsd] }
  · exact .of_idle rfl hupc rfl (h.record.log rfl rfl) h.inRange

/-- Every move of the MSD keeps its invariant. -/
theorem Msd.Move.inv {m m' : Msd} (hmove : m.Move m') (h : m.Inv) : m'.Inv := by
  cases hmove with
  | stay => exact h
  | boot hphase => exact h.bootTurn hphase
  | resume i hphase => exact h.resumeTurn hphase
  | refuse hidle hboot => exact .of_idle rfl rfl hboot (h.record.illegal _) h.inRange
  | start i c hidle hboot hc =>
    have htaken : m.takePacket.Inv := { h with }
    exact htaken.start hboot hc
  | present packet => exact { h with }
  | answer r => exact { h with }

/-! # The invariant of the CDS is kept -/

/-- What the CDS's invariant says of flags, warnings and responses. -/
structure CdsRecord (flags : Flags) (warn : Warn) (responses : List Response) : Prop where
  no_unk : warn.unkCfg = false ∧ flags.unk = false
  terr_iff : flags.terr = responses.any (fun r => r.code == 1)
  ill_iff : flags.ill = responses.any (fun r => r.code == 2)
  badline_iff : flags.badline = (responses.any Response.badLine || warn.badLine)
  completions : ∀ r ∈ responses, r.completion ∈ ([0x00, 0x20, 0x01, 0x21, 0x02] : List Byte)

/-- What the CDS's invariant says of the trace: whether a delay is owed, and the backlight (R103 (a), R21). -/
structure CdsTrace (trace : List Event) (owed : Bool) : Prop where
  alternates : delayOwed trace = some owed
  backlit : ∀ e ∈ trace, ∀ v, e.rawByte? = some v → v.getLsbD 3 = true

/-- What the CDS's invariant says of `TXT`, `LEN` and `IDX` (R14). -/
structure CdsRegs.Fits (maxText : Nat) (r : CdsRegs) : Prop where
  txt : r.txt.length = maxText
  len : r.len.toNat ≤ maxText
  idx : r.idx ≤ r.len.toNat

theorem Cds.Inv.record {c : Cds} (h : c.Inv) : CdsRecord c.ctl.flags c.ctl.warn c.ctl.responses :=
  ⟨h.no_unk, h.terr_iff, h.ill_iff, h.badline_iff, h.completions⟩

theorem Cds.Inv.trace {c : Cds} (h : c.Inv) : CdsTrace c.ctl.trace (c.ctl.isBusy && c.ctl.upc % 2 == 1) :=
  ⟨h.alternates, h.backlit⟩

theorem Cds.Inv.fits {c : Cds} (h : c.Inv) : c.regs.Fits c.params.maxText := by
  obtain ⟨htxt, hlen, hidx⟩ := h.text_regs
  exact ⟨htxt, hlen, hidx⟩

/-- The invariant of an IDLE CDS. -/
theorem Cds.Inv.of_idle {c : Cds} (hphase : c.ctl.phase = .idle) (hupc : c.ctl.upc = 0) (hwarn : c.ctl.warn = Warn.none)
    (hrecord : CdsRecord c.ctl.flags c.ctl.warn c.ctl.responses) (htrace : CdsTrace c.ctl.trace false)
    (hregs : c.regs.Fits c.params.maxText) : c.Inv where
  idle_upc _ := ⟨hupc, hwarn⟩
  not_booting h := by rw [hphase] at h; cases h
  busy_upc i h := by rw [hphase] at h; cases h
  no_unk := hrecord.no_unk
  terr_iff := hrecord.terr_iff
  ill_iff := hrecord.ill_iff
  badline_iff := hrecord.badline_iff
  completions := hrecord.completions
  text_regs := ⟨hregs.txt, hregs.len, hregs.idx⟩
  alternates := by rw [Ctl.isBusy, hphase]; exact htrace.alternates
  backlit := htrace.backlit

/-- The invariant of a CDS that is BUSY with a command. -/
theorem Cds.Inv.of_busy {c : Cds} {i : Instr} {k : CdsCommand} (hphase : c.ctl.phase = .busy i)
    (hwf : i.wf c.params.maxText = true) (hoperands : c.holdsOperands i) (hk : cdsCommand? i = some k)
    (hupc : c.ctl.upc < k.ops.length) (hrecord : CdsRecord c.ctl.flags c.ctl.warn c.ctl.responses)
    (htrace : CdsTrace c.ctl.trace (c.ctl.upc % 2 == 1)) (hregs : c.regs.Fits c.params.maxText) : c.Inv where
  idle_upc h := by rw [hphase] at h; cases h
  not_booting h := by rw [hphase] at h; cases h
  busy_upc i' h := by
    rw [hphase] at h
    cases h
    exact ⟨hwf, hoperands, k, hk, hupc⟩
  no_unk := hrecord.no_unk
  terr_iff := hrecord.terr_iff
  ill_iff := hrecord.ill_iff
  badline_iff := hrecord.badline_iff
  completions := hrecord.completions
  text_regs := ⟨hregs.txt, hregs.len, hregs.idx⟩
  alternates := by rw [Ctl.isBusy, hphase]; exact htrace.alternates
  backlit := htrace.backlit

/-- The CDS right after a reset meets its invariant (R26). -/
theorem Cds.reset_inv (params : CdsParams) (port : List (List Byte)) (acks : List Ack) (delays : Nat) :
    (Cds.reset params port acks delays).Inv where
  idle_upc _ := ⟨rfl, rfl⟩
  not_booting := by rintro ⟨⟩
  busy_upc := by rintro i ⟨⟩
  no_unk := ⟨rfl, rfl⟩
  terr_iff := rfl
  ill_iff := rfl
  badline_iff := rfl
  completions := by rintro r ⟨⟩
  text_regs := ⟨List.length_replicate, Nat.zero_le _, Nat.le_refl _⟩
  alternates := rfl
  backlit := by rintro e ⟨⟩

/-! ## What a micro-operation and a response add to the record -/

section
variable {flags : Flags} {warn : Warn} {responses : List Response} (h : CdsRecord flags warn responses)
include h

/-- The completion byte of a command that was accepted reports at most BAD_LINE. -/
theorem CdsRecord.completion_mem {code : Code} (hcode : code ≠ .illegalCommand) :
    completionByte code warn ∈ ([0x00, 0x20, 0x01, 0x21, 0x02] : List Byte) := by
  rcases warn with ⟨unkCfg, badLine⟩
  obtain rfl : unkCfg = false := h.no_unk.1
  clear h
  revert badLine hcode
  cases code <;> decide

/-- A command ends OK and reports the warning raised (R56, R112). -/
theorem CdsRecord.respond_ok (p : Payload) :
    CdsRecord flags Warn.none (responses ++ [⟨completionByte .ok warn, p⟩]) where
  no_unk := ⟨rfl, h.no_unk.2⟩
  terr_iff := by simp [h.terr_iff, Code.bits]
  ill_iff := by simp [h.ill_iff, Code.bits]
  badline_iff := by simp [h.badline_iff, Warn.none]
  completions :=
    List.forall_mem_append.2 ⟨h.completions, List.forall_mem_singleton.2 (h.completion_mem (by decide))⟩

/-- A command aborts and reports the warning raised (R112, R116). -/
theorem CdsRecord.abort (p : Payload) :
    CdsRecord { flags with terr := true } Warn.none (responses ++ [⟨completionByte .transportError warn, p⟩]) where
  no_unk := ⟨rfl, h.no_unk.2⟩
  terr_iff := by simp [Code.bits]
  ill_iff := by simp [h.ill_iff, Code.bits]
  badline_iff := by simp [h.badline_iff, Warn.none]
  completions :=
    List.forall_mem_append.2 ⟨h.completions, List.forall_mem_singleton.2 (h.completion_mem (by decide))⟩

/-- A packet is refused while no warning is raised (R113). -/
theorem CdsRecord.illegal (hwarn : warn = Warn.none) (p : Payload) :
    CdsRecord { flags with ill := true } Warn.none
      (responses ++ [⟨completionByte .illegalCommand Warn.none, p⟩]) where
  no_unk := ⟨rfl, h.no_unk.2⟩
  terr_iff := by simp [h.terr_iff, Code.bits]
  ill_iff := by simp [Code.bits]
  badline_iff := by simp [h.badline_iff, hwarn, Warn.none]
  completions := List.forall_mem_append.2 ⟨h.completions, List.forall_mem_singleton.2 (by dsimp only; decide)⟩

/-- The warning of an invalid line sets its flag when it is raised (R112, log entry 20). -/
theorem CdsRecord.warnBadLine :
    CdsRecord { flags with badline := true } { warn with badLine := true } responses :=
  { h with badline_iff := by simp }

end

/-- Whether a delay is owed after one more event depends on the trace before it through what was owed alone. -/
theorem delayOwed_append_congr {trace trace' : List Event} (h : delayOwed trace = delayOwed trace') (e : Event) :
    delayOwed (trace ++ [e]) = delayOwed (trace' ++ [e]) := by
  unfold delayOwed at h ⊢
  rw [List.foldl_append, List.foldl_append, h]

section
variable {trace : List Event} {v : Byte}

/-- After a write a delay is owed. -/
theorem CdsTrace.raw (h : CdsTrace trace false) (hv : v.getLsbD 3 = true) : CdsTrace (trace ++ [.raw v]) true where
  alternates := delayOwed_append_congr (trace' := []) h.alternates _
  backlit := List.forall_mem_append.2 ⟨h.backlit, List.forall_mem_singleton.2 fun _ hw => Option.some.inj hw ▸ hv⟩

/-- After a failed write no delay is owed. -/
theorem CdsTrace.rawErr (h : CdsTrace trace false) (hv : v.getLsbD 3 = true) :
    CdsTrace (trace ++ [.rawErr v]) false where
  alternates := delayOwed_append_congr (trace' := []) h.alternates _
  backlit := List.forall_mem_append.2 ⟨h.backlit, List.forall_mem_singleton.2 fun _ hw => Option.some.inj hw ▸ hv⟩

/-- The delay owed is made. -/
theorem CdsTrace.dly (h : CdsTrace trace true) : CdsTrace (trace ++ [.dly]) false where
  alternates := delayOwed_append_congr (trace' := [.raw 0x00]) h.alternates _
  backlit := List.forall_mem_append.2 ⟨h.backlit, List.forall_mem_singleton.2 fun _ hw => by cases hw⟩

end

/-! ## Register transfers keep the operands -/

/-- The CDS holds the operands of the command `i`, and its text registers are in their ranges. -/
structure Cds.Holds (i : Instr) (c : Cds) : Prop where
  operands : c.holdsOperands i
  fits : c.regs.Fits c.params.maxText

/-- A register transfer of a command keeps the operands captured, and the ranges of the text registers. -/
theorem Cds.Holds.load {i : Instr} {c : Cds} (h : c.Holds i) {l : CdsLoad} (hl : LoadsOf i l) (line1 : Byte) :
    Cds.Holds i { c with regs := c.regs.load line1 l } := by
  obtain ⟨hoperands, hfits⟩ := h
  cases i with
  | sendByte a b =>
    rcases hl with rfl | rfl | rfl
    · exact ⟨⟨rfl, rfl⟩, hfits.txt, hfits.len, hfits.idx⟩
    · exact ⟨hoperands, hfits.txt, hfits.len, hfits.idx⟩
    · exact ⟨hoperands, hfits.txt, hfits.len, hfits.idx⟩
  | writeString line text =>
    rcases hl with rfl | ⟨n, hn, rfl⟩ | rfl | rfl
    · exact ⟨hoperands, hfits.txt, hfits.len, hfits.idx⟩
    · have ⟨_, hlen, _⟩ := hoperands
      exact ⟨hoperands, hfits.txt, hfits.len, hlen ▸ hn.le⟩
    · exact ⟨hoperands, hfits.txt, hfits.len, hfits.idx⟩
    · exact ⟨hoperands, hfits.txt, hfits.len, hfits.idx⟩
  | clear =>
    rcases hl with ⟨a, b, rfl⟩ | rfl | rfl
    all_goals exact ⟨trivial, hfits.txt, hfits.len, hfits.idx⟩
  | _ => exact hl.elim

theorem Cds.Holds.loads {i : Instr} (line1 : Byte) :
    ∀ (ls : List CdsLoad) (c : Cds), (∀ l ∈ ls, LoadsOf i l) → c.Holds i →
      Cds.Holds i { c with regs := c.regs.loads line1 ls } := by
  intro ls
  induction ls with
  | nil => exact fun c _ h => h
  | cons l ls ih =>
    intro c hls h
    exact ih { c with regs := c.regs.load line1 l } (fun l hl => hls l (List.mem_cons_of_mem _ hl))
      (h.load (hls l List.mem_cons_self) line1)

/-- Making a micro-operation of the command ready keeps them too. -/
theorem Cds.Holds.prepare {i : Instr} {k : CdsCommand} {c : Cds} {op : CdsMicro} (h : c.Holds i)
    (hk : cdsCommand? i = some k) (hop : op ∈ k.ops) : (c.prepare op).Holds i :=
  Cds.Holds.loads _ op.loads c (fun _ hl => loads_of_mem_ops hk hop hl) h

/-- The capture of a well-formed command's operands holds them (R46, log entry 19). -/
theorem Cds.Holds.capture {i : Instr} {k : CdsCommand} {c : Cds} (hk : cdsCommand? i = some k)
    (hwf : i.wf c.params.maxText = true) (hfits : c.regs.Fits c.params.maxText) :
    Cds.Holds i { c with regs := k.capture c.regs } := by
  cases i <;> cases hk
  case writeString line text =>
    obtain ⟨hmax, hbyte⟩ : text.length ≤ c.params.maxText ∧ text.length ≤ 255 := by simpa [Instr.wf] using hwf
    have hlen : (BitVec.ofNat 8 text.length).toNat = text.length := by
      rw [BitVec.toNat_ofNat]
      omega
    refine ⟨⟨rfl, hlen, List.take_left⟩, ?_, hlen.trans_le hmax, Nat.zero_le _⟩
    have htxt := hfits.txt
    simp only [writeStringCommand, captureString, List.length_append, List.length_drop]
    omega
  case sendByte a b => exact ⟨⟨rfl, rfl⟩, hfits.txt, hfits.len, hfits.idx⟩
  case clear => exact ⟨trivial, hfits.txt, hfits.len, hfits.idx⟩
  all_goals exact ⟨rfl, hfits.txt, hfits.len, hfits.idx⟩

/-! ## A run keeps the invariant -/

/-- The CDS in the middle of the command `i`, with the micro-operations `ops` to come. -/
structure Cds.Running (i : Instr) (k : CdsCommand) (ops : List CdsMicro) (c : Cds) : Prop where
  phase : c.ctl.phase = .busy i
  wf : i.wf c.params.maxText = true
  holds : c.Holds i
  ops_eq : k.ops.drop c.ctl.upc = ops
  upc_le : c.ctl.upc ≤ k.ops.length
  record : CdsRecord c.ctl.flags c.ctl.warn c.ctl.responses
  trace : CdsTrace c.ctl.trace (c.ctl.upc % 2 == 1)

section
variable {i : Instr} {k : CdsCommand} {op : CdsMicro} {ops : List CdsMicro} {c : Cds}
  (hk : cdsCommand? i = some k) (h : c.Running i k (op :: ops))
include h

theorem Cds.Running.next_op : k.ops[c.ctl.upc]? = some op := by
  rw [← Nat.add_zero c.ctl.upc, ← List.getElem?_drop, h.ops_eq]
  rfl

theorem Cds.Running.upc_lt : c.ctl.upc < k.ops.length := (List.getElem?_eq_some_iff.1 h.next_op).1

/-- The registers are as before when the micro-operation is made ready. -/
theorem Cds.Running.prepare (hk : cdsCommand? i = some k) : (c.prepare op).Running i k (op :: ops) :=
  { h with holds := h.holds.prepare hk (List.mem_of_getElem? h.next_op) }

/-- A write stands at an even `upc`, where no delay is owed. -/
theorem Cds.Running.trace_of_raw (hk : cdsCommand? i = some k) {f : Form} (ho : op.out = .raw f) :
    c.ctl.upc % 2 = 0 ∧ CdsTrace c.ctl.trace false := by
  have hodd : ¬ c.ctl.upc % 2 = 1 := by
    rw [← out_eq_delay_iff hk h.next_op, ho]
    rintro ⟨⟩
  exact ⟨by omega, beq_eq_false_iff_ne.2 hodd ▸ h.trace⟩

/-- A delay stands at an odd `upc`, where it is owed. -/
theorem Cds.Running.trace_of_delay (hk : cdsCommand? i = some k) (ho : op.out = .delay) :
    c.ctl.upc % 2 = 1 ∧ CdsTrace c.ctl.trace true := by
  have hodd := (out_eq_delay_iff hk h.next_op).1 ho
  exact ⟨hodd, by simpa [hodd] using h.trace⟩

/-- The micro-operation is done, with its event in the trace. -/
theorem Cds.Running.done {e : Event} {as : List Ack} {d : Nat}
    (htrace : CdsTrace (c.ctl.trace ++ [e]) ((c.ctl.upc + 1) % 2 == 1)) :
    Cds.Running i k ops { c with acks := as, delays := d, ctl := (c.ctl.log e).advance } where
  phase := h.phase
  wf := h.wf
  holds := ⟨h.holds.operands, h.holds.fits⟩
  ops_eq := by
    have hdrop := congrArg List.tail h.ops_eq
    rwa [List.tail_drop] at hdrop
  upc_le := h.upc_lt
  record := h.record
  trace := htrace

end

/-- However a run ends, the invariant holds at its end. -/
theorem Cds.Running.run_inv {i : Instr} {k : CdsCommand} {ops : List CdsMicro} {c : Cds} (hk : cdsCommand? i = some k)
    (h : c.Running i k ops) : (Cds.run ops c).Inv := by
  refine Cds.run_induction (Q := Cds.Inv) (Cds.Running i k) ?_ ?_ ?_ ?_ ?_ ops c h
  · intro c h
    have hupc : c.ctl.upc = k.ops.length := le_antisymm h.upc_le (List.drop_eq_nil_iff.1 h.ops_eq)
    have heven : (c.ctl.upc % 2 == 1) = false := by rw [hupc, length_ops_even hk]; rfl
    have htrace : CdsTrace c.ctl.trace false := heven ▸ h.trace
    exact .of_idle rfl rfl rfl (h.record.respond_ok _) htrace h.holds.fits
  · intro op ops c h _
    have hready := h.prepare hk
    exact .of_busy hready.phase hready.wf hready.holds.operands hk hready.upc_lt hready.record hready.trace
      hready.holds.fits
  · intro op ops c f as h ho _
    have hready := h.prepare hk
    obtain ⟨-, htrace⟩ := hready.trace_of_raw hk ho
    exact .of_idle rfl rfl rfl (hready.record.abort _) (htrace.rawErr (f.byte_backlight _)) hready.holds.fits
  · intro op ops c f as h ho _
    have hready := h.prepare hk
    obtain ⟨hupc, htrace⟩ := hready.trace_of_raw hk ho
    have hodd : (((c.prepare op).ctl.upc + 1) % 2 == 1) = true := by simp only [beq_iff_eq]; omega
    exact hready.done (hodd ▸ htrace.raw (f.byte_backlight _))
  · intro op ops c n h ho _
    have hready := h.prepare hk
    obtain ⟨hupc, htrace⟩ := hready.trace_of_delay hk ho
    have heven : (((c.prepare op).ctl.upc + 1) % 2 == 1) = false := by simp only [beq_eq_false_iff_ne]; omega
    exact hready.done (heven ▸ htrace.dly)

/-- A well-formed command started by an IDLE CDS keeps the invariant. -/
theorem Cds.Inv.start {c : Cds} (h : c.Inv) (hidle : c.ctl.phase = .idle) {i : Instr} {k : CdsCommand}
    (hwf : i.wf c.params.maxText = true) (hk : cdsCommand? i = some k) : (c.start i k).Inv := by
  obtain ⟨-, hwarn⟩ := h.idle_upc hidle
  have htrace : CdsTrace c.ctl.trace false := by simpa [Ctl.isBusy, hidle] using h.trace
  have hrecord : CdsRecord c.ctl.flags Warn.none c.ctl.responses := hwarn ▸ h.record
  have hholds := Cds.Holds.capture hk hwf h.fits
  refine Cds.Running.run_inv (i := i) hk ?_
  cases k.badLine
  · exact ⟨rfl, hwf, ⟨hholds.operands, hholds.fits⟩, rfl, Nat.zero_le _, hrecord, htrace⟩
  · exact ⟨rfl, hwf, ⟨hholds.operands, hholds.fits⟩, rfl, Nat.zero_le _, hrecord.warnBadLine, htrace⟩

/-- The rest of a command keeps the invariant. -/
theorem Cds.Inv.resumeTurn {c : Cds} (h : c.Inv) {i : Instr} (hphase : c.ctl.phase = .busy i) :
    (c.resumeTurn i).Inv := by
  obtain ⟨hwf, hoperands, k, hk, hupc⟩ := h.busy_upc i hphase
  have hturn : c.resumeTurn i = c.resume k := by rw [Cds.resumeTurn, hk]
  have htrace : CdsTrace c.ctl.trace (c.ctl.upc % 2 == 1) := by simpa [Ctl.isBusy, hphase] using h.trace
  rw [hturn]
  exact Cds.Running.run_inv (i := i) hk ⟨hphase, hwf, ⟨hoperands, h.fits⟩, rfl, hupc.le, h.record, htrace⟩

/-- Every move of the CDS keeps its invariant. -/
theorem Cds.Move.inv {c c' : Cds} (hmove : c.Move c') (h : c.Inv) : c'.Inv := by
  cases hmove with
  | stay => exact h
  | resume i hphase => exact h.resumeTurn hphase
  | refuse hidle =>
    obtain ⟨-, hwarn⟩ := h.idle_upc hidle
    have htrace : CdsTrace c.ctl.trace false := by simpa [Ctl.isBusy, hidle] using h.trace
    exact .of_idle rfl rfl rfl (h.record.illegal hwarn _) htrace h.fits
  | start i k hidle hwf hk =>
    have htaken : c.takePacket.Inv := { h with }
    exact htaken.start hidle hwf hk
  | present packet => exact { h with }
  | acknowledge a => exact { h with }
  | delayAnswer => exact { h with }

/-! # The invariant of the machine -/

/-- Settles O49: each unit meets its invariant after a reset. -/
theorem resetMeetsTheInvariant : Obligations.ResetMeetsTheInvariant :=
  ⟨Msd.reset_inv _ _ _, Cds.reset_inv _ _ _ _⟩

/-- Settles O50: a step resets a unit or makes one of its moves, and each keeps the unit's invariant. -/
theorem stepKeepsTheInvariant : Obligations.StepKeepsTheInvariant := by
  intro s t hinv h
  constructor
  · rcases step_msd_move h with ⟨-, hreset⟩ | hmove
    · rw [hreset]
      exact Msd.reset_inv _ _ _
    · exact hmove.inv hinv.msd
  · rcases step_cds_move h with ⟨-, hreset⟩ | hmove
    · rw [hreset]
      exact Cds.reset_inv _ _ _ _
    · exact hmove.inv hinv.cds

end Sys2Proof.Machine

namespace Sys2Proof.Machine

/-! # One step (R10, R12, R44, R137) -/

/-! ## What a step is, by the move -/

theorem State.busClash_takeTurn (s : State) (u : UnitId) : s.takeTurn.busClash u = s.busClash u := by
  cases u <;> rfl

/-- A turn that breaks the bus discipline is refused (R137). -/
theorem step_of_busClash {s : State} {u : UnitId} (hturn : s.turn = .run u) (hclash : s.busClash u = true) :
    step s = .refused .busNotSerialised := by
  simp [step, hturn, State.move, State.unitTurn, State.busClash_takeTurn, hclash]

theorem step_eq_msdTurn {s : State} (hturn : s.turn = .run .msd) (hclash : s.busClash .msd = false) :
    step s = s.takeTurn.msdTurn := by
  simp [step, hturn, State.move, State.unitTurn, State.busClash_takeTurn, hclash]

theorem step_eq_cdsTurn {s : State} (hturn : s.turn = .run .cds) (hclash : s.busClash .cds = false) :
    step s = s.takeTurn.cdsTurn := by
  simp [step, hturn, State.move, State.unitTurn, State.busClash_takeTurn, hclash]

/-- The head of the schedule is the move of the step, on the state without it. -/
theorem step_of_schedule {s : State} {turn : Turn} {rest : List Turn} (h : s.schedule = turn :: rest) :
    step s = State.move { s with schedule := rest } turn := by
  simp [step, State.turn, State.takeTurn, h]

/-! ## A unit's turn, by its phase -/

section
variable {s : State}

theorem State.msdTurn_of_packet (hphase : s.msd.ctl.phase = .idle) (hboot : s.msd.bootDue = false)
    {packet : List Byte} (hport : s.msd.ctl.port.head? = some packet) :
    s.msdTurn = (s.takePacket .msd).execute .msd packet := by
  obtain ⟨rest, hport⟩ := List.head?_eq_some_iff.1 hport
  simp [State.msdTurn, hphase, hboot, hport]

theorem State.msdTurn_of_no_packet (hphase : s.msd.ctl.phase = .idle) (hboot : s.msd.bootDue = false)
    (hport : s.msd.ctl.port = []) : s.msdTurn = .next s := by
  simp [State.msdTurn, hphase, hboot, hport]

theorem State.msdTurn_of_busy {i : Instr} (hphase : s.msd.ctl.phase = .busy i) :
    s.msdTurn = .next { s with msd := s.msd.resumeTurn i } := by
  simp [State.msdTurn, hphase]

theorem State.msdTurn_of_boot
    (hphase : (s.msd.ctl.phase = .idle ∧ s.msd.bootDue = true) ∨ s.msd.ctl.phase = .booting) :
    s.msdTurn = .next { s with msd := s.msd.bootTurn } := by
  rcases hphase with ⟨hphase, hboot⟩ | hphase
  · simp [State.msdTurn, hphase, hboot]
  · simp [State.msdTurn, hphase]

theorem State.cdsTurn_of_packet (hphase : s.cds.ctl.phase = .idle) {packet : List Byte}
    (hport : s.cds.ctl.port.head? = some packet) : s.cdsTurn = (s.takePacket .cds).execute .cds packet := by
  obtain ⟨rest, hport⟩ := List.head?_eq_some_iff.1 hport
  simp [State.cdsTurn, hphase, hport]

theorem State.cdsTurn_of_no_packet (hphase : s.cds.ctl.phase = .idle) (hport : s.cds.ctl.port = []) :
    s.cdsTurn = .next s := by
  simp [State.cdsTurn, hphase, hport]

theorem State.cdsTurn_of_busy {i : Instr} (hphase : s.cds.ctl.phase = .busy i) :
    s.cdsTurn = .next { s with cds := s.cds.resumeTurn i } := by
  simp [State.cdsTurn, hphase]

end

theorem State.execute_of_decode_eq_error {s : State} {u : UnitId} {packet : List Byte} {e : DecodeError}
    (h : decode u s.cds.params.maxText packet = .error e) : s.execute u packet = .next (s.illegal u) := by
  simp [State.execute, h]

/-- Settles O5: the turn takes the packet and executes it, or goes on with the command. -/
theorem stepExecutesTheNextPacket : Obligations.StepExecutesTheNextPacket := by
  intro s packet i e
  refine ⟨fun hturn hclash hphase hboot hport => ?_, fun hturn hclash hphase hport => ?_,
    fun hturn hclash hphase => ?_, fun hturn hclash hphase => ?_⟩
  · rw [step_eq_msdTurn hturn hclash, State.msdTurn_of_packet (s := s.takeTurn) hphase hboot hport]
    refine ⟨fun hd => State.execute_of_decode_eq_ok hd, fun hd => ?_⟩
    rw [State.execute_of_decode_eq_error (s := s.takeTurn.takePacket .msd) hd, ← Ctl.illegal_eq_ended]
    rfl
  · rw [step_eq_cdsTurn hturn hclash, State.cdsTurn_of_packet (s := s.takeTurn) hphase hport]
    refine ⟨fun hd => State.execute_of_decode_eq_ok hd, fun hd => ?_⟩
    rw [State.execute_of_decode_eq_error (s := s.takeTurn.takePacket .cds) hd, ← Ctl.illegal_eq_ended]
    rfl
  · rw [step_eq_msdTurn hturn hclash, State.msdTurn_of_busy (s := s.takeTurn) hphase, State.takeTurn_msd]
  · rw [step_eq_cdsTurn hturn hclash, State.cdsTurn_of_busy (s := s.takeTurn) hphase, State.takeTurn_cds]

/-- Settles O6: each move of the environment by its definition. -/
theorem presentedPacketsAndAnswersWait : Obligations.PresentedPacketsAndAnswersWait := fun _ _ =>
  ⟨fun _ h => step_of_schedule h, fun _ h => step_of_schedule h, fun _ h => step_of_schedule h,
    fun _ h => step_of_schedule h, fun h => step_of_schedule h⟩

/-- Settles O8: such a turn does not break the bus discipline, and finds nothing to do. -/
theorem idleUnitWithoutPacketChangesNothing : Obligations.IdleUnitWithoutPacketChangesNothing := by
  intro s
  refine ⟨fun hturn hboot hphase hport => ?_, fun hturn hphase hport => ?_⟩
  · have hclash : s.busClash .msd = false := by
      rw [← Bool.not_eq_true, State.busClash_msd_iff]
      simp [hphase, hboot, hport]
    rw [step_eq_msdTurn hturn hclash]
    exact State.msdTurn_of_no_packet (s := s.takeTurn) hphase hboot hport
  · have hclash : s.busClash .cds = false := by
      rw [← Bool.not_eq_true, State.busClash_cds_iff]
      simp [hphase, hport]
    rw [step_eq_cdsTurn hturn hclash]
    exact State.cdsTurn_of_no_packet (s := s.takeTurn) hphase hport

/-- Settles O46: the three answers to the boot write. -/
theorem bootActionComesFirst : Obligations.BootActionComesFirst := by
  intro s hturn hclash hphase
  have hstep : step s = .next { s.takeTurn with msd := s.msd.bootTurn } := by
    rw [step_eq_msdTurn hturn hclash]
    exact State.msdTurn_of_boot (s := s.takeTurn) hphase
  rw [hstep]
  rcases s.msd.bootTurn_cases with ⟨hr, hm⟩ | ⟨rs, hr, hm⟩ | ⟨b, rs, hr, hm⟩ <;> rw [hm, hr]
  · refine ⟨by rintro b rs ⟨⟩, by rintro rs ⟨⟩, fun _ => ⟨_, rfl, ?_, ?_⟩⟩
    · obtain ⟨hbusy, -⟩ := statusByte_bits true s.msd.ctl.flags
      exact hbusy
    · simp [hr]
  · refine ⟨by rintro b rs ⟨⟩, ?_, by rintro ⟨⟩⟩
    rintro rs ⟨⟩
    rfl
  · refine ⟨?_, by rintro rs ⟨⟩, by rintro ⟨⟩⟩
    rintro b rs ⟨⟩
    rfl

/-- Settles O47: the reset of a unit by its definition. -/
theorem resetClearsOneUnit : Obligations.ResetClearsOneUnit := fun _ _ =>
  ⟨fun h => ⟨_, step_of_schedule h, rfl, rfl, rfl, rfl, rfl, rfl⟩,
    fun h => ⟨_, step_of_schedule h, rfl, rfl, rfl, rfl, rfl, rfl⟩⟩

/-- Settles O48: each field of the reset state by its definition. -/
theorem resetStateOfTheSpec : Obligations.ResetStateOfTheSpec :=
  ⟨rfl, rfl, rfl, rfl, rfl, rfl, rfl, rfl, rfl, rfl, rfl, rfl, rfl, rfl, rfl, rfl, rfl, rfl, rfl, rfl⟩

/-! ## Which steps are refused (R137) -/

theorem State.execute_ne_refused (s : State) (u : UnitId) (packet : List Byte) (r : Refusal) :
    s.execute u packet ≠ .refused r := by
  cases hd : decode u s.cds.params.maxText packet with
  | ok i =>
    obtain ⟨t, ht⟩ := execAlwaysAnswersNext i s
    rw [State.execute_of_decode_eq_ok hd, ht]
    rintro ⟨⟩
  | error e =>
    rw [State.execute_of_decode_eq_error hd]
    rintro ⟨⟩

/-- The MSD's turn itself is never refused. -/
theorem State.msdTurn_ne_refused (s : State) (r : Refusal) : s.msdTurn ≠ .refused r := by
  unfold State.msdTurn
  split
  · rintro ⟨⟩
  · rintro ⟨⟩
  · split
    · rintro ⟨⟩
    · split
      · rintro ⟨⟩
      · exact State.execute_ne_refused _ _ _ _

/-- The CDS's turn itself is never refused. -/
theorem State.cdsTurn_ne_refused (s : State) (r : Refusal) : s.cdsTurn ≠ .refused r := by
  unfold State.cdsTurn
  split
  · rintro ⟨⟩
  · rintro ⟨⟩
  · split
    · rintro ⟨⟩
    · exact State.execute_ne_refused _ _ _ _

/-- A step is refused exactly if it is a unit's turn that breaks the bus discipline. -/
theorem step_refused_iff (s : State) (r : Refusal) :
    step s = .refused r ↔ r = .busNotSerialised ∧ ∃ u, s.turn = .run u ∧ s.busClash u = true := by
  constructor
  · intro h
    rcases hturn : s.turn with u | _ | _ | _ | _ | _
    · cases hclash : s.busClash u with
      | true =>
        rw [step_of_busClash hturn hclash] at h
        cases h
        exact ⟨rfl, u, rfl, hclash⟩
      | false =>
        cases u
        · rw [step_eq_msdTurn hturn hclash] at h
          exact absurd h (State.msdTurn_ne_refused _ r)
        · rw [step_eq_cdsTurn hturn hclash] at h
          exact absurd h (State.cdsTurn_ne_refused _ r)
    all_goals simp [step, hturn, State.move] at h
  · rintro ⟨rfl, u, hturn, hclash⟩
    exact step_of_busClash hturn hclash

/-- Settles O9: what breaks the bus discipline, for each unit. -/
theorem sharedBusIsSerialised : Obligations.SharedBusIsSerialised := by
  intro s r
  have hunits : (∃ u, s.turn = .run u ∧ s.busClash u = true) ↔
      (s.turn = .run .msd ∧ s.busClash .msd = true) ∨ (s.turn = .run .cds ∧ s.busClash .cds = true) := by
    constructor
    · rintro ⟨_ | _, h⟩
      · exact .inl h
      · exact .inr h
    · rintro (h | h)
      · exact ⟨_, h⟩
      · exact ⟨_, h⟩
  rw [step_refused_iff, hunits, State.busClash_msd_iff, State.busClash_cds_iff]
  tauto

/-! ## One response, or still BUSY (R12, R56) -/

/-- A BUSY MSD that makes a move keeps its port's packets, and is still BUSY or has one response more. -/
theorem Msd.Move.of_busy {m m' : Msd} (hmove : m.Move m') {i : Instr} (hphase : m.ctl.phase = .busy i) :
    (∃ more, m'.ctl.port = m.ctl.port ++ more) ∧
      ((m'.ctl.phase = .busy i ∧ m'.ctl.responses = m.ctl.responses) ∨
        (m'.ctl.phase = .idle ∧ ∃ r, m'.ctl.responses = m.ctl.responses ++ [r])) := by
  cases hmove with
  | stay => exact ⟨⟨[], (List.append_nil _).symm⟩, .inl ⟨hphase, rfl⟩⟩
  | boot h => simp [hphase] at h
  | refuse h => simp [hphase] at h
  | start _ _ h => simp [hphase] at h
  | present packet => exact ⟨⟨[packet], rfl⟩, .inl ⟨hphase, rfl⟩⟩
  | answer r => exact ⟨⟨[], (List.append_nil _).symm⟩, .inl ⟨hphase, rfl⟩⟩
  | resume i' h =>
    obtain ⟨-, -, hport, -⟩ := m.resumeTurn_frame i'
    refine ⟨⟨[], hport.trans (List.append_nil _).symm⟩, ?_⟩
    unfold Msd.resumeTurn
    split
    · exact .inl ⟨hphase, rfl⟩
    · rcases Msd.run_ends_or_waits _ _ m with ⟨hidle, -, hresponse⟩ | ⟨hsame, hresponses, -⟩
      · exact .inr ⟨hidle, hresponse⟩
      · exact .inl ⟨hsame.trans hphase, hresponses⟩

/-- A BUSY CDS that makes a move keeps its port's packets, and is still BUSY or has one response more. -/
theorem Cds.Move.of_busy {c c' : Cds} (hmove : c.Move c') {i : Instr} (hphase : c.ctl.phase = .busy i) :
    (∃ more, c'.ctl.port = c.ctl.port ++ more) ∧
      ((c'.ctl.phase = .busy i ∧ c'.ctl.responses = c.ctl.responses) ∨
        (c'.ctl.phase = .idle ∧ ∃ r, c'.ctl.responses = c.ctl.responses ++ [r])) := by
  cases hmove with
  | stay => exact ⟨⟨[], (List.append_nil _).symm⟩, .inl ⟨hphase, rfl⟩⟩
  | refuse h => simp [hphase] at h
  | start _ _ h => simp [hphase] at h
  | present packet => exact ⟨⟨[packet], rfl⟩, .inl ⟨hphase, rfl⟩⟩
  | acknowledge a => exact ⟨⟨[], (List.append_nil _).symm⟩, .inl ⟨hphase, rfl⟩⟩
  | delayAnswer => exact ⟨⟨[], (List.append_nil _).symm⟩, .inl ⟨hphase, rfl⟩⟩
  | resume i' h =>
    obtain ⟨-, hport, -⟩ := c.resumeTurn_frame i'
    refine ⟨⟨[], hport.trans (List.append_nil _).symm⟩, ?_⟩
    unfold Cds.resumeTurn
    split
    · exact .inl ⟨hphase, rfl⟩
    · rcases Cds.run_ends_or_waits _ c with ⟨hidle, -, hresponse⟩ | ⟨hsame, hresponses, -⟩
      · exact .inr ⟨hidle, hresponse⟩
      · exact .inl ⟨hsame.trans hphase, hresponses⟩

/-- Settles O7: a step without a reset makes a move of each unit. -/
theorem busyUnitAcceptsNoPacket : Obligations.BusyUnitAcceptsNoPacket := by
  intro s t i _ h
  refine ⟨fun hphase hturn => ?_, fun hphase hturn => ?_⟩
  · rcases step_msd_move h with ⟨hreset, -⟩ | hmove
    · exact absurd hreset hturn
    · exact hmove.of_busy hphase
  · rcases step_cds_move h with ⟨hreset, -⟩ | hmove
    · exact absurd hreset hturn
    · exact hmove.of_busy hphase

/-- Settles O11: a command refused has its response, and a command started runs to its end or waits. -/
theorem oneResponseOrStillBusy : Obligations.OneResponseOrStillBusy := by
  intro i s t h
  refine ⟨fun hi => ?_, fun hi => ?_⟩
  · rcases exec_msd_next hi h with ⟨c, -, rfl⟩ | rfl
    · exact ⟨rfl, Msd.run_ends_or_waits c.answer c.ops
        { s.msd with ctl := s.msd.ctl.accept i, regs := c.capture s.msd.regs }⟩
    · exact ⟨rfl, .inl ⟨rfl, rfl, _, rfl⟩⟩
  · rcases exec_cds_next hi h with ⟨k, -, rfl⟩ | rfl
    · refine ⟨rfl, ?_⟩
      rw [State.startCds_cds, Cds.start]
      cases k.badLine
      · exact Cds.run_ends_or_waits k.ops { s.cds with ctl := s.cds.ctl.accept i, regs := k.capture s.cds.regs }
      · exact Cds.run_ends_or_waits k.ops
          { s.cds with ctl := (s.cds.ctl.accept i).warnBadLine, regs := k.capture s.cds.regs }
    · exact ⟨rfl, .inl ⟨rfl, rfl, _, rfl⟩⟩

/-! # The units are independent (R124) -/

/-- A command of the CDS's depends on the CDS alone. -/
theorem exec_cds_congr {i : Instr} (hi : i.unit = .cds) {s t : State} (h : exec i s = .next t) (m : Msd) :
    exec i { s with msd := m } = .next { t with msd := m } := by
  obtain ⟨k, hk⟩ := exists_cdsCommand hi
  cases hwf : i.wf s.cds.params.maxText with
  | true =>
    rw [exec_eq_startCds i k s hk hwf] at h
    cases h
    exact exec_eq_startCds i k { s with msd := m } hk hwf
  | false =>
    rw [exec_eq_illegal hwf, hi] at h
    cases h
    rw [exec_eq_illegal (s := { s with msd := m }) hwf, hi]
    rfl

/-- Settles O54: a command is started or refused on its unit, whatever the other unit is. -/
theorem unitsAreIndependent : Obligations.UnitsAreIndependent := by
  intro i s t h
  refine ⟨fun hi => ?_, fun hi => ?_⟩
  · rcases exec_msd_cases i hi with ⟨c, -, hs⟩ | hs
    all_goals
      rw [hs s] at h
      cases h
      exact ⟨rfl, rfl, fun c => hs { s with cds := c }⟩
  · refine ⟨?_, ?_, exec_cds_congr hi h⟩
    all_goals rcases exec_cds_next hi h with ⟨k, -, rfl⟩ | rfl <;> rfl

end Sys2Proof.Machine

namespace Sys2Proof.Machine

/-! # How far a command of the MSD runs (R17, R116, R140)

Over answers `ok` a command reaches the micro-operation after them; what the next answer is, or that there is none left,
gives the completion, the abort and the wait. -/

/-- The registers after the micro-operations `ops` have read the bytes `bs` (R71). -/
def MsdRegs.latches : MsdRegs → List MsdMicro → List Byte → MsdRegs
  | r, op :: ops, b :: bs => (r.latch op b).latches ops bs
  | r, _, _ => r

theorem MsdRegs.latches_opa (ops : List MsdMicro) :
    ∀ (r : MsdRegs) (bs : List Byte), (r.latches ops bs).opa = r.opa := by
  induction ops with
  | nil => exact fun r bs => rfl
  | cons op ops ih =>
    intro r bs
    cases bs with
    | nil => rfl
    | cons b bs => exact (ih _ bs).trans (r.latch_opa op b)

/-- A run over answers that begin with as many `ok` as the first part of the list has micro-operations reaches the second
part, with the bytes read latched. -/
theorem Msd.run_append_latches (answer : MsdParams → MsdRegs → Bool × Payload) (ops' : List MsdMicro)
    (rs : List Reply) (ops : List MsdMicro) :
    ∀ (bs : List Byte) (m : Msd), ops.length = bs.length → m.replies = bs.map .ok ++ rs →
      Msd.run answer (ops ++ ops') m = Msd.run answer ops' { m with
        replies := rs
        regs := m.regs.latches ops bs
        ctl := { m.ctl with trace := m.ctl.trace ++ m.regs.eventsOf ops bs, upc := m.ctl.upc + bs.length } } := by
  induction ops with
  | nil =>
    intro bs m hlen hr
    obtain rfl : bs = [] := List.length_eq_zero_iff.1 hlen.symm
    obtain rfl : m.replies = rs := by simpa using hr
    simp [MsdRegs.eventsOf, MsdRegs.latches]
  | cons op ops ih =>
    intro bs m hlen hr
    cases bs with
    | nil => cases hlen
    | cons b bs =>
      rw [List.cons_append, Msd.run_done _ _ _ _ b (bs.map .ok ++ rs) hr,
        ih bs (m.done op b (bs.map Reply.ok ++ rs)).advance (Nat.succ_inj.1 hlen) rfl]
      simp [Msd.done, Msd.advance, Ctl.log, Ctl.advance, MsdRegs.eventsOf, MsdRegs.latches, Nat.add_assoc,
        Nat.add_comm 1]

/-- The MSD that was `m` and has done the first micro-operations of the command `i`, which read `bs`, with the answers `rs`
to come. -/
def Msd.reached (m : Msd) (i : Instr) (c : MsdCommand) (bs : List Byte) (rs : List Reply) : Msd :=
  { m with
    replies := rs
    regs := (c.capture m.regs).latches (c.ops.take bs.length) bs
    ctl := m.ctl.waitsAt i bs.length ((c.capture m.regs).eventsOf (c.ops.take bs.length) bs) m.ctl.flags Warn.none }

/-- A started command reaches the micro-operation after its answers `ok`. -/
theorem Msd.start_eq_run_reached {m : Msd} (i : Instr) {c : MsdCommand} {bs : List Byte} {rs : List Reply}
    (hr : m.replies = bs.map .ok ++ rs) (hlen : bs.length ≤ c.ops.length) :
    m.start i c = Msd.run c.answer (c.ops.drop bs.length) (m.reached i c bs rs) := by
  have hrun := Msd.run_append_latches c.answer (c.ops.drop bs.length) rs (c.ops.take bs.length) bs
    { m with ctl := m.ctl.accept i, regs := c.capture m.regs } (List.length_take_of_le hlen) hr
  rw [List.take_append_drop] at hrun
  rw [Msd.start, hrun]
  simp [Msd.reached, Ctl.waitsAt, Ctl.accept]

/-- A command with all its answers `ok` completes, without a warning where its answer has none (R70 (e)). -/
theorem exec_msd_completes {s : State} {i : Instr} {c : MsdCommand} (hc : msdCommand? i = some c)
    (hwf : i.wf s.cds.params.maxText = true) (bs : List Byte) {rs : List Reply}
    (hr : s.msd.replies = bs.map .ok ++ rs) (hlen : bs.length = c.ops.length) {unk : Bool} {p : Payload}
    (hanswer : c.answer s.msd.params ((c.capture s.msd.regs).latches c.ops bs) = (unk, p)) :
    exec i s = .next { s with msd := { s.msd with
      replies := rs
      regs := (c.capture s.msd.regs).latches c.ops bs
      ctl := s.msd.ctl.ended ((c.capture s.msd.regs).eventsOf c.ops bs)
        { s.msd.ctl.flags with unk := s.msd.ctl.flags.unk || unk } (if unk then 0x10 else 0x00) p } } := by
  rw [exec_eq_startMsd i c s hc hwf, State.startMsd, Msd.start_eq_run_reached i hr hlen.le, hlen, List.drop_length,
    Msd.run_nil]
  have hregs : (s.msd.reached i c bs rs).regs = (c.capture s.msd.regs).latches c.ops bs := by
    rw [Msd.reached, hlen, List.take_length]
  rw [hregs, show (s.msd.reached i c bs rs).params = s.msd.params from rfl, hanswer]
  cases unk
  · simp [Msd.finish, Msd.reached, Ctl.respond, Ctl.waitsAt, Ctl.ended, completionByte, Code.bits, Warn.none, flagBit,
      hlen]
  · simp [Msd.finish, Msd.reached, Ctl.respond, Ctl.waitsAt, Ctl.ended, completionByte, Code.bits, Warn.none, flagBit,
      Ctl.warnUnkCfg, hlen]

/-- A command whose answer has no warning leaves the flags as they were. -/
theorem exec_msd_completes_ok {s : State} {i : Instr} {c : MsdCommand} (hc : msdCommand? i = some c)
    (hwf : i.wf s.cds.params.maxText = true) (bs : List Byte) {rs : List Reply}
    (hr : s.msd.replies = bs.map .ok ++ rs) (hlen : bs.length = c.ops.length) {p : Payload}
    (hanswer : c.answer s.msd.params ((c.capture s.msd.regs).latches c.ops bs) = (false, p)) :
    exec i s = .next { s with msd := { s.msd with
      replies := rs
      regs := (c.capture s.msd.regs).latches c.ops bs
      ctl := s.msd.ctl.ended ((c.capture s.msd.regs).eventsOf c.ops bs) s.msd.ctl.flags 0x00 p } } := by
  rw [exec_msd_completes hc hwf bs hr hlen hanswer, Bool.or_false]
  rfl

/-! ## The completions of the MSD's commands -/

/-- Settles O27: one write, answered. -/
theorem wakeCompletes : Obligations.WakeCompletes := fun _ b _ h =>
  exec_msd_completes_ok (i := .wake) rfl rfl [b] h rfl rfl

/-- Settles O28: the payload is the two bytes as read. -/
theorem readWordCompletes : Obligations.ReadWordCompletes := fun s a h l rs ha hr =>
  exec_msd_completes_ok (i := .readWord a) rfl (by simpa [Instr.wf] using ha) [h, l] hr rfl
    (congrArg (fun bs => (false, Payload.bytes bs)) (bytesOfS16_s16_asm16 h l))

/-- Settles O29: one read, answered, and the byte is the payload. -/
theorem readRawRangesComplete : Obligations.ReadRawRangesComplete := fun _ b _ h =>
  ⟨exec_msd_completes_ok (i := .readRawAccelRange) rfl rfl [b] h rfl rfl,
    exec_msd_completes_ok (i := .readRawGyroRange) rfl rfl [b] h rfl rfl⟩

/-- Settles O30: two writes, answered. -/
theorem setRangesComplete : Obligations.SetRangesComplete := fun _ a b b' _ h =>
  ⟨exec_msd_completes_ok (i := .setAccelRange a) rfl rfl [b, b'] h rfl rfl,
    exec_msd_completes_ok (i := .setGyroRange a) rfl rfl [b, b'] h rfl rfl⟩

/-- The two's complement of a range: the sentinel -1 is FF FF, and any other range its two bytes (R56). -/
theorem bytesOfS16_of_range {v : Int} (h : v = -1 ∨ 0 ≤ v) :
    bytesOfS16 v = if v = -1 then [0xFF, 0xFF] else twoBytes v.toNat := by
  rcases h with rfl | h
  · decide
  · obtain ⟨n, rfl⟩ := Int.eq_ofNat_of_zero_le h
    have hne : (n : Int) ≠ -1 := by omega
    rw [if_neg hne, Int.toNat_natCast, ← bytesOfU16_eq_twoBytes, bytesOfS16, bytesOfU16]
    congr 1

theorem accelRange_range (raw : Byte) : accelRange raw = -1 ∨ 0 ≤ accelRange raw := by
  unfold accelRange
  split_ifs <;> decide

theorem gyroRange_range (raw : Byte) : gyroRange raw = -1 ∨ 0 ≤ gyroRange raw := by
  unfold gyroRange
  split_ifs <;> decide

/-- Settles O31: no answer is used, and the payload is the range in two bytes. -/
theorem decodeRangesComplete : Obligations.DecodeRangesComplete := by
  intro s a
  constructor
  · exact exec_msd_completes_ok (i := .decodeAccelRange a) rfl rfl [] rfl rfl
      (congrArg (fun bs => (false, Payload.bytes bs)) (bytesOfS16_of_range (accelRange_range a)))
  · exact exec_msd_completes_ok (i := .decodeGyroRange a) rfl rfl [] rfl rfl
      (congrArg (fun bs => (false, Payload.bytes bs)) (bytesOfS16_of_range (gyroRange_range a)))

/-- Settles O32: two reads, answered, and the temperature of the word is the payload. -/
theorem readTempCompletes : Obligations.ReadTempCompletes := fun _ h l _ hr =>
  exec_msd_completes_ok (i := .readTemp) rfl rfl [h, l] hr rfl rfl

/-- Settles O33: the flag `inGravityUnits` is bit 0 of a legal flags byte, and the rest is the command's answer. -/
theorem getAccelDataCompletes : Obligations.GetAccelDataCompletes := by
  intro s a xh xl yh yl zh zl r rs ha hr
  have hwf : (Instr.getAccelData a).wf s.cds.params.maxText = true := by
    rcases ha with rfl | rfl <;> rfl
  have hflag : a.getLsbD 0 = (a == 0x01) := by
    rcases ha with rfl | rfl <;> rfl
  rw [← hflag]
  exact exec_msd_completes rfl hwf [xh, xl, yh, yl, zh, zl, r] hr rfl rfl

/-- Settles O34: the seven reads, answered, and the command's answer. -/
theorem getGyroDataCompletes : Obligations.GetGyroDataCompletes := fun _ xh xl yh yl zh zl r _ hr =>
  exec_msd_completes (i := .getGyroData) rfl rfl [xh, xl, yh, yl, zh, zl, r] hr rfl rfl

/-! ## The abort and the wait of an MSD command -/

/-- Settles O42: the command reaches the failing micro-operation and aborts there. -/
theorem msdCommandAbortsAtTheFirstError : Obligations.MsdCommandAbortsAtTheFirstError := by
  intro s i c bs op rs hc hwf hop hr
  obtain ⟨hlt, rfl⟩ := List.getElem?_eq_some_iff.1 hop
  refine ⟨_, exec_eq_startMsd i c s hc hwf, rfl, rfl, ?_⟩
  rw [State.startMsd_msd, Msd.start_eq_run_reached i hr hlt.le, List.drop_eq_getElem_cons hlt,
    Msd.run_failed _ _ _ _ rs rfl]
  refine ⟨rfl, rfl, rfl, ?_⟩
  have hevent : (s.msd.reached i c bs (.error :: rs)).regs.errEvent = (c.capture s.msd.regs).errEvent :=
    MsdRegs.errEvent_congr _ _ (MsdRegs.latches_opa _ _ _)
  rw [Msd.abort_ctl, Msd.failed_ctl, hevent, Ctl.abort, bytesOfU16_eq_twoBytes]
  simp [Msd.reached, Ctl.respond, Ctl.waitsAt, Ctl.ended, Ctl.log, completionByte, Code.bits, Warn.none, flagBit]

/-- Settles O44: the command reaches the micro-operation without an answer and stays there. -/
theorem msdCommandWaitsForAMissingAnswer : Obligations.MsdCommandWaitsForAMissingAnswer := by
  intro s i c bs hc hwf hlt hr
  refine ⟨_, exec_eq_startMsd i c s hc hwf, rfl, rfl, ?_⟩
  rw [State.startMsd_msd, Msd.start_eq_run_reached (rs := []) i (hr.trans (List.append_nil _).symm) hlt.le,
    List.drop_eq_getElem_cons hlt, Msd.run_waiting _ _ _ _ rfl]
  exact ⟨rfl, rfl, rfl, rfl⟩

end Sys2Proof.Machine

namespace Sys2Proof.Machine

/-! # How far a command of the CDS runs (R17, R116, R120, R140)

As for the MSD, with one answer of the transport a write and one of the delay primitive a delay. -/

/-! ## The writes and delays before a place -/

/-- Before the place `m` of an alternating list stand `(m + 1) / 2` writes and `m / 2` delays. -/
theorem writesIn_delaysIn_take_writeOps (ws : List (List CdsLoad × Form)) :
    ∀ m, m ≤ (writeOps ws).length →
      writesIn ((writeOps ws).take m) = (m + 1) / 2 ∧ delaysIn ((writeOps ws).take m) = m / 2 := by
  induction ws with
  | nil =>
    intro m hm
    obtain rfl : m = 0 := Nat.le_zero.1 hm
    exact ⟨rfl, rfl⟩
  | cons w ws ih =>
    intro m hm
    rw [writeOps_cons] at hm ⊢
    match m, hm with
    | 0, _ => exact ⟨rfl, rfl⟩
    | 1, _ => exact ⟨rfl, rfl⟩
    | m + 2, hm =>
      obtain ⟨hwrites, hdelays⟩ := ih m (by simpa using hm)
      simp only [writesIn, delaysIn] at hwrites hdelays
      simp [writesIn, delaysIn, hwrites, hdelays]
      omega

/-- Before the place `m` of a CDS command stand `(m + 1) / 2` writes and `m / 2` delays (R103 (a)). -/
theorem writesIn_delaysIn_take {i : Instr} {k : CdsCommand} (hk : cdsCommand? i = some k) {m : Nat}
    (hm : m ≤ k.ops.length) : writesIn (k.ops.take m) = (m + 1) / 2 ∧ delaysIn (k.ops.take m) = m / 2 := by
  obtain ⟨ws, hws⟩ := exists_writeOps hk
  rw [hws] at hm ⊢
  exact writesIn_delaysIn_take_writeOps ws m hm

/-! ## The events of a list of micro-operations -/

/-- The first events are those of the first micro-operations. -/
theorem CdsRegs.take_eventsOf (line1 : Byte) (r : CdsRegs) (ops : List CdsMicro) (m : Nat) :
    (r.eventsOf line1 ops).take m = r.eventsOf line1 (ops.take m) := by
  induction ops generalizing r m with
  | nil => cases m <;> rfl
  | cons op ops ih =>
    cases m with
    | zero => rfl
    | succ m => simp [CdsRegs.eventsOf, ih]

/-- The event of the write at a place, by the register NIB after the register transfers up to it. -/
theorem CdsRegs.getElem?_eventsOf_of_raw (line1 : Byte) (r : CdsRegs) {ops : List CdsMicro} {m : Nat}
    (hm : m < ops.length) {f : Form} (ho : ops[m].out = .raw f) : (r.eventsOf line1 ops)[m]? =
      some (.raw (f.byte ((r.after line1 (ops.take m)).loads line1 ops[m].loads).nib)) := by
  induction ops generalizing r m with
  | nil => cases hm
  | cons op ops ih =>
    cases m with
    | zero =>
      simp only [List.getElem_cons_zero] at ho
      simp [CdsRegs.eventsOf, CdsRegs.after, ho]
    | succ m =>
      simp only [List.getElem_cons_succ] at ho
      simp [CdsRegs.eventsOf, ih (r.loads line1 op.loads) (Nat.lt_of_succ_lt_succ hm) ho, CdsRegs.after,
        CdsRegs.loads_append]

theorem CdsRegs.count_dly_eventsOf (line1 : Byte) (ops : List CdsMicro) :
    ∀ r : CdsRegs, (r.eventsOf line1 ops).count .dly = delaysIn ops := by
  induction ops with
  | nil => exact fun r => rfl
  | cons op ops ih =>
    intro r
    rw [CdsRegs.eventsOf, List.count_cons, ih]
    cases ho : op.out <;> simp [delaysIn, ho]

/-! ## A started command -/

/-- The flags when the command `i` has been accepted: an invalid line sets `BADLINE` (R112, log entry 20). -/
def Flags.accepted (f : Flags) (i : Instr) : Flags := { f with badline := f.badline || hasBadLine i }

theorem Flags.accepted_of_not_hasBadLine (f : Flags) {i : Instr} (h : hasBadLine i = false) : f.accepted i = f := by
  rw [Flags.accepted, h, Bool.or_false]

/-- The CDS that was `c` and has done the first `m` micro-operations of the command `i`, with the answers `as` and `d`
to come. -/
def Cds.reached (c : Cds) (i : Instr) (k : CdsCommand) (m : Nat) (as : List Ack) (d : Nat) : Cds :=
  { c with
    regs := (k.capture c.regs).after c.params.line1Addr (k.ops.take m)
    acks := as
    delays := d
    ctl := c.ctl.waitsAt i m (((k.capture c.regs).eventsOf c.params.line1Addr k.ops).take m) (c.ctl.flags.accepted i)
      { unkCfg := false, badLine := hasBadLine i } }

/-- A started command reaches the micro-operation after its answers. -/
theorem Cds.start_eq_run_reached {c : Cds} {i : Instr} {k : CdsCommand} (hk : cdsCommand? i = some k) {m : Nat}
    {as : List Ack} {d : Nat} (hm : m ≤ k.ops.length) (ha : c.acks = List.replicate ((m + 1) / 2) .ok ++ as)
    (hd : c.delays = m / 2 + d) : c.start i k = Cds.run (k.ops.drop m) (c.reached i k m as d) := by
  obtain ⟨hwrites, hdelays⟩ := writesIn_delaysIn_take hk hm
  have hrun := Cds.run_append_of_ok (k.ops.take m) (k.ops.drop m)
    { c with
      ctl := if k.badLine then (c.ctl.accept i).warnBadLine else c.ctl.accept i
      regs := k.capture c.regs } as d (hwrites ▸ ha) (hdelays ▸ hd)
  rw [List.take_append_drop] at hrun
  rw [Cds.start, hrun, badLine_eq_hasBadLine i k hk, List.length_take_of_le hm]
  cases hbad : hasBadLine i <;>
    simp [Cds.reached, Ctl.waitsAt, Ctl.accept, Ctl.warnBadLine, Warn.none, Flags.accepted, hbad,
      CdsRegs.take_eventsOf]

/-- The state in which a CDS command with all its answers leaves the CDS. -/
def Cds.completed (c : Cds) (i : Instr) (k : CdsCommand) (as : List Ack) (d : Nat) : Cds :=
  { c with
    regs := (k.capture c.regs).after c.params.line1Addr k.ops
    acks := as
    delays := d
    ctl := c.ctl.ended ((k.capture c.regs).eventsOf c.params.line1Addr k.ops) (c.ctl.flags.accepted i)
      (if hasBadLine i then 0x20 else 0x00) (.bytes []) }

/-- A command with all its answers completes (R95 (f)). -/
theorem exec_cds_completes {s : State} {i : Instr} {k : CdsCommand} (hk : cdsCommand? i = some k)
    (hwf : i.wf s.cds.params.maxText = true) {n : Nat} (hn : k.ops.length = 2 * n) {as : List Ack} {d : Nat}
    (ha : s.cds.acks = List.replicate n .ok ++ as) (hd : s.cds.delays = n + d) :
    exec i s = .next { s with cds := s.cds.completed i k as d } := by
  have hwrites : (k.ops.length + 1) / 2 = n := by omega
  have hdelays : k.ops.length / 2 = n := by omega
  have hresponse : completionByte .ok { unkCfg := false, badLine := hasBadLine i } =
      if hasBadLine i then 0x20 else 0x00 := by
    cases hasBadLine i <;> rfl
  have hevents : ((k.capture s.cds.regs).eventsOf s.cds.params.line1Addr k.ops).take k.ops.length =
      (k.capture s.cds.regs).eventsOf s.cds.params.line1Addr k.ops :=
    List.take_of_length_le (CdsRegs.length_eventsOf _ _ _).le
  rw [exec_eq_startCds i k s hk hwf, State.startCds,
    Cds.start_eq_run_reached hk le_rfl (hwrites ▸ ha) (hdelays ▸ hd), List.drop_length, Cds.run_nil]
  simp [Cds.finish, Cds.reached, Cds.completed, Ctl.respond, Ctl.waitsAt, Ctl.ended, hresponse, hevents]

/-- The completion of a command that is no WRITE_STRING with an invalid line, with its registers and events written
out. -/
theorem exec_cds_completes_ok {s : State} {i : Instr} {k : CdsCommand} (hk : cdsCommand? i = some k)
    (hwf : i.wf s.cds.params.maxText = true) (hbad : hasBadLine i = false) {n : Nat} (hn : k.ops.length = 2 * n)
    {as : List Ack} {d : Nat} (ha : s.cds.acks = List.replicate n .ok ++ as) (hd : s.cds.delays = n + d)
    {r : CdsRegs} (hregs : (k.capture s.cds.regs).after s.cds.params.line1Addr k.ops = r)
    {es : List Event} (hevents : (k.capture s.cds.regs).eventsOf s.cds.params.line1Addr k.ops = es) :
    exec i s = .next { s with cds := { s.cds with
      acks := as, delays := d, regs := r
      ctl := s.cds.ctl.ended es s.cds.ctl.flags 0x00 (.bytes []) } } := by
  rw [exec_cds_completes hk hwf hn ha hd, Cds.completed, hregs, hevents, Flags.accepted_of_not_hasBadLine _ hbad, hbad]
  rfl

/-! ## The completions of the CDS's commands -/

/-- Settles O35: the forms written, with the two flags of the high form as one constant. -/
theorem strobeCompletes : Obligations.StrobeCompletes := by
  intro s a as d ha hd
  refine exec_cds_completes_ok (i := .strobe a) rfl rfl rfl rfl ha hd rfl ?_
  rw [← Form.byte_high_eq_or]
  rfl

/-- Settles O36: as STROBE, after the settle write. -/
theorem write4BitsCompletes : Obligations.Write4BitsCompletes := by
  intro s a as d ha hd
  refine exec_cds_completes_ok (i := .write4Bits a) rfl rfl rfl rfl ha hd rfl ?_
  rw [← Form.byte_high_eq_or]
  rfl

/-- Settles O37: the events of one `sendByte`. -/
theorem sendByteCompletes : Obligations.SendByteCompletes := fun _ a b _ _ ha hd =>
  exec_cds_completes_ok (i := .sendByte a b) rfl rfl rfl rfl ha hd rfl (CdsRegs.eventsOf_sendByteOps _ _ _)

/-- Settles O39: the events of one `sendByte` after the other. -/
theorem clearCompletes : Obligations.ClearCompletes := by
  intro s as d ha hd
  have hnib : (0x20 : Byte) = lowNibble returnHome modeCommand := by decide
  rw [hnib]
  refine exec_cds_completes_ok (i := .clear) rfl rfl rfl rfl ha hd rfl ?_
  rw [clearCommand, CdsRegs.eventsOf_append, CdsRegs.eventsOf_sendByteOps, CdsRegs.eventsOf_sendByteOps]
  rfl

/-! ### WRITE_STRING -/

/-- The micro-operations that send the bytes of `TXT` at the places `ns` (R100). -/
def textOps (ns : List Nat) : List CdsMicro := ns.flatMap fun n => sendByteOps (.textByte n)

theorem CdsRegs.after_append (line1 : Byte) (r : CdsRegs) (ops ops' : List CdsMicro) :
    r.after line1 (ops ++ ops') = (r.after line1 ops).after line1 ops' := by
  rw [CdsRegs.after, CdsRegs.after, CdsRegs.after, List.flatMap_append, CdsRegs.loads_append]

/-- The registers after one `sendByte`: the low half was the last (R99). -/
theorem CdsRegs.after_sendByteOps (line1 : Byte) (r : CdsRegs) (src : CdsLoad) :
    r.after line1 (sendByteOps src) = { r.load line1 src with
      half := 1, nib := lowNibble (r.load line1 src).cmd (r.load line1 src).mode } := rfl

/-- The text bytes are sent as data, in the order of their places. -/
theorem CdsRegs.eventsOf_textOps (line1 : Byte) (ns : List Nat) : ∀ r : CdsRegs,
    r.eventsOf line1 (textOps ns) = ns.flatMap fun n => sendByteEvents (r.txt.getD n 0x00) 0x01 := by
  induction ns with
  | nil => exact fun r => rfl
  | cons n ns ih =>
    intro r
    rw [textOps, List.flatMap_cons, CdsRegs.eventsOf_append, CdsRegs.eventsOf_sendByteOps]
    exact congrArg _ (ih _)

/-- The registers after the last byte of a list of `sendByte`: CMD and MODE hold that byte and its mode, HALF and NIB its
low half. -/
structure CdsRegs.Sent (r : CdsRegs) (b m : Byte) : Prop where
  cmd : r.cmd = b
  mode : r.mode = m
  half : r.half = 1
  nib : r.nib = lowNibble b m

theorem CdsRegs.sent_after_sendByteOps (line1 : Byte) (r : CdsRegs) (src : CdsLoad) :
    (r.after line1 (sendByteOps src)).Sent (r.load line1 src).cmd (r.load line1 src).mode :=
  ⟨rfl, rfl, rfl, rfl⟩

theorem CdsRegs.sent_after_textOps (line1 : Byte) (ns : List Nat) :
    ∀ (r : CdsRegs) (cmd mode : Byte), r.Sent cmd mode →
      (r.after line1 (textOps ns)).Sent ((ns.map fun n => r.txt.getD n 0x00).getLastD cmd)
        (if ns = [] then mode else 0x01) := by
  induction ns with
  | nil => exact fun r cmd mode h => h
  | cons n ns ih =>
    intro r cmd mode _
    have hsent := ih (r.after line1 (sendByteOps (.textByte n))) _ _ (r.sent_after_sendByteOps line1 (.textByte n))
    rw [textOps, List.flatMap_cons, CdsRegs.after_append, List.map_cons, List.getLastD_cons]
    split at hsent <;> exact hsent

theorem CdsRegs.after_regs (line1 : Byte) (r : CdsRegs) (ops : List CdsMicro) :
    (r.after line1 ops).line = r.line ∧ (r.after line1 ops).len = r.len ∧ (r.after line1 ops).txt = r.txt := by
  simp [CdsRegs.after]

/-- The places of a text at the front of `TXT` read as its bytes. -/
theorem map_getD_range_append (text rest : List Byte) :
    (List.range text.length).map (fun n => (text ++ rest).getD n 0x00) = text := by
  apply List.ext_getElem
  · simp
  · intro n h h'
    simp [List.getD_eq_getElem?_getD, List.getElem?_append_left h', List.getElem?_eq_getElem h']

theorem writeStringCommand_ops (line : Byte) (text : List Byte) :
    (writeStringCommand line text).ops = sendByteOps .lineAddress ++ textOps (List.range text.length) := rfl

/-- The events of WRITE_STRING: the address as a command, then the text as data (R100). -/
theorem CdsRegs.eventsOf_writeString (line1 line : Byte) (text : List Byte) (r : CdsRegs) :
    (captureString line text r).eventsOf line1 (writeStringCommand line text).ops =
      sendByteEvents (lineAddr line1 line).1 0x00 ++ text.flatMap fun b => sendByteEvents b 0x01 := by
  rw [writeStringCommand_ops, CdsRegs.eventsOf_append, CdsRegs.eventsOf_sendByteOps, CdsRegs.eventsOf_textOps]
  congr 1
  have htxt : ((captureString line text r).after line1 (sendByteOps .lineAddress)).txt =
      text ++ r.txt.drop text.length := rfl
  rw [htxt]
  conv_rhs => rw [← map_getD_range_append text (r.txt.drop text.length), List.flatMap_map]

/-- The registers after WRITE_STRING hold the byte sent last. -/
theorem CdsRegs.sent_after_writeString (line1 line : Byte) (text : List Byte) (r : CdsRegs) :
    ((captureString line text r).after line1 (writeStringCommand line text).ops).Sent
      (text.getLastD (lineAddr line1 line).1) (if text = [] then 0x00 else 0x01) := by
  have hsent := CdsRegs.sent_after_textOps line1 (List.range text.length) _ _ _
    ((captureString line text r).sent_after_sendByteOps line1 .lineAddress)
  have htxt : ((captureString line text r).after line1 (sendByteOps .lineAddress)).txt =
      text ++ r.txt.drop text.length := rfl
  rw [← CdsRegs.after_append, ← writeStringCommand_ops, htxt, map_getD_range_append] at hsent
  simp only [List.range_eq_nil, List.length_eq_zero_iff] at hsent
  exact hsent

/-- Settles O38: the events and the registers of WRITE_STRING when its command completes. -/
theorem writeStringCompletes : Obligations.WriteStringCompletes := by
  intro s line text as d hmax hbyte ha hd
  have hwf : (Instr.writeString line text).wf s.cds.params.maxText = true := by simp [Instr.wf, hmax, hbyte]
  have hn : (writeStringCommand line text).ops.length = 2 * (6 * (1 + text.length)) := by
    rw [length_writeString_ops]
    omega
  have hlen : (BitVec.ofNat 8 text.length).toNat = text.length := by
    rw [BitVec.toNat_ofNat]
    omega
  have hevents := CdsRegs.eventsOf_writeString s.cds.params.line1Addr line text s.cds.regs
  obtain ⟨hcmd, hmode, hhalf, hnib⟩ :=
    CdsRegs.sent_after_writeString s.cds.params.line1Addr line text s.cds.regs
  obtain ⟨hline, hlenreg, htxt⟩ := CdsRegs.after_regs s.cds.params.line1Addr (captureString line text s.cds.regs)
    (writeStringCommand line text).ops
  refine ⟨_, exec_cds_completes rfl hwf hn ha hd, rfl, rfl, rfl, rfl, rfl, hline, ?_, htxt, hcmd, hmode, hhalf, ?_, ?_⟩
  · exact (congrArg BitVec.toNat hlenreg).trans hlen
  · exact hnib.trans (congrArg₂ lowNibble hcmd.symm hmode.symm)
  · rw [← hevents]
    rfl

/-! ## The abort and the wait of a CDS command -/

/-- Settles O43: the command reaches the failing write and aborts there. -/
theorem cdsCommandAbortsAtTheFirstError : Obligations.CdsCommandAbortsAtTheFirstError := by
  intro s i k n v as d hk hwf hv ha hd
  have hlt : 2 * n < k.ops.length := by
    rw [← CdsRegs.length_eventsOf s.cds.params.line1Addr k.ops (k.capture s.cds.regs)]
    exact (List.getElem?_eq_some_iff.1 hv).1
  have hwrites : (2 * n + 1) / 2 = n := by omega
  have hdelays : 2 * n / 2 = n := by omega
  obtain ⟨f, ho⟩ := exists_out_eq_raw hk (List.getElem?_eq_getElem hlt) (Nat.mul_mod_right 2 n)
  rw [CdsRegs.getElem?_eventsOf_of_raw _ _ hlt ho] at hv
  cases hv
  refine ⟨_, exec_eq_startCds i k s hk hwf, rfl, rfl, ?_⟩
  rw [State.startCds_cds, Cds.start_eq_run_reached hk hlt.le (hwrites ▸ ha) (hdelays ▸ hd),
    List.drop_eq_getElem_cons hlt, Cds.run_failed _ _ _ f as ho rfl]
  refine ⟨rfl, rfl, rfl, ?_⟩
  have hresponse : completionByte .transportError { unkCfg := false, badLine := hasBadLine i } =
      if hasBadLine i then 0x21 else 0x01 := by
    cases hasBadLine i <;> rfl
  rw [Cds.abort_ctl, Cds.failed_ctl, Ctl.abort, bytesOfU16_eq_twoBytes]
  simp [Cds.reached, Ctl.respond, Ctl.waitsAt, Ctl.ended, Ctl.log, hresponse, Flags.accepted]

/-- Settles O45: the command reaches the write or delay without an answer, and stays there. -/
theorem cdsCommandWaitsForAMissingAnswer : Obligations.CdsCommandWaitsForAMissingAnswer := by
  intro s i k n m as d hk hwf hlt hanswers
  refine ⟨_, exec_eq_startCds i k s hk hwf, rfl, rfl, ?_⟩
  rw [State.startCds_cds]
  rcases hanswers with ⟨rfl, ha, rfl, hd⟩ | ⟨rfl, ha, hd, rfl⟩
  · have hwrites : (2 * n + 1) / 2 = n := by omega
    have hdelays : 2 * n / 2 = n := by omega
    obtain ⟨f, ho⟩ := exists_out_eq_raw hk (List.getElem?_eq_getElem hlt) (Nat.mul_mod_right 2 n)
    rw [Cds.start_eq_run_reached (as := []) hk hlt.le (by rw [hwrites, List.append_nil, ha]) (hdelays ▸ hd),
      List.drop_eq_getElem_cons hlt, Cds.run_write_waiting _ _ _ f ho rfl]
    exact ⟨rfl, rfl, rfl, rfl⟩
  · have hwrites : (2 * n + 1 + 1) / 2 = n + 1 := by omega
    have hdelays : (2 * n + 1) / 2 = n := by omega
    have ho := (out_eq_delay_iff hk (List.getElem?_eq_getElem hlt)).2 (Nat.mul_add_mod 2 n 1)
    rw [Cds.start_eq_run_reached (d := 0) hk hlt.le (hwrites ▸ ha) (by rw [hdelays, Nat.add_zero, hd]),
      List.drop_eq_getElem_cons hlt, Cds.run_delay_waiting _ _ _ ho rfl]
    exact ⟨rfl, rfl, rfl, rfl⟩

/-! ## What the trace of a completed command says -/

/-- Settles O58: a completed command adds its events, which have a `DLY` for each of its delays. -/
theorem delaysTakeAtLeastTheirTime : Obligations.DelaysTakeAtLeastTheirTime := by
  intro s t i k n as d hk hwf hn ha hd h
  rw [exec_cds_completes hk hwf hn ha hd] at h
  cases h
  have hdelays : delaysIn k.ops = n := by
    obtain ⟨-, htake⟩ := writesIn_delaysIn_take hk le_rfl
    rw [List.take_length] at htake
    omega
  refine ⟨?_, ?_⟩
  · simp only [Cds.completed, Ctl.ended, minDelayMs, List.count_append, CdsRegs.count_dly_eventsOf, hdelays]
    push_cast
    ring
  · obtain ⟨-, hcounts, -⟩ := microOperationCounts
    have hcount := hcounts i k hk
    rw [hn] at hcount
    cases i <;> cases hk
    all_goals
      dsimp only at hcount ⊢
      omega

/-- With a mode whose high bits are clear, the two settle writes give the byte back (R103 (d)). -/
theorem byte_of_settle_writes (cmd : Byte) {mode : Byte} (hmode : mode &&& 0xF0 = 0x00) :
    cmd = (Form.settle.byte (highNibble cmd mode) &&& (0xF0 : Byte)) ||| (Form.settle.byte (lowNibble cmd mode) >>> 4) := by
  have hmode_high : ∀ k < 4, mode.getLsbD (k + 4) = false := by
    intro k hk
    have hbit : (mode &&& 0xF0).getLsbD (k + 4) = (0x00 : Byte).getLsbD (k + 4) := by rw [hmode]
    rw [BitVec.getLsbD_and, highNibbleMask_getLsbD_high k hk, Bool.and_true] at hbit
    exact hbit.trans BitVec.getLsbD_zero
  refine BitVec.eq_of_getLsbD_eq fun k hk => ?_
  rw [BitVec.getLsbD_or, BitVec.getLsbD_and, BitVec.getLsbD_ushiftRight]
  rcases Nat.lt_or_ge k 4 with hlow | hhigh
  · rw [highNibbleMask_getLsbD_low k hlow, Bool.and_false, Bool.false_or, Nat.add_comm,
      Form.byte_getLsbD_of_ne _ _ (by omega) (by omega) (by omega), lowNibble_getLsbD_high _ _ hlow,
      hmode_high k hlow, Bool.or_false]
  · obtain ⟨j, rfl⟩ := Nat.exists_eq_add_of_le' hhigh
    have hj : j < 4 := by omega
    rw [highNibbleMask_getLsbD_high j hj, Form.byte_getLsbD_of_ne _ _ hk (by omega) (by omega),
      highNibble_getLsbD_high _ _ hj, hmode_high j hj,
      BitVec.getLsbD_of_ge (Form.settle.byte (lowNibble cmd mode)) (4 + (j + 4)) (by omega)]
    simp

/-- With bit 2 clear, the settle and low forms are equal (R96). -/
theorem Form.byte_low_eq_settle {n : Byte} (h : n.getLsbD 2 = false) : Form.low.byte n = Form.settle.byte n := by
  rw [Form.byte, Form.byte, and_not_enable_of_clear h]

/-- The forms keep bit 1, which a nibbleByte takes from the mode. -/
theorem Form.byte_bit_one (f : Form) {n mode : Byte} (hn : n.getLsbD 1 = mode.getLsbD 1)
    (hmode : mode = 0x00 ∨ mode = 0x01) : (f.byte n).getLsbD 1 = false := by
  rw [f.byte_getLsbD_of_ne n (by decide) (by decide) (by decide), hn]
  rcases hmode with rfl | rfl <;> rfl

/-- Settles O59: the six writes are the three forms of the two nibbleBytes. -/
theorem sentByteIsRecoveredFromItsTrace : Obligations.SentByteIsRecoveredFromItsTrace := by
  intro s cmd mode as d ha hd
  have hhigh1 := highNibble_getLsbD_low cmd mode (k := 1) (by decide)
  have hlow1 := lowNibble_getLsbD_low cmd mode (k := 1) (by decide)
  refine ⟨_, Form.settle.byte (highNibble cmd mode), Form.high.byte (highNibble cmd mode),
    Form.low.byte (highNibble cmd mode), Form.settle.byte (lowNibble cmd mode), Form.high.byte (lowNibble cmd mode),
    Form.low.byte (lowNibble cmd mode), sendByteCompletes s cmd mode as d ha hd, ?_, fun hmode => ?_,
    byte_of_settle_writes cmd, fun hmode => ?_⟩
  · rw [Form.byte_high_eq_or, Form.byte_high_eq_or]
    rfl
  · have hhigh : (highNibble cmd mode).getLsbD 2 = false := by
      rw [highNibble_getLsbD_low cmd mode (by decide), hmode]
    have hlow : (lowNibble cmd mode).getLsbD 2 = false := by
      rw [lowNibble_getLsbD_low cmd mode (by decide), hmode]
    exact ⟨Form.byte_low_eq_settle hhigh, Form.byte_high_eq_settle_or_enable _, Form.byte_low_eq_settle hlow,
      Form.byte_high_eq_settle_or_enable _⟩
  · simp only [List.mem_cons, List.not_mem_nil, or_false, forall_eq_or_imp, forall_eq]
    exact ⟨Form.byte_bit_one _ hhigh1 hmode, Form.byte_bit_one _ hhigh1 hmode, Form.byte_bit_one _ hhigh1 hmode,
      Form.byte_bit_one _ hlow1 hmode, Form.byte_bit_one _ hlow1 hmode, Form.byte_bit_one _ hlow1 hmode⟩

end Sys2Proof.Machine

namespace Sys2Proof.Machine

/-! # Late answers (R43, R47, R120) -/

/-- The MSD with more answers behind those it has. -/
def Msd.moreReplies (m : Msd) (rs : List Reply) : Msd := { m with replies := m.replies ++ rs }

/-- The CDS with more answers behind those it has. -/
def Cds.moreAnswers (c : Cds) (as : List Ack) (d : Nat) : Cds := { c with acks := c.acks ++ as, delays := c.delays + d }

/-- A run that waits goes on with later answers to where the run with all the answers goes. -/
theorem Msd.run_moreReplies (answer : MsdParams → MsdRegs → Bool × Payload) (all : List MsdMicro) (rs' : List Reply)
    (ops : List MsdMicro) : ∀ m : Msd, all.drop m.ctl.upc = ops → (Msd.run answer ops m).ctl.isBusy = true →
      Msd.run answer ops (m.moreReplies rs') =
        Msd.run answer (all.drop (Msd.run answer ops m).ctl.upc) ((Msd.run answer ops m).moreReplies rs') := by
  induction ops with
  | nil => intro m _ hbusy; cases hbusy
  | cons op ops ih =>
    intro m hdrop hbusy
    rcases hr : m.replies with _ | ⟨b | _, rs⟩
    · rw [Msd.run_waiting _ _ _ _ hr, hdrop]
    · have hnext : all.drop (m.done op b rs).advance.ctl.upc = ops := by
        have htail := congrArg List.tail hdrop
        rwa [List.tail_drop] at htail
      rw [Msd.run_done _ _ _ _ b rs hr] at hbusy ⊢
      rw [← ih _ hnext hbusy, Msd.run_done _ _ _ _ b (rs ++ rs') (by rw [Msd.moreReplies, hr]; rfl)]
      rfl
    · rw [Msd.run_failed _ _ _ _ rs hr] at hbusy
      cases hbusy

/-- Settles O56: the command waits with no answer left, and goes on where it waits. -/
theorem lateAnswersContinueAnMsdCommand : Obligations.LateAnswersContinueAnMsdCommand := by
  intro i c m rs rs' hc hbusy
  have hreplies : ({ m with replies := rs }.start i c).replies = [] := by
    rcases Msd.run_ends_or_waits c.answer c.ops
      { m with replies := rs, ctl := m.ctl.accept i, regs := c.capture m.regs } with ⟨hidle, -⟩ | ⟨-, -, hreplies⟩
    · exact absurd hidle ((Ctl.isBusy_iff _).1 hbusy)
    · exact hreplies
  have hmore : ({ m with replies := rs }.start i c).moreReplies rs' =
      { { m with replies := rs }.start i c with replies := rs' } := by
    rw [Msd.moreReplies, hreplies, List.nil_append]
  rw [← hmore, Msd.resumeTurn, hc]
  exact Msd.run_moreReplies c.answer c.ops rs' c.ops
    { m with replies := rs, ctl := m.ctl.accept i, regs := c.capture m.regs } rfl hbusy

/-- The register transfers of a micro-operation of a command, made again, change nothing (log entry 5). -/
theorem loads_idem_of_mem_ops {i : Instr} {k : CdsCommand} {op : CdsMicro} (hk : cdsCommand? i = some k)
    (hop : op ∈ k.ops) (line1 : Byte) (r : CdsRegs) :
    (r.loads line1 op.loads).loads line1 op.loads = r.loads line1 op.loads := by
  have hsendByte : ∀ src, op ∈ sendByteOps src →
      (r.loads line1 op.loads).loads line1 op.loads = r.loads line1 op.loads := by
    intro src hop
    rcases loads_of_mem_sendByteOps hop with h | h | h <;> rw [h]
    · rfl
    · cases src <;> rfl
    · rfl
  have hnone : (∀ l, ¬ l ∈ op.loads) → (r.loads line1 op.loads).loads line1 op.loads = r.loads line1 op.loads := by
    intro h
    rw [List.eq_nil_iff_forall_not_mem.2 h]
    rfl
  cases i with
  | strobe a => exact hnone fun l hl => loads_of_mem_ops hk hop hl
  | write4Bits a => exact hnone fun l hl => loads_of_mem_ops hk hop hl
  | sendByte a b =>
    cases hk
    exact hsendByte _ hop
  | writeString line text =>
    cases hk
    rcases List.mem_append.1 hop with hop | hop
    · exact hsendByte _ hop
    · obtain ⟨n, -, hop⟩ := List.mem_flatMap.1 hop
      exact hsendByte _ hop
  | clear =>
    cases hk
    rcases List.mem_append.1 hop with hop | hop
    all_goals exact hsendByte _ hop
  | _ => cases hk

/-- A run may start from a CDS whose first micro-operation is made ready already. -/
theorem Cds.run_prepare {op : CdsMicro} (ops : List CdsMicro) {c : Cds}
    (hidem : (c.prepare op).prepare op = c.prepare op) : Cds.run (op :: ops) (c.prepare op) = Cds.run (op :: ops) c := by
  rw [Cds.run, Cds.run, hidem]

/-- A run that waits goes on with later answers to where the run with all the answers goes. -/
theorem Cds.run_moreAnswers {i : Instr} {k : CdsCommand} (hk : cdsCommand? i = some k) (as' : List Ack) (d' : Nat)
    (ops : List CdsMicro) : ∀ c : Cds, k.ops.drop c.ctl.upc = ops → (Cds.run ops c).ctl.isBusy = true →
      Cds.run ops (c.moreAnswers as' d') =
        Cds.run (k.ops.drop (Cds.run ops c).ctl.upc) ((Cds.run ops c).moreAnswers as' d') := by
  induction ops with
  | nil => intro c _ hbusy; cases hbusy
  | cons op ops ih =>
    intro c hdrop hbusy
    have hop : op ∈ k.ops := List.mem_of_mem_drop (hdrop ▸ List.mem_cons_self)
    have hnext : k.ops.drop (c.ctl.upc + 1) = ops := by
      have htail := congrArg List.tail hdrop
      rwa [List.tail_drop] at htail
    have hwait : Cds.run (op :: ops) (c.moreAnswers as' d') =
        Cds.run (k.ops.drop (c.prepare op).ctl.upc) ((c.prepare op).moreAnswers as' d') := by
      rw [Cds.prepare_ctl, hdrop]
      refine (Cds.run_prepare ops (c := c.moreAnswers as' d') ?_).symm
      exact congrArg (fun r => { c.moreAnswers as' d' with regs := r }) (loads_idem_of_mem_ops hk hop _ _)
    rcases ho : op.out with f | _
    · rcases ha : c.acks with _ | ⟨_ | _, as⟩
      · rw [Cds.run_write_waiting _ _ _ f ho ha]
        exact hwait
      · rw [Cds.run_written _ _ _ f as ho ha] at hbusy ⊢
        rw [← ih _ hnext hbusy, Cds.run_written _ _ _ f (as ++ as') ho (by rw [Cds.moreAnswers, ha]; rfl)]
        rfl
      · rw [Cds.run_failed _ _ _ f as ho ha] at hbusy
        cases hbusy
    · rcases hd : c.delays with _ | n
      · rw [Cds.run_delay_waiting _ _ _ ho hd]
        exact hwait
      · rw [Cds.run_delayed _ _ _ n ho hd] at hbusy ⊢
        rw [← ih _ hnext hbusy,
          Cds.run_delayed _ _ _ (n + d') ho (by rw [Cds.moreAnswers, hd, Nat.add_right_comm])]
        rfl

/-- Settles O57: the command goes on where it waits. -/
theorem lateAnswersContinueACdsCommand : Obligations.LateAnswersContinueACdsCommand := by
  rintro i k c c' as as' d d' hk rfl hbusy
  have hupc : ∀ b : Bool, (if b then (c.ctl.accept i).warnBadLine else c.ctl.accept i).upc = 0 := by
    intro b
    cases b <;> rfl
  rw [Cds.resumeTurn, hk]
  exact Cds.run_moreAnswers hk as' d' k.ops
    { c with
      acks := as, delays := d
      ctl := if k.badLine then (c.ctl.accept i).warnBadLine else c.ctl.accept i
      regs := k.capture c.regs } (by rw [hupc]; rfl) hbusy

/-! # Old registers and flags do not matter (R15, R19, R23) -/

/-- What an MSD command answers depends on the registers it has captured and read alone (R15, R23). -/
theorem answer_capture_latches_congr {i : Instr} {c : MsdCommand} (hc : msdCommand? i = some c) (p : MsdParams)
    (r r' : MsdRegs) {bs : List Byte} (hlen : bs.length = c.ops.length) :
    c.answer p ((c.capture r).latches c.ops bs) = c.answer p ((c.capture r').latches c.ops bs) := by
  cases i <;> cases hc
  case wake | setAccelRange | setGyroRange | decodeAccelRange | decodeGyroRange => rfl
  case readRawAccelRange | readRawGyroRange =>
    obtain ⟨b, rfl⟩ := List.length_eq_one_iff.1 hlen
    rfl
  case readWord | readTemp =>
    obtain ⟨h, l, rfl⟩ := List.length_eq_two.1 hlen
    rfl
  case getAccelData | getGyroData =>
    match bs, hlen with
    | [_, _, _, _, _, _, _], _ => rfl

/-- What an MSD command does on its transport depends on the operand it has captured alone (R17). -/
theorem events_capture_congr {i : Instr} {c : MsdCommand} (hc : msdCommand? i = some c) (r r' : MsdRegs) :
    ∀ op ∈ c.ops, (c.capture r).okEvent op = (c.capture r').okEvent op ∧
      (c.capture r).errEvent op = (c.capture r').errEvent op := by
  cases i <;> cases hc
  case setAccelRange a | setGyroRange a | readWord a | getAccelData a | decodeAccelRange a | decodeGyroRange a =>
    intro op _
    exact ⟨congrFun (MsdRegs.okEvent_congr _ _ rfl) op, congrFun (MsdRegs.errEvent_congr _ _ rfl) op⟩
  case wake | readRawAccelRange | readRawGyroRange =>
    intro op hop
    obtain rfl := List.mem_singleton.1 hop
    exact ⟨rfl, rfl⟩
  case readTemp | getGyroData =>
    intro op hop
    simp only [readTempCommand, getGyroDataCommand, dataFetchOps, readWordOps, List.cons_append, List.nil_append,
      List.mem_cons, List.not_mem_nil, or_false] at hop
    rcases hop with rfl | rfl | rfl | rfl | rfl | rfl | rfl <;> exact ⟨rfl, rfl⟩

/-- The MSD with other working registers and sticky flags. -/
def Msd.refill (m : Msd) (r : MsdRegs) (f : Flags) : Msd := { m with regs := r, ctl := { m.ctl with flags := f } }

/-- The CDS with other working registers and sticky flags. -/
def Cds.refill (c : Cds) (r : CdsRegs) (f : Flags) : Cds := { c with regs := r, ctl := { c.ctl with flags := f } }

/-- Runs from MSDs that differ in registers and flags alone end alike, where the registers give the same events and the
same answer. -/
theorem Msd.run_forget_congr (answer : MsdParams → MsdRegs → Bool × Payload) (ops : List MsdMicro) :
    ∀ (m : Msd) (r : MsdRegs) (f : Flags),
      (∀ op ∈ ops, m.regs.okEvent op = r.okEvent op ∧ m.regs.errEvent op = r.errEvent op) →
      (∀ bs : List Byte, bs.length = ops.length →
        answer m.params (m.regs.latches ops bs) = answer m.params (r.latches ops bs)) →
      (Msd.run answer ops m).forget =
        (Msd.run answer ops (m.refill r f)).forget := by
  induction ops with
  | nil =>
    intro m r f _ hanswer
    have hend : answer m.params m.regs = answer m.params r := hanswer [] rfl
    have hend' : answer (m.refill r f).params (m.refill r f).regs = answer m.params r := rfl
    rw [Msd.run_nil, Msd.run_nil, hend', hend]
    rcases answer m.params r with ⟨_ | _, p⟩ <;> rfl
  | cons op ops ih =>
    intro m r f hevents hanswer
    obtain ⟨hok, herr⟩ := hevents op List.mem_cons_self
    rcases hr : m.replies with _ | ⟨b | _, rs⟩
    · rw [Msd.run_waiting _ _ _ m hr, Msd.run_waiting _ _ _ (m.refill r f) hr]
      rfl
    · rw [Msd.run_done _ _ _ m b rs hr, Msd.run_done _ _ _ (m.refill r f) b rs hr,
        ih _ (r.latch op b) f]
      · simp only [Msd.refill, Msd.done, Msd.advance, Ctl.log, Ctl.advance, congrFun hok b]
      · simpa using fun op' hop' => hevents op' (List.mem_cons_of_mem _ hop')
      · exact fun bs hlen => hanswer (b :: bs) (congrArg (· + 1) hlen)
    · rw [Msd.run_failed _ _ _ m rs hr, Msd.run_failed _ _ _ (m.refill r f) rs hr]
      simp only [Msd.refill, Msd.failed, Msd.abort, Msd.forget, Ctl.log, Ctl.abort, Ctl.respond, herr]

/-- An MSD that agrees with `m` but for registers and flags is `m` with its own. -/
theorem Msd.eq_of_forget_eq {m m' : Msd} (h : m.forget = m'.forget) :
    m' = m.refill m'.regs m'.ctl.flags := by
  simp only [Msd.forget, Msd.mk.injEq, Ctl.mk.injEq] at h
  obtain ⟨hparams, hboot, ⟨hphase, hupc, -, hwarn, htrace, hresponses, hport⟩, -, hreplies⟩ := h
  simp only [Msd.refill, hparams, hboot, hphase, hupc, hwarn, htrace, hresponses, hport, hreplies]

theorem Msd.start_forget_congr {m m' : Msd} (h : m.forget = m'.forget) {i : Instr} {c : MsdCommand}
    (hc : msdCommand? i = some c) : (m.start i c).forget = (m'.start i c).forget := by
  rw [Msd.eq_of_forget_eq h]
  exact Msd.run_forget_congr c.answer c.ops { m with ctl := m.ctl.accept i, regs := c.capture m.regs }
    (c.capture m'.regs) m'.ctl.flags (events_capture_congr hc _ _)
    (fun _ hlen => answer_capture_latches_congr hc _ _ _ hlen)

/-- What a CDS command writes depends on the operands it has captured and on `LINE1_ADDR` alone (R17). -/
theorem eventsOf_capture_congr {i : Instr} {k : CdsCommand} (hk : cdsCommand? i = some k) (line1 : Byte)
    (r r' : CdsRegs) : (k.capture r).eventsOf line1 k.ops = (k.capture r').eventsOf line1 k.ops := by
  cases i <;> cases hk
  case writeString line text =>
    exact (CdsRegs.eventsOf_writeString line1 line text r).trans
      (CdsRegs.eventsOf_writeString line1 line text r').symm
  all_goals rfl

/-- Runs from CDSs that differ in registers and flags alone end alike, where the registers give the same events. -/
theorem Cds.run_forget_congr (ops : List CdsMicro) : ∀ (c : Cds) (r : CdsRegs) (f : Flags),
    c.regs.eventsOf c.params.line1Addr ops = r.eventsOf c.params.line1Addr ops →
      (Cds.run ops c).forget = (Cds.run ops (c.refill r f)).forget := by
  induction ops with
  | nil => exact fun c r f _ => rfl
  | cons op ops ih =>
    intro c r f hevents
    obtain ⟨hevent, hrest⟩ := List.cons_eq_cons.1 hevents
    rcases ho : op.out with g | _
    · rw [ho] at hevent
      obtain hbyte := Event.raw.inj hevent
      rcases ha : c.acks with _ | ⟨_ | _, as⟩
      · rw [Cds.run_write_waiting _ _ c g ho ha, Cds.run_write_waiting _ _ (c.refill r f) g ho ha]
        rfl
      · rw [Cds.run_written _ _ c g as ho ha,
          Cds.run_written _ _ (c.refill r f) g as ho ha, ih _ _ f hrest]
        simp only [Cds.refill, Cds.prepare, Cds.written, Cds.advance, Ctl.log, Ctl.advance, hbyte]
      · rw [Cds.run_failed _ _ c g as ho ha,
          Cds.run_failed _ _ (c.refill r f) g as ho ha]
        simp only [Cds.refill, Cds.prepare, Cds.failed, Cds.abort, Cds.forget, Ctl.log, Ctl.abort, Ctl.respond, hbyte]
    · rcases hd : c.delays with _ | n
      · rw [Cds.run_delay_waiting _ _ c ho hd, Cds.run_delay_waiting _ _ (c.refill r f) ho hd]
        rfl
      · rw [Cds.run_delayed _ _ c n ho hd,
          Cds.run_delayed _ _ (c.refill r f) n ho hd, ih _ _ f hrest]
        rfl

/-- A CDS that agrees with `c` but for registers and flags is `c` with its own. -/
theorem Cds.eq_of_forget_eq {c c' : Cds} (h : c.forget = c'.forget) :
    c' = c.refill c'.regs c'.ctl.flags := by
  simp only [Cds.forget, Cds.mk.injEq, Ctl.mk.injEq] at h
  obtain ⟨hparams, ⟨hphase, hupc, -, hwarn, htrace, hresponses, hport⟩, -, hacks, hdelays⟩ := h
  simp only [Cds.refill, hparams, hphase, hupc, hwarn, htrace, hresponses, hport, hacks, hdelays]

theorem Cds.start_forget_congr {c c' : Cds} (h : c.forget = c'.forget) {i : Instr} {k : CdsCommand}
    (hk : cdsCommand? i = some k) : (c.start i k).forget = (c'.start i k).forget := by
  rw [Cds.eq_of_forget_eq h, Cds.start, Cds.start]
  cases k.badLine
  · exact Cds.run_forget_congr k.ops { c with ctl := c.ctl.accept i, regs := k.capture c.regs } (k.capture c'.regs)
      c'.ctl.flags (eventsOf_capture_congr hk _ _ _)
  · exact Cds.run_forget_congr k.ops
      { c with ctl := (c.ctl.accept i).warnBadLine, regs := k.capture c.regs } (k.capture c'.regs)
      { c'.ctl.flags with badline := true } (eventsOf_capture_congr hk _ _ _)

/-- A refusal does not see registers and flags. -/
theorem State.illegal_forget_congr {s s' : State} (h : s.forget = s'.forget) (u : UnitId) :
    (s.illegal u).forget = (s'.illegal u).forget := by
  simp only [State.forget, State.mk.injEq] at h
  obtain ⟨hmsd, hcds, hschedule⟩ := h
  cases u
  · have hillegal : s.msd.illegal.forget = s'.msd.illegal.forget := by
      rw [Msd.eq_of_forget_eq hmsd]
      rfl
    simp only [State.forget, State.illegal, hillegal, hcds, hschedule]
  · have hillegal : s.cds.illegal.forget = s'.cds.illegal.forget := by
      rw [Cds.eq_of_forget_eq hcds]
      rfl
    simp only [State.forget, State.illegal, hillegal, hmsd, hschedule]

/-- Settles O55: the command is started in both states or refused in both. -/
theorem oldRegistersAndFlagsDoNotMatter : Obligations.OldRegistersAndFlagsDoNotMatter := by
  intro i s s' t t' h ht ht'
  have hparts := h
  simp only [State.forget, State.mk.injEq] at hparts
  obtain ⟨hmsd, hcds, hschedule⟩ := hparts
  have hmaxText : s'.cds.params.maxText = s.cds.params.maxText := by
    rw [Cds.eq_of_forget_eq hcds]
    rfl
  cases hwf : i.wf s.cds.params.maxText with
  | false =>
    rw [exec_eq_illegal hwf] at ht
    rw [exec_eq_illegal (hmaxText ▸ hwf)] at ht'
    cases ht
    cases ht'
    exact State.illegal_forget_congr h i.unit
  | true =>
    cases hu : i.unit with
    | msd =>
      obtain ⟨c, hc⟩ := exists_msdCommand hu
      rw [exec_eq_startMsd i c _ hc hwf] at ht
      rw [exec_eq_startMsd i c _ hc (hmaxText ▸ hwf)] at ht'
      cases ht
      cases ht'
      simp only [State.forget, State.startMsd, Msd.start_forget_congr hmsd hc, hcds, hschedule]
    | cds =>
      obtain ⟨k, hk⟩ := exists_cdsCommand hu
      rw [exec_eq_startCds i k _ hk hwf] at ht
      rw [exec_eq_startCds i k _ hk (hmaxText ▸ hwf)] at ht'
      cases ht
      cases ht'
      simp only [State.forget, State.startCds, Cds.start_forget_congr hcds hk, hmsd, hschedule]

end Sys2Proof.Machine

namespace Sys2Proof.Machine

/-! # Numbers (R82, R83, R87, R88, R92 to R94) -/

/-! ## The formulas -/

theorem tempDivisor_cast : ((tempDivisor : Int) : Rat) = 340 := Int.cast_ofNat 340

/-- Settles O26: the formulas are the definitions. -/
theorem scaledResultsFollowTheFormulas : Obligations.ScaledResultsFollowTheFormulas := by
  refine ⟨fun m raw => ⟨rfl, rfl, rfl, rfl, ?_⟩, fun fmt f m raw hf => ?_⟩
  · rw [← tempDivisor_cast]
    rfl
  · simp only [List.mem_cons, Prod.mk.injEq, List.not_mem_nil, or_false] at hf
    rw [← tempDivisor_cast]
    rcases hf with ⟨rfl, rfl⟩ | ⟨rfl, rfl⟩
    all_goals exact ⟨rfl, rfl, rfl, rfl, rfl⟩

/-- The quotient rounded toward zero (R82): below a non-negative reading, above a negative one. -/
theorem tdiv_340_bounds (raw : Int) :
    (0 ≤ raw → 340 * raw.tdiv 340 ≤ raw ∧ raw < 340 * (raw.tdiv 340 + 1)) ∧
      (raw ≤ 0 → raw ≤ 340 * raw.tdiv 340 ∧ 340 * (raw.tdiv 340 - 1) < raw) := by
  constructor
  · intro h
    rw [Int.tdiv_eq_ediv_of_nonneg h]
    omega
  · intro h
    have hneg : raw.tdiv 340 = -((-raw) / 340) := by
      rw [← Int.tdiv_eq_ediv_of_nonneg (by omega), Int.neg_tdiv, neg_neg]
    rw [hneg]
    omega

/-- Settles O20: the integer quotient has the bounds, and the real one is exact. -/
theorem temperatureFormula : Obligations.TemperatureFormula := by
  intro raw hlo hhi
  obtain ⟨hexact, -⟩ := scaledResultsFollowTheFormulas
  obtain ⟨-, -, -, htrunc, hreal⟩ := hexact 1 raw
  obtain ⟨hpos, hneg⟩ := tdiv_340_bounds raw
  refine ⟨⟨raw.tdiv 340, htrunc, ?_, ?_, hpos, hneg⟩, hreal⟩
  all_goals omega

/-! ## The bounds on the results (R94) -/

theorem le_accelScale (raw : Byte) : 2048 ≤ (accelScale raw).1 := by
  unfold accelScale
  split_ifs <;> norm_num

theorem le_gyroScale (raw : Byte) : 164 / 10 ≤ (gyroScale raw).1 := by
  unfold gyroScale
  split_ifs <;> norm_num

/-- A reading divided by a modifier lies between the limits divided by the least modifier. -/
theorem reading_div_bounds {z m m₀ : Rat} (hlo : -32768 ≤ z) (hhi : z ≤ 32767) (hm₀ : 0 < m₀) (hm : m₀ ≤ m) :
    -32768 / m₀ ≤ z / m ∧ z / m ≤ 32767 / m₀ := by
  have hpos : 0 < m := hm₀.trans_le hm
  constructor
  · calc -32768 / m₀ ≤ -32768 / m := by
          rw [neg_div, neg_div, neg_le_neg_iff]
          exact div_le_div_of_nonneg_left (by norm_num) hm₀ hm
      _ ≤ z / m := div_le_div_of_nonneg_right hlo hpos.le
  · calc z / m ≤ 32767 / m := div_le_div_of_nonneg_right hhi hpos.le
      _ ≤ 32767 / m₀ := div_le_div_of_nonneg_left (by norm_num) hm₀ hm

/-- Settles O21: each bound from the reading's range and the least modifier. -/
theorem boundsOnResults : Obligations.BoundsOnResults := by
  intro hi lo raw
  obtain ⟨hlo, hhi⟩ := s16_range (asm16 hi lo)
  generalize s16 (asm16 hi lo) = z at hlo hhi
  have hloq : (-32768 : Rat) ≤ z := by exact_mod_cast hlo
  have hhiq : (z : Rat) ≤ 32767 := by exact_mod_cast hhi
  obtain ⟨⟨q, hq, hq1, hq2, -, -⟩, hreal⟩ := temperatureFormula z hlo hhi
  have hq1 : (-96 : Rat) ≤ q := by exact_mod_cast hq1
  have hq2 : (q : Rat) ≤ 96 := by exact_mod_cast hq2
  obtain ⟨ha1, ha2⟩ := reading_div_bounds hloq hhiq (by norm_num) (le_accelScale raw)
  obtain ⟨hg1, hg2⟩ := reading_div_bounds hloq hhiq (by norm_num) (le_gyroScale raw)
  have hdivide : ∀ m, divideAxis .exact m z = z / m := fun _ => rfl
  have hinG : ∀ m, accelAxis .exact true m z = z / m := fun _ => rfl
  have hgravity : ∀ m, accelAxis .exact false m z = z / m * (196133 / 20000) := fun _ => rfl
  have hgyro : (gyroScale raw).1 = 131 →
      -25014 / 100 ≤ (z : Rat) / (gyroScale raw).1 ∧ (z : Rat) / (gyroScale raw).1 ≤ 25013 / 100 := by
    intro h131
    rw [h131]
    constructor <;> linarith
  rw [hq, hreal, hdivide, hinG, hgravity]
  refine ⟨⟨hlo, hhi⟩, ⟨?_, ?_⟩, ⟨?_, ?_⟩, ⟨?_, ?_⟩, ⟨?_, ?_⟩, ⟨hg1, hg2⟩, hgyro⟩
  all_goals linarith

/-! ## Rounding to an integer (R83) -/

/-- Settles O22: the distance to the exact quotient, multiplied by the divisor. -/
theorem quotientIsRoundedToNearestEven : Obligations.QuotientIsRoundedToNearestEven := by
  intro n d hd
  obtain ⟨hnear, heven⟩ := divNearestEven_near n d hd
  generalize divNearestEven n d = m at hnear heven
  have hdq : (0 : Rat) < d := by exact_mod_cast hd
  have hnd : (n : Rat) / d * d = n := div_mul_cancel₀ _ hdq.ne'
  obtain ⟨hlo, hhi⟩ := abs_le.1 hnear
  have hlo : (2 * n : Rat) ≤ (2 * m + 1) * d := by nlinarith
  have hhi : (2 * m : Rat) * d ≤ 2 * n + d := by nlinarith
  refine ⟨by exact_mod_cast hlo, by exact_mod_cast hhi, fun htie => heven ?_⟩
  rcases htie with htie | htie
  · have htie : (2 * n : Rat) = (2 * m + 1) * d := by exact_mod_cast htie
    have hdist : (m : Rat) - n / d = -(1 / 2) := by
      field_simp
      linarith
    rw [hdist, abs_neg, abs_of_pos (by norm_num)]
  · have htie : (2 * m : Rat) * d = 2 * n + d := by exact_mod_cast htie
    have hdist : (m : Rat) - n / d = 1 / 2 := by
      field_simp
      linarith
    rw [hdist, abs_of_pos (by norm_num)]

/-! ## Rounding to a binary format (R83) -/

/-- No integer is nearer to `y` than one at most a half away, and another as near is its neighbour, both a half away. -/
theorem int_nearest {m : Int} {y : Rat} (h : |(m : Rat) - y| ≤ 1 / 2) (k : Int) :
    |(m : Rat) - y| ≤ |(k : Rat) - y| ∧
      (|(m : Rat) - y| = |(k : Rat) - y| → k ≠ m → |(m : Rat) - y| = 1 / 2 ∧ (k = m + 1 ∨ k = m - 1)) := by
  by_cases hk : k = m
  · subst hk
    exact ⟨le_rfl, fun _ hne => absurd rfl hne⟩
  · have hone : (1 : Rat) ≤ |(k : Rat) - m| := by
      have hone : (1 : Int) ≤ |k - m| := Int.one_le_abs (sub_ne_zero.2 hk)
      exact_mod_cast hone
    have htriangle : |(k : Rat) - m| ≤ |(k : Rat) - y| + |(m : Rat) - y| := by
      rw [abs_sub_comm (m : Rat) y]
      exact abs_sub_le _ _ _
    refine ⟨by linarith, fun heq _ => ?_⟩
    have hhalf : |(m : Rat) - y| = 1 / 2 := by linarith
    have hdist : |(k : Rat) - m| ≤ 1 := by linarith
    have hdist : |k - m| ≤ 1 := by exact_mod_cast hdist
    have hbounds := abs_le.1 hdist
    exact ⟨hhalf, by omega⟩

/-- `r` is the number of the format nearest to `q`: none is nearer, and where another is as near, `r` is an even multiple
of the gap between the two. -/
def BinFmt.Nearest (f : BinFmt) (q r : Rat) : Prop :=
  f.Represents r ∧ ∀ x, f.Represents x →
    |r - q| ≤ |x - q| ∧ (|r - q| = |x - q| → x ≠ r → ∃ k : Int, r = 2 * k * (x - r))

theorem BinFmt.Represents.neg {f : BinFmt} {x : Rat} (h : f.Represents x) : f.Represents (-x) := by
  obtain ⟨m, e, hm, he, rfl⟩ := h
  exact ⟨-m, e, by rwa [Int.natAbs_neg], he, by push_cast; ring⟩

/-- Rounding to nearest is symmetric. -/
theorem BinFmt.Nearest.neg {f : BinFmt} {q r : Rat} (h : f.Nearest q r) : f.Nearest (-q) (-r) := by
  obtain ⟨hr, hnearest⟩ := h
  refine ⟨hr.neg, fun x hx => ?_⟩
  obtain ⟨hle, htie⟩ := hnearest (-x) hx.neg
  have hdist : ∀ a : Rat, |a - -q| = |-a - q| := fun a => by
    rw [← abs_neg]
    congr 1
    ring
  rw [hdist, hdist, neg_neg]
  refine ⟨hle, fun heq hne => ?_⟩
  obtain ⟨k, hk⟩ := htie heq (fun h => hne (by rw [← h, neg_neg]))
  exact ⟨k, by linear_combination -hk⟩

theorem abs_scaled_sub (z y : Rat) (e : Int) : |z * 2 ^ e - y * 2 ^ e| = |z - y| * 2 ^ e := by
  rw [← sub_mul, abs_mul, abs_of_pos (a := (2 : Rat) ^ e) (by positivity)]

section
variable {m : Nat} {y : Rat} (e : Int) (hnear : |(m : Rat) - y| ≤ 1 / 2)
include hnear

/-- Among the integers of last places `2 ^ e`, the significand is nearest, and it is even where its neighbour is as
near. -/
theorem scaled_nearest (heven : |(m : Rat) - y| = 1 / 2 → m % 2 = 0) (k : Int) :
    |(m : Rat) * 2 ^ e - y * 2 ^ e| ≤ |(k : Rat) * 2 ^ e - y * 2 ^ e| ∧
      (|(m : Rat) * 2 ^ e - y * 2 ^ e| = |(k : Rat) * 2 ^ e - y * 2 ^ e| → (k : Rat) * 2 ^ e ≠ m * 2 ^ e →
        ∃ j : Int, (m : Rat) * 2 ^ e = 2 * j * (k * 2 ^ e - m * 2 ^ e)) := by
  have hpos : (0 : Rat) < 2 ^ e := by positivity
  obtain ⟨hle, htie⟩ := int_nearest (m := m) hnear k
  rw [abs_scaled_sub, abs_scaled_sub]
  refine ⟨mul_le_mul_of_nonneg_right hle hpos.le, fun heq hne => ?_⟩
  obtain ⟨hhalf, hneighbour⟩ := htie (mul_right_cancel₀ hpos.ne' heq) (by rintro rfl; exact hne rfl)
  obtain ⟨j, hj⟩ := Nat.even_iff.2 (heven hhalf)
  have hjq : (m : Rat) = j + j := by exact_mod_cast hj
  rcases hneighbour with hnext | hnext
  · refine ⟨j, ?_⟩
    rw [hnext]
    push_cast
    linear_combination (2 : Rat) ^ e * hjq
  · refine ⟨-j, ?_⟩
    rw [hnext]
    push_cast
    linear_combination (2 : Rat) ^ e * hjq

/-- A number below a whole number of last places that is at most `y` is farther from `y` than the significand. -/
theorem scaled_lt_of_below {K : Int} {x : Rat} (hK : (K : Rat) ≤ y) (hx : x < K * 2 ^ e) :
    |(m : Rat) * 2 ^ e - y * 2 ^ e| < |x - y * 2 ^ e| := by
  obtain ⟨hle, -⟩ := int_nearest (m := m) hnear K
  calc |(m : Rat) * 2 ^ e - y * 2 ^ e| ≤ |(K : Rat) * 2 ^ e - y * 2 ^ e| := by
        rw [abs_scaled_sub, abs_scaled_sub]
        exact mul_le_mul_of_nonneg_right hle (by positivity)
    _ = y * 2 ^ e - K * 2 ^ e := by
        rw [abs_sub_comm, abs_of_nonneg (sub_nonneg.2 (mul_le_mul_of_nonneg_right hK (by positivity)))]
    _ < y * 2 ^ e - x := sub_lt_sub_left hx _
    _ ≤ |x - y * 2 ^ e| := by
        rw [abs_sub_comm]
        exact le_abs_self _

end

/-- A significand with a smaller last place is below the binade whose last place is `2 ^ e`. -/
theorem below_binade {p : Nat} (hp : 1 ≤ p) {M E e : Int} (hM : M.natAbs < 2 ^ p) (hbelow : E < e) :
    (M : Rat) * 2 ^ E < ((2 ^ (p - 1) : Int) : Rat) * 2 ^ e := by
  have hMq : (M : Rat) < 2 ^ p := by
    have hMlt : M < 2 ^ p := lt_of_le_of_lt Int.le_natAbs (by exact_mod_cast hM)
    exact_mod_cast hMlt
  obtain ⟨q, rfl⟩ := Nat.exists_eq_add_of_le' hp
  calc (M : Rat) * 2 ^ E < 2 ^ (q + 1) * 2 ^ E := mul_lt_mul_of_pos_right hMq (by positivity)
    _ ≤ 2 ^ (q + 1) * 2 ^ (e - 1) := by
        gcongr
        · norm_num
        · omega
    _ = ((2 ^ (q + 1 - 1) : Int) : Rat) * 2 ^ e := by
        rw [zpow_sub_one₀ (by norm_num), Nat.add_sub_cancel, pow_succ]
        push_cast
        ring

section
variable (f : BinFmt) {n d : Nat} (hn : 0 < n) (hd : 0 < d)

/-- The least exponent of a last place is that of the subnormal numbers. -/
theorem BinFmt.le_quantum (n d : Nat) : f.emin - ((f.prec : Int) - 1) ≤ f.quantum n d :=
  Int.sub_le_sub_right (le_max_right _ _) _

include hn hd

/-- The number is less than `2 ^ prec` last places. -/
theorem BinFmt.scaled_lt : (n : Rat) / d / 2 ^ f.quantum n d < 2 ^ (f.prec : Int) := by
  obtain ⟨-, hlt⟩ := floorLog2_bounds n d hn hd
  have hexp : floorLog2 n d + 1 ≤ (f.prec : Int) + f.quantum n d := by
    have hmax : floorLog2 n d ≤ max (floorLog2 n d) f.emin := le_max_left _ _
    rw [BinFmt.quantum]
    omega
  rw [div_lt_iff₀ (by positivity), ← zpow_add₀ (by norm_num)]
  exact hlt.trans_le (zpow_le_zpow_right₀ (by norm_num) hexp)

/-- Above the subnormal numbers, the number is at least `2 ^ (prec - 1)` last places. -/
theorem BinFmt.le_scaled (hnormal : f.emin - ((f.prec : Int) - 1) < f.quantum n d) :
    (2 : Rat) ^ ((f.prec : Int) - 1) ≤ (n : Rat) / d / 2 ^ f.quantum n d := by
  obtain ⟨hle, -⟩ := floorLog2_bounds n d hn hd
  have hexp : (f.prec : Int) - 1 + f.quantum n d = floorLog2 n d := by
    rw [BinFmt.quantum] at hnormal ⊢
    rw [max_eq_left (by by_contra hlt; rw [max_eq_right (by omega)] at hnormal; omega)]
    omega
  rw [le_div_iff₀ (by positivity), ← zpow_add₀ (by norm_num), hexp]
  exact hle

/-- The significand is at most `2 ^ prec`. -/
theorem BinFmt.significand_le : f.significand n d ≤ 2 ^ f.prec := by
  obtain ⟨hnear, -⟩ := f.significand_near n d hn hd
  have hlt := f.scaled_lt hn hd
  obtain ⟨-, hhi⟩ := abs_le.1 hnear
  rw [zpow_natCast] at hlt
  have hlt : (f.significand n d : Rat) < (2 ^ f.prec + 1 : Nat) := by
    push_cast
    linarith
  exact Nat.lt_succ_iff.1 (by exact_mod_cast hlt)

/-- Above the subnormal numbers, the significand is at least `2 ^ (prec - 1)`. -/
theorem BinFmt.le_significand (hprec : 1 ≤ f.prec) (hnormal : f.emin - ((f.prec : Int) - 1) < f.quantum n d) :
    2 ^ (f.prec - 1) ≤ f.significand n d := by
  obtain ⟨hnear, -⟩ := f.significand_near n d hn hd
  have hle := f.le_scaled hn hd hnormal
  obtain ⟨hlo, -⟩ := abs_le.1 hnear
  rw [← Nat.cast_pred hprec, zpow_natCast] at hle
  have hlt : ((2 ^ (f.prec - 1) : Nat) : Rat) < (f.significand n d + 1 : Nat) := by
    push_cast
    linarith
  exact Nat.lt_succ_iff.1 (by exact_mod_cast hlt)

/-- The rounded number is a number of the format. -/
theorem BinFmt.represents_significand (hprec : 1 ≤ f.prec) :
    f.Represents (f.significand n d * 2 ^ f.quantum n d) := by
  rcases (f.significand_le hn hd).lt_or_eq with hlt | heq
  · exact ⟨f.significand n d, f.quantum n d, by simpa using hlt, f.le_quantum n d, by push_cast; rfl⟩
  · refine ⟨2 ^ (f.prec - 1), f.quantum n d + 1, ?_, (f.le_quantum n d).trans (by omega), ?_⟩
    · rw [Int.natAbs_pow]
      exact Nat.pow_lt_pow_right (by decide) (by omega)
    · rw [heq, zpow_add₀ (by norm_num), zpow_one]
      obtain ⟨p, hp⟩ := Nat.exists_eq_add_of_le' hprec
      rw [hp, Nat.add_sub_cancel]
      push_cast
      ring

/-- A positive number is rounded to the nearest number of the format: the numbers on its grid are integers of last places,
and any other is below the binade of the number. -/
theorem BinFmt.nearest_significand (hprec : 1 ≤ f.prec) :
    f.Nearest ((n : Rat) / d) (f.significand n d * 2 ^ f.quantum n d) := by
  refine ⟨f.represents_significand hn hd hprec, ?_⟩
  rintro x ⟨M, E, hM, hE, rfl⟩
  obtain ⟨hnear, heven⟩ := f.significand_near n d hn hd
  have hle_scaled := f.le_scaled hn hd
  have hscaled : (n : Rat) / d = (n : Rat) / d / 2 ^ f.quantum n d * 2 ^ f.quantum n d :=
    (div_mul_cancel₀ _ (by positivity)).symm
  generalize f.significand n d = m at *
  generalize f.quantum n d = e at *
  generalize (n : Rat) / d / 2 ^ e = y at *
  rw [hscaled]
  rcases le_or_gt e E with hgrid | hbelow
  · obtain ⟨j, hj⟩ := Int.eq_ofNat_of_zero_le (sub_nonneg.2 hgrid)
    have hx : (M : Rat) * 2 ^ E = ((M * 2 ^ j : Int) : Rat) * 2 ^ e := by
      rw [show E = (j : Int) + e by omega, zpow_add₀ (by norm_num), zpow_natCast]
      push_cast
      ring
    rw [hx]
    exact scaled_nearest e hnear heven (M * 2 ^ j)
  · have hK : ((2 ^ (f.prec - 1) : Int) : Rat) ≤ y := by
      have hK := hle_scaled (hE.trans_lt hbelow)
      rw [← Nat.cast_pred hprec, zpow_natCast] at hK
      exact_mod_cast hK
    have hlt := scaled_lt_of_below e hnear hK (below_binade hprec hM hbelow)
    exact ⟨hlt.le, fun heq => absurd heq hlt.ne⟩

end

/-! ## The sign -/

theorem natAbs_num_div_den (q : Rat) : ((q.num.natAbs : Nat) : Rat) / q.den = |q| := by
  calc ((q.num.natAbs : Nat) : Rat) / q.den = |(q.num : Rat)| / |(q.den : Rat)| := by
        rw [Nat.cast_natAbs, Int.cast_abs, Nat.abs_cast]
    _ = |q| := by rw [← abs_div, Rat.num_div_den]

theorem natAbs_num_pos {q : Rat} (h : q ≠ 0) : 0 < q.num.natAbs := Int.natAbs_pos.2 (Rat.num_ne_zero.2 h)

theorem BinFmt.round_of_pos (f : BinFmt) {q : Rat} (h : 0 < q) :
    f.round q = f.significand q.num.natAbs q.den * 2 ^ f.quantum q.num.natAbs q.den := by
  have hnum : ¬ q.num < 0 := not_lt.2 (Rat.num_pos.2 h).le
  simp only [BinFmt.round, if_neg (natAbs_num_pos h.ne').ne', if_neg hnum, scaleByPow2_eq]

theorem BinFmt.round_of_neg (f : BinFmt) {q : Rat} (h : q < 0) :
    f.round q = -(f.significand q.num.natAbs q.den * 2 ^ f.quantum q.num.natAbs q.den) := by
  have hnum : q.num < 0 := Rat.num_neg.2 h
  simp only [BinFmt.round, if_neg (natAbs_num_pos h.ne).ne', if_pos hnum, scaleByPow2_eq]

theorem BinFmt.represents_zero (f : BinFmt) : f.Represents 0 :=
  ⟨0, _, Nat.two_pow_pos _, le_rfl, by rw [Int.cast_zero, zero_mul]⟩

/-- `f.round q` is the nearest number of the format (R83). -/
theorem BinFmt.nearest_round (f : BinFmt) (hprec : 1 ≤ f.prec) (q : Rat) : f.Nearest q (f.round q) := by
  rcases lt_trichotomy q 0 with hneg | rfl | hpos
  · have hq : q = -((q.num.natAbs : Nat) / q.den) := by rw [natAbs_num_div_den, abs_of_neg hneg, neg_neg]
    have hnearest := (f.nearest_significand (natAbs_num_pos hneg.ne) q.den_pos hprec).neg
    rwa [← hq, ← f.round_of_neg hneg] at hnearest
  · have hround : f.round 0 = 0 := rfl
    rw [hround]
    refine ⟨f.represents_zero, fun x _ => ?_⟩
    rw [sub_zero, abs_zero, sub_zero]
    exact ⟨abs_nonneg x, fun heq hne => absurd (abs_eq_zero.1 heq.symm) hne⟩
  · have hq : q = (q.num.natAbs : Nat) / q.den := by rw [natAbs_num_div_den, abs_of_pos hpos]
    have hnearest := f.nearest_significand (natAbs_num_pos hpos.ne') q.den_pos hprec
    rwa [← hq, ← f.round_of_pos hpos] at hnearest

/-- Settles O24: the nearest number, in both formats. -/
theorem roundingGivesTheNearestNumber : Obligations.RoundingGivesTheNearestNumber := by
  refine ⟨rfl, rfl, fun f hf q => ?_⟩
  have hprec : ∀ f ∈ [binary32, binary64], 1 ≤ f.prec := by decide
  exact f.nearest_round (hprec f hf) q

/-- A number of the format is its own rounding. -/
theorem BinFmt.round_eq_self {f : BinFmt} (hprec : 1 ≤ f.prec) {q : Rat} (hq : f.Represents q) : f.round q = q := by
  obtain ⟨-, hnearest⟩ := f.nearest_round hprec q
  obtain ⟨hle, -⟩ := hnearest q hq
  rw [sub_self, abs_zero] at hle
  exact sub_eq_zero.1 (abs_nonpos_iff.1 hle)

/-- An integer that fits the precision is a number of the format. -/
theorem BinFmt.represents_int {f : BinFmt} (hemin : f.emin - ((f.prec : Int) - 1) ≤ 0) {z : Int}
    (hz : z.natAbs < 2 ^ f.prec) : f.Represents z :=
  ⟨z, 0, hz, hemin, by rw [zpow_zero, mul_one]⟩

/-- Settles O23: such an integer is a number of both formats. -/
theorem integersConvertExactly : Obligations.IntegersConvertExactly := by
  intro z hlo hhi
  have hz : z.natAbs < 2 ^ 24 := by omega
  exact ⟨BinFmt.round_eq_self (by decide) (BinFmt.represents_int (by decide) hz),
    BinFmt.round_eq_self (by decide)
      (BinFmt.represents_int (by decide) (hz.trans_le (Nat.pow_le_pow_right (by decide) (by decide))))⟩

/-! ## The bytes of an image (R56) -/

/-- The bits of a positive number without the sign: exponent field and significand. -/
def BinFmt.magnitude (f : BinFmt) (n d : Nat) : Nat :=
  (f.quantum n d + ((f.prec : Int) - 1) - f.emin).toNat * 2 ^ (f.prec - 1) + f.significand n d

theorem BinFmt.bits_of_pos (f : BinFmt) {q : Rat} (h : 0 < q) : f.bits q = f.magnitude q.num.natAbs q.den := by
  have hnum : ¬ q.num < 0 := not_lt.2 (Rat.num_pos.2 h).le
  simp only [BinFmt.bits, BinFmt.magnitude, if_neg (natAbs_num_pos h.ne').ne', if_neg hnum, Nat.zero_add]

theorem BinFmt.bits_of_neg (f : BinFmt) {q : Rat} (h : q < 0) :
    f.bits q = 2 ^ (f.ebits + f.prec - 1) + f.magnitude q.num.natAbs q.den := by
  have hnum : q.num < 0 := Rat.num_neg.2 h
  simp only [BinFmt.bits, BinFmt.magnitude, if_neg (natAbs_num_pos h.ne).ne', if_pos hnum, Nat.add_assoc]

section
variable {f : BinFmt} (hprec : 1 ≤ f.prec)
include hprec

theorem BinFmt.sign_weight : 2 ^ (f.ebits + f.prec - 1) = 2 ^ f.ebits * 2 ^ (f.prec - 1) := by
  rw [← pow_add]
  congr 1
  omega

/-- What bits without a sign stand for. -/
theorem BinFmt.valueOf_of_lt {v : Nat} (hv : v < 2 ^ (f.ebits + f.prec - 1)) : f.valueOf v =
    if v / 2 ^ (f.prec - 1) = 0 then (v : Rat) * 2 ^ (f.emin - ((f.prec : Int) - 1))
    else (2 ^ (f.prec - 1) + v % 2 ^ (f.prec - 1) : Nat) *
      (2 : Rat) ^ (((v / 2 ^ (f.prec - 1) : Nat) : Int) - f.bias - ((f.prec : Int) - 1)) := by
  rw [f.sign_weight hprec] at hv
  have hsign : v / 2 ^ (f.prec - 1 + f.ebits) = 0 := by
    rw [pow_add, Nat.mul_comm]
    exact Nat.div_eq_of_lt hv
  have hfield : v / 2 ^ (f.prec - 1) % 2 ^ f.ebits = v / 2 ^ (f.prec - 1) :=
    Nat.mod_eq_of_lt ((Nat.div_lt_iff_lt_mul (by positivity)).2 hv)
  simp only [BinFmt.valueOf, hsign, hfield, if_true, one_mul]
  split
  · next hzero => rw [Nat.mod_eq_of_lt ((Nat.div_eq_zero_iff_lt (by positivity)).1 hzero)]
  · rfl

/-- The sign bit negates. -/
theorem BinFmt.valueOf_sign_add {v : Nat} (hv : v < 2 ^ (f.ebits + f.prec - 1)) :
    f.valueOf (2 ^ (f.ebits + f.prec - 1) + v) = -f.valueOf v := by
  rw [f.sign_weight hprec] at hv ⊢
  have hA : 0 < 2 ^ (f.prec - 1) := by positivity
  have hS : 2 ^ (f.prec - 1 + f.ebits) = 2 ^ f.ebits * 2 ^ (f.prec - 1) := by rw [pow_add, Nat.mul_comm]
  have hfraction : (2 ^ f.ebits * 2 ^ (f.prec - 1) + v) % 2 ^ (f.prec - 1) = v % 2 ^ (f.prec - 1) :=
    Nat.mul_add_mod_self_right _ _ _
  have hfield : (2 ^ f.ebits * 2 ^ (f.prec - 1) + v) / 2 ^ (f.prec - 1) = 2 ^ f.ebits + v / 2 ^ (f.prec - 1) := by
    rw [Nat.add_comm, Nat.add_mul_div_right _ _ hA, Nat.add_comm]
  have hsign : (2 ^ f.ebits * 2 ^ (f.prec - 1) + v) / (2 ^ f.ebits * 2 ^ (f.prec - 1)) = 1 := by
    rw [Nat.add_div_left _ (by positivity), Nat.div_eq_of_lt hv]
  have hnosign : v / (2 ^ f.ebits * 2 ^ (f.prec - 1)) = 0 := Nat.div_eq_of_lt hv
  simp only [BinFmt.valueOf, hS, hfraction, hfield, hsign, hnosign, Nat.add_mod_left, if_true, one_ne_zero, if_false]
  split <;> ring

end

section
variable {f : BinFmt} (hprec : 1 ≤ f.prec) (hbias : 1 ≤ f.bias) (hebits : 2 ^ f.ebits = 2 * f.bias + 2)
  {n d : Nat} (hn : 0 < n) (hd : 0 < d) (hmax : (n : Rat) / d ≤ 2 ^ f.bias)
include hbias hn hd hmax

/-- The exponent of the last place of a number of at most `2 ^ bias`, by its place above the subnormal numbers. -/
theorem BinFmt.exists_quantum_eq :
    ∃ F : Nat, F ≤ 2 * f.bias - 1 ∧ f.quantum n d = f.emin - ((f.prec : Int) - 1) + F ∧
      f.magnitude n d = F * 2 ^ (f.prec - 1) + f.significand n d := by
  obtain ⟨F, hF⟩ := Int.eq_ofNat_of_zero_le (sub_nonneg.2 (f.le_quantum n d))
  have hquantum : f.quantum n d = f.emin - ((f.prec : Int) - 1) + F := by omega
  refine ⟨F, ?_, hquantum, ?_⟩
  · obtain ⟨hle, -⟩ := floorLog2_bounds n d hn hd
    have hlog : floorLog2 n d ≤ f.bias := by
      rw [← zpow_natCast] at hmax
      exact (zpow_le_zpow_iff_right₀ (by norm_num)).1 (hle.trans hmax)
    have hemin : f.emin = 1 - (f.bias : Int) := rfl
    have hmax' : max (floorLog2 n d) f.emin ≤ f.bias := max_le hlog (by omega)
    rw [BinFmt.quantum] at hquantum
    omega
  · have hfield : (f.quantum n d + ((f.prec : Int) - 1) - f.emin).toNat = F := by omega
    rw [BinFmt.magnitude, hfield]

include hprec hebits

/-- The magnitude does not reach the sign bit. -/
theorem BinFmt.magnitude_lt : f.magnitude n d < 2 ^ (f.ebits + f.prec - 1) := by
  obtain ⟨F, hF, -, hv⟩ := f.exists_quantum_eq hbias hn hd hmax
  have hm : f.significand n d ≤ 2 * 2 ^ (f.prec - 1) := by
    rw [← pow_succ', Nat.sub_add_cancel hprec]
    exact f.significand_le hn hd
  rw [hv, f.sign_weight hprec, hebits]
  have hA : 0 < 2 ^ (f.prec - 1) := by positivity
  calc F * 2 ^ (f.prec - 1) + f.significand n d ≤ (F + 2) * 2 ^ (f.prec - 1) := by rw [Nat.add_mul]; omega
    _ < (2 * f.bias + 2) * 2 ^ (f.prec - 1) := Nat.mul_lt_mul_of_pos_right (by omega) hA

/-- The magnitude stands for the rounded number: a subnormal significand, a normal one, or one that was rounded up to the
next power of two and has carried into the exponent field. -/
theorem BinFmt.valueOf_magnitude :
    f.valueOf (f.magnitude n d) = f.significand n d * 2 ^ f.quantum n d := by
  rw [f.valueOf_of_lt hprec (f.magnitude_lt hprec hbias hebits hn hd hmax)]
  obtain ⟨F, -, hquantum, hv⟩ := f.exists_quantum_eq hbias hn hd hmax
  have hnormal := f.le_significand hn hd hprec
  have hle : f.significand n d ≤ 2 * 2 ^ (f.prec - 1) := by
    rw [← pow_succ', Nat.sub_add_cancel hprec]
    exact f.significand_le hn hd
  have hemin : f.emin = 1 - (f.bias : Int) := rfl
  rw [hquantum] at hnormal
  rw [hv, hquantum]
  generalize f.significand n d = m at *
  have hA : 0 < 2 ^ (f.prec - 1) := by positivity
  rcases Nat.lt_or_ge m (2 ^ (f.prec - 1)) with hsub | hge
  · obtain rfl : F = 0 := by
      by_contra hF
      exact absurd (hnormal (by omega)) (by omega)
    rw [if_pos (by rw [Nat.zero_mul, Nat.zero_add, Nat.div_eq_of_lt hsub])]
    simp
  · rcases hle.lt_or_eq with hlt | rfl
    · have hfield : (F * 2 ^ (f.prec - 1) + m) / 2 ^ (f.prec - 1) = F + 1 := by
        have hone : m / 2 ^ (f.prec - 1) = 1 := Nat.div_eq_of_lt_le (by omega) (by omega)
        rw [Nat.add_comm, Nat.add_mul_div_right _ _ hA, hone, Nat.add_comm]
      have hfraction : 2 ^ (f.prec - 1) + (F * 2 ^ (f.prec - 1) + m) % 2 ^ (f.prec - 1) = m := by
        rw [Nat.mul_add_mod_self_right, Nat.mod_eq_sub_mod hge, Nat.mod_eq_of_lt (by omega)]
        omega
      rw [hfield, hfraction, if_neg (Nat.succ_ne_zero F)]
      congr 2
      omega
    · have hfield : (F * 2 ^ (f.prec - 1) + 2 * 2 ^ (f.prec - 1)) / 2 ^ (f.prec - 1) = F + 2 := by
        rw [← Nat.add_mul, Nat.mul_div_cancel _ hA]
      have hfraction : (F * 2 ^ (f.prec - 1) + 2 * 2 ^ (f.prec - 1)) % 2 ^ (f.prec - 1) = 0 := by
        rw [← Nat.add_mul, Nat.mul_mod_left]
      have hexp : ((F + 2 : Nat) : Int) - f.bias - ((f.prec : Int) - 1) =
          1 + (f.emin - ((f.prec : Int) - 1) + F) := by omega
      rw [hfield, hfraction, if_neg (Nat.succ_ne_zero _), hexp, zpow_add₀ (by norm_num), zpow_one]
      push_cast
      ring

end

/-- The bits of a number of at most `2 ^ bias` fit the format and stand for its rounding. -/
theorem BinFmt.valueOf_bits {f : BinFmt} (hprec : 1 ≤ f.prec) (hbias : 1 ≤ f.bias)
    (hebits : 2 ^ f.ebits = 2 * f.bias + 2) {q : Rat} (hq : |q| ≤ 2 ^ f.bias) :
    f.bits q < 2 * 2 ^ (f.ebits + f.prec - 1) ∧ f.valueOf (f.bits q) = f.round q := by
  rw [← natAbs_num_div_den] at hq
  rcases lt_trichotomy q 0 with hneg | rfl | hpos
  · have hlt := BinFmt.magnitude_lt hprec hbias hebits (natAbs_num_pos hneg.ne) q.den_pos hq
    rw [f.bits_of_neg hneg, f.round_of_neg hneg, f.valueOf_sign_add hprec hlt,
      f.valueOf_magnitude hprec hbias hebits (natAbs_num_pos hneg.ne) q.den_pos hq]
    exact ⟨by omega, rfl⟩
  · have hbits : f.bits 0 = 0 := rfl
    have hround : f.round 0 = 0 := rfl
    rw [hbits, hround, f.valueOf_of_lt hprec (by positivity), Nat.zero_div, if_pos rfl, Nat.cast_zero, zero_mul]
    exact ⟨by positivity, rfl⟩
  · have hlt := BinFmt.magnitude_lt hprec hbias hebits (natAbs_num_pos hpos.ne') q.den_pos hq
    rw [f.bits_of_pos hpos, f.round_of_pos hpos,
      f.valueOf_magnitude hprec hbias hebits (natAbs_num_pos hpos.ne') q.den_pos hq]
    exact ⟨by omega, rfl⟩

/-- An image of `k` bytes, as many as the format has, reads back as the rounded number. -/
theorem BinFmt.image_encodes {f : BinFmt} (hprec : 1 ≤ f.prec) (hbias : 1 ≤ f.bias)
    (hebits : 2 ^ f.ebits = 2 * f.bias + 2) {k : Nat} (hk : 2 * 2 ^ (f.ebits + f.prec - 1) = 256 ^ k) {q : Rat}
    (hq : |q| ≤ 2 ^ f.bias) :
    (bytesOfNat k (f.bits q)).length = k ∧
      f.valueOf (numberOfBytes (bytesOfNat k (f.bits q))) = f.round q ∧
      (q = 0 → numberOfBytes (bytesOfNat k (f.bits q)) = 0) := by
  obtain ⟨hlt, hvalue⟩ := f.valueOf_bits hprec hbias hebits hq
  obtain ⟨hlen, hnumber⟩ := numberOfBytes_bytesOfNat k (f.bits q) (hk ▸ hlt)
  rw [hnumber]
  exact ⟨hlen, hvalue, fun hzero => by rw [hzero]; rfl⟩

/-- Settles O25: `binary32` has 32 bits and `binary64` 64, and numbers of at most `2 ^ 127` are in range of both. -/
theorem imageEncodesTheRoundedNumber : Obligations.ImageEncodesTheRoundedNumber := by
  intro q hq
  have hbias32 : binary32.bias = 127 := by decide
  have hbias64 : binary64.bias = 1023 := by decide
  have hq64 : |q| ≤ 2 ^ binary64.bias := by
    rw [hbias64]
    exact hq.trans (pow_le_pow_right₀ (by norm_num) (by norm_num))
  exact ⟨rfl,
    ⟨_, rfl, BinFmt.image_encodes (k := 4) (by decide) (by decide) (by decide) (by decide) (hbias32 ▸ hq)⟩,
    ⟨_, rfl, BinFmt.image_encodes (k := 8) (by decide) (by decide) (by decide) (by decide) hq64⟩⟩

end Sys2Proof.Machine

namespace Sys2Proof.Machine

/-! # The assembler (R64 to R66) -/

theorem AsmSymbol.mem_all (x : AsmSymbol) : x ∈ AsmSymbol.all := by
  cases x <;> decide

theorem assemble_sendByte (a b : AsmOperand) :
    assemble .sendByte [a, b] = a.byte?.bind fun x => b.byte?.map (.sendByte x) := by
  rw [assemble]
  cases a.byte? <;> cases b.byte? <;> rfl

theorem assemble_writeString (a b : AsmOperand) :
    assemble .writeString [a, b] = a.text?.bind fun text => b.byte?.map fun line => .writeString line text := by
  rw [assemble]
  cases a.text? <;> cases b.byte? <;> rfl

/-- Settles O60: the tables by evaluation, the operands by the assembler's arms, the lines by reading them. -/
theorem assemblerLines : Obligations.AssemblerLines := by
  refine ⟨rfl, fun x => ⟨x.mem_all, rfl⟩, fun n => rfl, fun a b => ?_, rfl, ?_⟩
  · exact ⟨rfl, rfl, rfl, rfl, rfl, rfl, rfl, rfl, assemble_sendByte a b, assemble_writeString a b⟩
  · decide +kernel

end Sys2Proof.Machine
